-- ==== Sys2Proof/Word.lean ====
section
/-! DEFINITION. The word types of RV32I (`00_scope.md` rules R4, R7, R10; `10_state.md` rule R20). -/

namespace Sys2Proof

/-- A 32-bit value, XLEN = 32 (`00_scope.md` rule R4): a register, the `pc`, an address, an instruction word. -/
abbrev Word := BitVec 32

/-- One byte of the byte-addressed memory (`00_scope.md` rule R7). -/
abbrev Byte := BitVec 8

/-- A register number, the 5-bit field that selects `x0` to `x31` (`10_state.md` rule R20). -/
abbrev Reg := BitVec 5

end Sys2Proof
end

