-- ==== Sys2Proof/Syntax.lean ====
section
/-! DEFINITION. The instructions of RV32I: one constructor per row of `spec/opcode_table.json`, the forty of `00_scope.md` rule R2
and the two named encodings of FENCE (`30_encoding.md` rule R89). Register fields are 5-bit numbers (R72), immediates are the
32-bit values `imm_I`, `imm_S`, `imm_B`, `imm_U`, `imm_J` of rules R79 to R83, shift amounts the 5-bit `shamt` of R85. -/

namespace Sys2Proof

/-- An instruction of the opcode table, its operand fields already taken apart (`30_encoding.md` rule R95). -/
inductive Instr where
  -- U and J formats (R77, R78)
  | lui (rd : Reg) (imm : Word)
  | auipc (rd : Reg) (imm : Word)
  | jal (rd : Reg) (imm : Word)
  | jalr (rd rs1 : Reg) (imm : Word)
  -- B format (R76)
  | beq (rs1 rs2 : Reg) (imm : Word)
  | bne (rs1 rs2 : Reg) (imm : Word)
  | blt (rs1 rs2 : Reg) (imm : Word)
  | bge (rs1 rs2 : Reg) (imm : Word)
  | bltu (rs1 rs2 : Reg) (imm : Word)
  | bgeu (rs1 rs2 : Reg) (imm : Word)
  -- loads, I format (R74)
  | lb (rd rs1 : Reg) (imm : Word)
  | lh (rd rs1 : Reg) (imm : Word)
  | lw (rd rs1 : Reg) (imm : Word)
  | lbu (rd rs1 : Reg) (imm : Word)
  | lhu (rd rs1 : Reg) (imm : Word)
  -- stores, S format (R75)
  | sb (rs1 rs2 : Reg) (imm : Word)
  | sh (rs1 rs2 : Reg) (imm : Word)
  | sw (rs1 rs2 : Reg) (imm : Word)
  -- OP-IMM, I format (R74, R85)
  | addi (rd rs1 : Reg) (imm : Word)
  | slti (rd rs1 : Reg) (imm : Word)
  | sltiu (rd rs1 : Reg) (imm : Word)
  | xori (rd rs1 : Reg) (imm : Word)
  | ori (rd rs1 : Reg) (imm : Word)
  | andi (rd rs1 : Reg) (imm : Word)
  | slli (rd rs1 : Reg) (shamt : BitVec 5)
  | srli (rd rs1 : Reg) (shamt : BitVec 5)
  | srai (rd rs1 : Reg) (shamt : BitVec 5)
  -- OP, R format (R73)
  | add (rd rs1 rs2 : Reg)
  | sub (rd rs1 rs2 : Reg)
  | sll (rd rs1 rs2 : Reg)
  | slt (rd rs1 rs2 : Reg)
  | sltu (rd rs1 rs2 : Reg)
  | xor (rd rs1 rs2 : Reg)
  | srl (rd rs1 rs2 : Reg)
  | sra (rd rs1 rs2 : Reg)
  | or (rd rs1 rs2 : Reg)
  | and (rd rs1 rs2 : Reg)
  -- MISC-MEM (R86)
  | fence (fm pred succ : BitVec 4) (rs1 rd : Reg)
  -- SYSTEM (R87)
  | ecall
  | ebreak
  -- the two named encodings of FENCE (R204, R231)
  | fenceTso (rs1 rd : Reg)
  | pause
  deriving DecidableEq, Repr

end Sys2Proof
end

