-- ==== Sys2Proof/WellFormed.lean ====
section
/-! DEFINITION. Which terms of `Instr` an encoding exists for. Every value of a register field, a shift amount and the FENCE fields
is legal (`30_encoding.md` rule R95); an immediate is the value its format can produce (rules R79 to R83, R96); and the FENCE
words that have a row of their own are written with that row's constructor (rule R89). -/

namespace Sys2Proof

/-- A value `imm_I` or `imm_S` can take: 12 bits, sign-extended (`30_encoding.md` rules R79, R80). -/
def isImm12 (v : Word) : Bool := (v.setWidth 12).signExtend 32 == v

/-- A value `imm_B` can take: 13 bits, sign-extended, bit 0 zero (`30_encoding.md` rule R81). -/
def isImmB (v : Word) : Bool := (v.setWidth 13).signExtend 32 == v && !v.getLsbD 0

/-- A value `imm_U` can take: the low 12 bits zero (`30_encoding.md` rule R82). -/
def isImmU (v : Word) : Bool := v.setWidth 12 == 0#12

/-- A value `imm_J` can take: 21 bits, sign-extended, bit 0 zero (`30_encoding.md` rule R83). -/
def isImmJ (v : Word) : Bool := (v.setWidth 21).signExtend 32 == v && !v.getLsbD 0

/-- The field values of FENCE.TSO: `fm = 1000`, `pred = RW`, `succ = RW` (`43_memory_ordering.md` rule R204). -/
def isTsoFence (fm pred succ : BitVec 4) : Bool := fm == 0b1000#4 && pred == 0b0011#4 && succ == 0b0011#4

/-- The field values of PAUSE: `fm = 0`, `pred = W`, `succ = 0`, `rs1 = rd = x0` (`45_hints.md` rule R231). -/
def isPauseFence (fm pred succ : BitVec 4) (rs1 rd : Reg) : Bool :=
  fm == 0#4 && pred == 0b0001#4 && succ == 0#4 && rs1 == 0#5 && rd == 0#5

/-- The instruction has an encoding that decodes to it. -/
def Instr.wf : Instr → Bool
  | .lui _ imm | .auipc _ imm => isImmU imm
  | .jal _ imm => isImmJ imm
  | .jalr _ _ imm => isImm12 imm
  | .beq _ _ imm | .bne _ _ imm | .blt _ _ imm | .bge _ _ imm | .bltu _ _ imm | .bgeu _ _ imm => isImmB imm
  | .lb _ _ imm | .lh _ _ imm | .lw _ _ imm | .lbu _ _ imm | .lhu _ _ imm => isImm12 imm
  | .sb _ _ imm | .sh _ _ imm | .sw _ _ imm => isImm12 imm
  | .addi _ _ imm | .slti _ _ imm | .sltiu _ _ imm | .xori _ _ imm | .ori _ _ imm | .andi _ _ imm => isImm12 imm
  | .slli _ _ _ | .srli _ _ _ | .srai _ _ _ => true
  | .add _ _ _ | .sub _ _ _ | .sll _ _ _ | .slt _ _ _ | .sltu _ _ _ | .xor _ _ _ | .srl _ _ _ | .sra _ _ _
  | .or _ _ _ | .and _ _ _ => true
  | .fence fm pred succ rs1 rd => !isTsoFence fm pred succ && !isPauseFence fm pred succ rs1 rd
  | .ecall | .ebreak => true
  | .fenceTso _ _ => true
  | .pause => true

end Sys2Proof
end

