-- ==== Sys2Proof/Decode.lean ====
section
/-! DEFINITION. The decoder, total on every 32-bit word and rejecting a reserved encoding by name (`30_encoding.md` rules R70 to
R95), and after it the encoder, written from the format tables R73 to R87. Every numeric value is the spec's own "from general
knowledge" (rule R70; log entry 8). -/

namespace Sys2Proof

/-! ## Fields (`30_encoding.md` rules R72, R85, R86) -/

def rdOf (w : Word) : Reg := w.extractLsb' 7 5
def rs1Of (w : Word) : Reg := w.extractLsb' 15 5
def rs2Of (w : Word) : Reg := w.extractLsb' 20 5
/-- The shift amount of SLLI, SRLI, SRAI (R85). -/
def shamtOf (w : Word) : BitVec 5 := w.extractLsb' 20 5
/-- The fence mode (R86). -/
def fmOf (w : Word) : BitVec 4 := w.extractLsb' 28 4
/-- The predecessor set PI, PO, PR, PW (R86). -/
def predOf (w : Word) : BitVec 4 := w.extractLsb' 24 4
/-- The successor set SI, SO, SR, SW (R86). -/
def succOf (w : Word) : BitVec 4 := w.extractLsb' 20 4

/-! ## Immediates (`30_encoding.md` rules R79 to R84) -/

/-- `imm_I` (R79). -/
def immI (w : Word) : Word := (w.extractLsb' 20 12).signExtend 32
/-- `imm_S` (R80). -/
def immS (w : Word) : Word := (w.extractLsb' 25 7 ++ w.extractLsb' 7 5 : BitVec 12).signExtend 32
/-- `imm_B` (R81). -/
def immB (w : Word) : Word :=
  (w.extractLsb' 31 1 ++ w.extractLsb' 7 1 ++ w.extractLsb' 25 6 ++ w.extractLsb' 8 4 ++ 0#1 : BitVec 13).signExtend 32
/-- `imm_U` (R82). -/
def immU (w : Word) : Word := (w.extractLsb' 12 20 ++ 0#12 : BitVec 32)
/-- `imm_J` (R83). -/
def immJ (w : Word) : Word :=
  (w.extractLsb' 31 1 ++ w.extractLsb' 12 8 ++ w.extractLsb' 20 1 ++ w.extractLsb' 21 10 ++ 0#1 : BitVec 21).signExtend 32

/-! ## The opcode table (`30_encoding.md` rule R89) -/

/-- One row of the listing: a word is the row's instruction exactly when `w & mask = bits`, and `build` takes its fields. -/
structure Row where
  mnemonic : String
  mask : Word
  bits : Word
  build : Word → Instr

/-- `w & mask == match` (R89). -/
def Row.matches (r : Row) (w : Word) : Bool := w &&& r.mask == r.bits

/-- The U- and J-type rows and JALR. -/
def upperAndJumpRows : List Row := [
  ⟨"LUI", 0x0000007F#32, 0x00000037#32, fun w => .lui (rdOf w) (immU w)⟩,
  ⟨"AUIPC", 0x0000007F#32, 0x00000017#32, fun w => .auipc (rdOf w) (immU w)⟩,
  ⟨"JAL", 0x0000007F#32, 0x0000006F#32, fun w => .jal (rdOf w) (immJ w)⟩,
  ⟨"JALR", 0x0000707F#32, 0x00000067#32, fun w => .jalr (rdOf w) (rs1Of w) (immI w)⟩]

/-- The BRANCH rows. -/
def branchRows : List Row := [
  ⟨"BEQ", 0x0000707F#32, 0x00000063#32, fun w => .beq (rs1Of w) (rs2Of w) (immB w)⟩,
  ⟨"BNE", 0x0000707F#32, 0x00001063#32, fun w => .bne (rs1Of w) (rs2Of w) (immB w)⟩,
  ⟨"BLT", 0x0000707F#32, 0x00004063#32, fun w => .blt (rs1Of w) (rs2Of w) (immB w)⟩,
  ⟨"BGE", 0x0000707F#32, 0x00005063#32, fun w => .bge (rs1Of w) (rs2Of w) (immB w)⟩,
  ⟨"BLTU", 0x0000707F#32, 0x00006063#32, fun w => .bltu (rs1Of w) (rs2Of w) (immB w)⟩,
  ⟨"BGEU", 0x0000707F#32, 0x00007063#32, fun w => .bgeu (rs1Of w) (rs2Of w) (immB w)⟩]

/-- The LOAD and STORE rows. -/
def loadStoreRows : List Row := [
  ⟨"LB", 0x0000707F#32, 0x00000003#32, fun w => .lb (rdOf w) (rs1Of w) (immI w)⟩,
  ⟨"LH", 0x0000707F#32, 0x00001003#32, fun w => .lh (rdOf w) (rs1Of w) (immI w)⟩,
  ⟨"LW", 0x0000707F#32, 0x00002003#32, fun w => .lw (rdOf w) (rs1Of w) (immI w)⟩,
  ⟨"LBU", 0x0000707F#32, 0x00004003#32, fun w => .lbu (rdOf w) (rs1Of w) (immI w)⟩,
  ⟨"LHU", 0x0000707F#32, 0x00005003#32, fun w => .lhu (rdOf w) (rs1Of w) (immI w)⟩,
  ⟨"SB", 0x0000707F#32, 0x00000023#32, fun w => .sb (rs1Of w) (rs2Of w) (immS w)⟩,
  ⟨"SH", 0x0000707F#32, 0x00001023#32, fun w => .sh (rs1Of w) (rs2Of w) (immS w)⟩,
  ⟨"SW", 0x0000707F#32, 0x00002023#32, fun w => .sw (rs1Of w) (rs2Of w) (immS w)⟩]

/-- The OP-IMM rows. -/
def opImmRows : List Row := [
  ⟨"ADDI", 0x0000707F#32, 0x00000013#32, fun w => .addi (rdOf w) (rs1Of w) (immI w)⟩,
  ⟨"SLTI", 0x0000707F#32, 0x00002013#32, fun w => .slti (rdOf w) (rs1Of w) (immI w)⟩,
  ⟨"SLTIU", 0x0000707F#32, 0x00003013#32, fun w => .sltiu (rdOf w) (rs1Of w) (immI w)⟩,
  ⟨"XORI", 0x0000707F#32, 0x00004013#32, fun w => .xori (rdOf w) (rs1Of w) (immI w)⟩,
  ⟨"ORI", 0x0000707F#32, 0x00006013#32, fun w => .ori (rdOf w) (rs1Of w) (immI w)⟩,
  ⟨"ANDI", 0x0000707F#32, 0x00007013#32, fun w => .andi (rdOf w) (rs1Of w) (immI w)⟩,
  ⟨"SLLI", 0xFE00707F#32, 0x00001013#32, fun w => .slli (rdOf w) (rs1Of w) (shamtOf w)⟩,
  ⟨"SRLI", 0xFE00707F#32, 0x00005013#32, fun w => .srli (rdOf w) (rs1Of w) (shamtOf w)⟩,
  ⟨"SRAI", 0xFE00707F#32, 0x40005013#32, fun w => .srai (rdOf w) (rs1Of w) (shamtOf w)⟩]

/-- The OP rows. -/
def opRows : List Row := [
  ⟨"ADD", 0xFE00707F#32, 0x00000033#32, fun w => .add (rdOf w) (rs1Of w) (rs2Of w)⟩,
  ⟨"SUB", 0xFE00707F#32, 0x40000033#32, fun w => .sub (rdOf w) (rs1Of w) (rs2Of w)⟩,
  ⟨"SLL", 0xFE00707F#32, 0x00001033#32, fun w => .sll (rdOf w) (rs1Of w) (rs2Of w)⟩,
  ⟨"SLT", 0xFE00707F#32, 0x00002033#32, fun w => .slt (rdOf w) (rs1Of w) (rs2Of w)⟩,
  ⟨"SLTU", 0xFE00707F#32, 0x00003033#32, fun w => .sltu (rdOf w) (rs1Of w) (rs2Of w)⟩,
  ⟨"XOR", 0xFE00707F#32, 0x00004033#32, fun w => .xor (rdOf w) (rs1Of w) (rs2Of w)⟩,
  ⟨"SRL", 0xFE00707F#32, 0x00005033#32, fun w => .srl (rdOf w) (rs1Of w) (rs2Of w)⟩,
  ⟨"SRA", 0xFE00707F#32, 0x40005033#32, fun w => .sra (rdOf w) (rs1Of w) (rs2Of w)⟩,
  ⟨"OR", 0xFE00707F#32, 0x00006033#32, fun w => .or (rdOf w) (rs1Of w) (rs2Of w)⟩,
  ⟨"AND", 0xFE00707F#32, 0x00007033#32, fun w => .and (rdOf w) (rs1Of w) (rs2Of w)⟩]

/-- FENCE, the two SYSTEM rows. -/
def fenceAndSystemRows : List Row := [
  ⟨"FENCE", 0x0000707F#32, 0x0000000F#32, fun w => .fence (fmOf w) (predOf w) (succOf w) (rs1Of w) (rdOf w)⟩,
  ⟨"ECALL", 0xFFFFFFFF#32, 0x00000073#32, fun _ => .ecall⟩,
  ⟨"EBREAK", 0xFFFFFFFF#32, 0x00100073#32, fun _ => .ebreak⟩]

/-- The forty rows of `30_encoding.md` rule R89. -/
def fortyRows : List Row :=
  upperAndJumpRows ++ branchRows ++ loadStoreRows ++ opImmRows ++ opRows ++ fenceAndSystemRows

/-- The two named special cases of FENCE (R89): a word that matches one of them also matches FENCE. -/
def fenceSpecialRows : List Row := [
  ⟨"FENCE.TSO", 0xFFF0707F#32, 0x8330000F#32, fun w => .fenceTso (rs1Of w) (rdOf w)⟩,
  ⟨"PAUSE", 0xFFFFFFFF#32, 0x0100000F#32, fun _ => .pause⟩]

/-- The rows in the order the decoder tries them: the special cases of FENCE before FENCE (log entry 19). -/
def opcodeRows : List Row := fenceSpecialRows ++ fortyRows

/-! ## Decoding (`30_encoding.md` rule R95) -/

/-- Why bytes are no instruction. -/
inductive DecodeError where
  /-- The word matches no row: a reserved encoding (R90, R91). -/
  | reserved (w : Word)
  /-- Fewer than the four bytes of an instruction (R71). -/
  | truncated
  deriving DecidableEq, Repr

/-- The instruction of a word, or `reserved`. -/
def decode (w : Word) : Except DecodeError Instr :=
  match opcodeRows.find? (fun r => r.matches w) with
  | some r => .ok (r.build w)
  | none => .error (.reserved w)

/-- The instruction word whose byte at the lowest address is `b0`: little-endian whatever `ENDIAN` is (`20_memory.md` rule R47,
decision D2). -/
def instWord (b0 b1 b2 b3 : Byte) : Word := (b3 ++ b2 ++ b1 ++ b0 : BitVec 32)

/-- The four bytes of an instruction word, lowest address first (`20_memory.md` rule R47). -/
def instBytes (w : Word) : List Byte :=
  [w.extractLsb' 0 8, w.extractLsb' 8 8, w.extractLsb' 16 8, w.extractLsb' 24 8]

/-- Decode the instruction at the head of a list of bytes and give back the rest. -/
def decodeBytes : List Byte → Except DecodeError (Instr × List Byte)
  | b0 :: b1 :: b2 :: b3 :: rest =>
    match decode (instWord b0 b1 b2 b3) with
    | .ok i => .ok (i, rest)
    | .error e => .error e
  | _ => .error .truncated

/-- The instruction the decoder reads from a word whose low `nbits` bits are those of `w` and whose other bits are 0, laid out
in memory order. -/
def decodeTableWord (nbits w : Nat) : Option Instr :=
  match decodeBytes (instBytes (BitVec.ofNat 32 (w % 2 ^ nbits))) with
  | .ok (i, _) => some i
  | .error _ => none

/-! ## Encoding (`30_encoding.md` rules R73 to R78, R85 to R87, R96) -/

/-- R-type (R73), and the shift-immediate form of I (R85). -/
def encodeR (funct7 : BitVec 7) (rs2 : BitVec 5) (rs1 : Reg) (funct3 : BitVec 3) (rd : Reg) (opcode : BitVec 7) : Word :=
  (funct7 ++ rs2 ++ rs1 ++ funct3 ++ rd ++ opcode : BitVec 32)

/-- I-type (R74). -/
def encodeI (imm : Word) (rs1 : Reg) (funct3 : BitVec 3) (rd : Reg) (opcode : BitVec 7) : Word :=
  (imm.extractLsb' 0 12 ++ rs1 ++ funct3 ++ rd ++ opcode : BitVec 32)

/-- S-type (R75). -/
def encodeS (imm : Word) (rs2 rs1 : Reg) (funct3 : BitVec 3) (opcode : BitVec 7) : Word :=
  (imm.extractLsb' 5 7 ++ rs2 ++ rs1 ++ funct3 ++ imm.extractLsb' 0 5 ++ opcode : BitVec 32)

/-- B-type (R76). -/
def encodeB (imm : Word) (rs2 rs1 : Reg) (funct3 : BitVec 3) (opcode : BitVec 7) : Word :=
  (imm.extractLsb' 12 1 ++ imm.extractLsb' 5 6 ++ rs2 ++ rs1 ++ funct3 ++ imm.extractLsb' 1 4 ++ imm.extractLsb' 11 1
    ++ opcode : BitVec 32)

/-- U-type (R77). -/
def encodeU (imm : Word) (rd : Reg) (opcode : BitVec 7) : Word :=
  (imm.extractLsb' 12 20 ++ rd ++ opcode : BitVec 32)

/-- J-type (R78). -/
def encodeJ (imm : Word) (rd : Reg) (opcode : BitVec 7) : Word :=
  (imm.extractLsb' 20 1 ++ imm.extractLsb' 1 10 ++ imm.extractLsb' 11 1 ++ imm.extractLsb' 12 8 ++ rd ++ opcode : BitVec 32)

/-- FENCE (R86). -/
def encodeFence (fm pred succ : BitVec 4) (rs1 rd : Reg) : Word :=
  (fm ++ pred ++ succ ++ rs1 ++ 0b000#3 ++ rd ++ 0b0001111#7 : BitVec 32)

/-- SYSTEM (R87): every bit is fixed but `funct12`. -/
def encodeSystem (funct12 : BitVec 12) : Word :=
  (funct12 ++ 0b00000#5 ++ 0b000#3 ++ 0b00000#5 ++ 0b1110011#7 : BitVec 32)

/-- The word of an instruction (R88, R89, R96). -/
def encode : Instr → Word
  | .lui rd imm => encodeU imm rd 0b0110111#7
  | .auipc rd imm => encodeU imm rd 0b0010111#7
  | .jal rd imm => encodeJ imm rd 0b1101111#7
  | .jalr rd rs1 imm => encodeI imm rs1 0b000#3 rd 0b1100111#7
  | .beq rs1 rs2 imm => encodeB imm rs2 rs1 0b000#3 0b1100011#7
  | .bne rs1 rs2 imm => encodeB imm rs2 rs1 0b001#3 0b1100011#7
  | .blt rs1 rs2 imm => encodeB imm rs2 rs1 0b100#3 0b1100011#7
  | .bge rs1 rs2 imm => encodeB imm rs2 rs1 0b101#3 0b1100011#7
  | .bltu rs1 rs2 imm => encodeB imm rs2 rs1 0b110#3 0b1100011#7
  | .bgeu rs1 rs2 imm => encodeB imm rs2 rs1 0b111#3 0b1100011#7
  | .lb rd rs1 imm => encodeI imm rs1 0b000#3 rd 0b0000011#7
  | .lh rd rs1 imm => encodeI imm rs1 0b001#3 rd 0b0000011#7
  | .lw rd rs1 imm => encodeI imm rs1 0b010#3 rd 0b0000011#7
  | .lbu rd rs1 imm => encodeI imm rs1 0b100#3 rd 0b0000011#7
  | .lhu rd rs1 imm => encodeI imm rs1 0b101#3 rd 0b0000011#7
  | .sb rs1 rs2 imm => encodeS imm rs2 rs1 0b000#3 0b0100011#7
  | .sh rs1 rs2 imm => encodeS imm rs2 rs1 0b001#3 0b0100011#7
  | .sw rs1 rs2 imm => encodeS imm rs2 rs1 0b010#3 0b0100011#7
  | .addi rd rs1 imm => encodeI imm rs1 0b000#3 rd 0b0010011#7
  | .slti rd rs1 imm => encodeI imm rs1 0b010#3 rd 0b0010011#7
  | .sltiu rd rs1 imm => encodeI imm rs1 0b011#3 rd 0b0010011#7
  | .xori rd rs1 imm => encodeI imm rs1 0b100#3 rd 0b0010011#7
  | .ori rd rs1 imm => encodeI imm rs1 0b110#3 rd 0b0010011#7
  | .andi rd rs1 imm => encodeI imm rs1 0b111#3 rd 0b0010011#7
  | .slli rd rs1 shamt => encodeR 0b0000000#7 shamt rs1 0b001#3 rd 0b0010011#7
  | .srli rd rs1 shamt => encodeR 0b0000000#7 shamt rs1 0b101#3 rd 0b0010011#7
  | .srai rd rs1 shamt => encodeR 0b0100000#7 shamt rs1 0b101#3 rd 0b0010011#7
  | .add rd rs1 rs2 => encodeR 0b0000000#7 rs2 rs1 0b000#3 rd 0b0110011#7
  | .sub rd rs1 rs2 => encodeR 0b0100000#7 rs2 rs1 0b000#3 rd 0b0110011#7
  | .sll rd rs1 rs2 => encodeR 0b0000000#7 rs2 rs1 0b001#3 rd 0b0110011#7
  | .slt rd rs1 rs2 => encodeR 0b0000000#7 rs2 rs1 0b010#3 rd 0b0110011#7
  | .sltu rd rs1 rs2 => encodeR 0b0000000#7 rs2 rs1 0b011#3 rd 0b0110011#7
  | .xor rd rs1 rs2 => encodeR 0b0000000#7 rs2 rs1 0b100#3 rd 0b0110011#7
  | .srl rd rs1 rs2 => encodeR 0b0000000#7 rs2 rs1 0b101#3 rd 0b0110011#7
  | .sra rd rs1 rs2 => encodeR 0b0100000#7 rs2 rs1 0b101#3 rd 0b0110011#7
  | .or rd rs1 rs2 => encodeR 0b0000000#7 rs2 rs1 0b110#3 rd 0b0110011#7
  | .and rd rs1 rs2 => encodeR 0b0000000#7 rs2 rs1 0b111#3 rd 0b0110011#7
  | .fence fm pred succ rs1 rd => encodeFence fm pred succ rs1 rd
  | .ecall => encodeSystem 0b000000000000#12
  | .ebreak => encodeSystem 0b000000000001#12
  | .fenceTso rs1 rd => encodeFence 0b1000#4 0b0011#4 0b0011#4 rs1 rd
  | .pause => encodeFence 0b0000#4 0b0001#4 0b0000#4 0b00000#5 0b00000#5

end Sys2Proof
end

