-- ==== Sys2Proof/Config.lean ====
section
/-! DEFINITION. What the ISA leaves to the execution environment interface (EEI): the parameters of `00_scope.md` rule R8 as
types and plain data, their default values (`92_eei_decisions.md`), and the one free value of the model. The parameters are one
record, `Eei`, which `State` carries and which no step changes: a statement about every state is one about every environment. -/

namespace Sys2Proof

/-- Byte order of data accesses, parameter `ENDIAN` (`20_memory.md` rules R43 to R46, decision D1). -/
inductive Endian where
  | little
  | big
  deriving DecidableEq, Repr

/-- The three kinds of access that reach the address space (`20_memory.md` rule R41). -/
inductive AccessKind where
  | fetch
  | load
  | store
  deriving DecidableEq, Repr

/-- The width of an access: 1, 2 or 4 bytes (`20_memory.md` rule R51). -/
inductive Width where
  | byte
  | half
  | word
  deriving DecidableEq, Repr

/-- What a load or store does whose address is not naturally aligned, parameter `MISALIGNED` (`20_memory.md` rule R49, D3). -/
inductive MisalignedPolicy where
  | trap
  | support
  | accessFault
  deriving DecidableEq, Repr

/-- What a reserved encoding does, parameter `RESERVED_INSN` (`30_encoding.md` rule R90, decision D7). -/
inductive ReservedPolicy where
  | illegalInstruction
  | unspecified
  deriving DecidableEq, Repr

/-- `size` consecutive byte addresses from `base`, taken modulo 2^32 (decisions D17, D18). -/
structure Region where
  base : Word
  size : Nat
  deriving DecidableEq, Repr

/-- The nine exceptions of `60_exceptions.md` rule R240. -/
inductive ExceptionId where
  /-- A jump or taken branch to a target that is not a multiple of 4 (R241). -/
  | instructionAddressMisaligned
  /-- A fetch the address map refuses (R242). -/
  | instructionAccessFault
  /-- A reserved encoding (R243). -/
  | illegalInstruction
  /-- A misaligned load under `MISALIGNED = trap` (R244). -/
  | loadAddressMisaligned
  /-- A misaligned store under `MISALIGNED = trap` (R245). -/
  | storeAddressMisaligned
  /-- A load the address map refuses, or a misaligned one under `access_fault` (R246). -/
  | loadAccessFault
  /-- A store the address map refuses, or a misaligned one under `access_fault` (R247). -/
  | storeAccessFault
  /-- ECALL (R248). -/
  | environmentCall
  /-- EBREAK (R249). -/
  | breakpoint
  deriving DecidableEq, Repr

/-- A word the environment finds in the architectural state or in the triple it is handed (`60_exceptions.md` rule R252). -/
inductive EnvExpr where
  /-- A constant. -/
  | const (v : Word)
  /-- The register. -/
  | reg (r : Reg)
  /-- The `pc` of the triple. -/
  | trapPc
  /-- The value of the triple, 0 where it has none. -/
  | trapValue
  /-- The byte of memory at the address, zero-extended. -/
  | byteAt (a : EnvExpr)
  /-- The sum modulo 2^32. -/
  | add (a b : EnvExpr)
  deriving DecidableEq, Repr

/-- A question the environment asks of the architectural state and the triple. -/
inductive EnvTest where
  /-- The exception of the triple is `id`. -/
  | raised (id : ExceptionId)
  /-- The value of the triple is `v`. -/
  | reported (v : Option Word)
  /-- Two words are equal. -/
  | equal (a b : EnvExpr)
  deriving DecidableEq, Repr

/-- The state an environment resumes from, in terms of the state and triple it was handed: register writes, memory writes (an
address and a word whose low byte is stored), and the address where execution goes on. -/
structure ResumePlan where
  regWrites : List (Reg × EnvExpr)
  memWrites : List (EnvExpr × EnvExpr)
  pc : EnvExpr
  deriving DecidableEq, Repr

/-- The parameter `EnvTrap : State × Trap -> State or Stop`, with its part `EnvCall` (`60_exceptions.md` rule R252; decisions D8,
D10, D11), as plain data: a decision tree over the architectural state and the triple. DESIGN CHOICE of the form (log entry 5):
every function of the architectural state and the triple is the function of some tree (`envTrap_expresses_every_function`). -/
inductive EnvTrap where
  | stop
  | resume (p : ResumePlan)
  | choose (t : EnvTest) (yes no : EnvTrap)
  deriving DecidableEq, Repr

/-- One line of the environment's address map: the kinds of access and the widths that are legal inside a region
(`20_memory.md` rule R56: "some addresses might be read only, or support word access only"). -/
structure PmaRegion where
  region : Region
  fetch : Bool
  load : Bool
  store : Bool
  byte : Bool
  half : Bool
  word : Bool
  deriving DecidableEq, Repr

/-- An environment that chooses its misalignment policy per access (`20_memory.md` rule R49, last item): accesses of the kinds
`load`, `store` and the widths `half`, `word` whose address lies in `region` follow `policy` instead of the general one. A byte
access is never misaligned. -/
structure MisalignedRule where
  region : Region
  load : Bool
  store : Bool
  half : Bool
  word : Bool
  policy : MisalignedPolicy
  deriving DecidableEq, Repr

/-- The parameters of `00_scope.md` rule R8 that a step reads. `pma` and `io` are the predicates `Pma` and `IsIO` as finite
lists: an access is legal when one line of `pma` admits all of it, an address is I/O when a region of `io` holds it. -/
structure Eei where
  /-- `ENDIAN`, default `little` (D1). -/
  endian : Endian
  /-- `MISALIGNED` for every access no line of `misalignedRules` takes, default `trap` (D3). -/
  misaligned : MisalignedPolicy
  /-- `MISALIGNED` per access, first matching line; default empty (rule R49). -/
  misalignedRules : List MisalignedRule
  /-- `Pma(addr, n, kind)` (D5). -/
  pma : List PmaRegion
  /-- `IsIO(addr)`, default nowhere (D6). -/
  io : List Region
  /-- `RESERVED_INSN`, default IllegalInstruction (D7). -/
  reservedInsn : ReservedPolicy
  /-- `EnvTrap`, default `Stop` (D8). -/
  envTrap : EnvTrap
  deriving DecidableEq, Repr

/-- FREE VALUE, no body: the byte the launch image, or nothing at all, leaves at an address that the state's memory does not
list (`70_reset_and_hazards.md` rule R281, `93_implementation_defined.md` U19: "any value"; log entry 3). -/
opaque Config.launchByte : Word → Byte

/-- `NHARTS`: the only value the spec supports (`20_memory.md` rule R59, decision D20). -/
def Config.nHarts : Nat := 1

/-- `RESET_PC`, a parameter the spec leaves open and requires to be a multiple of 4 (D19, D28). DESIGN CHOICE (log entry 2):
0x00001000, the address the spec's own programs are loaded at. -/
def Config.resetPc : Word := 0x00001000#32

/-- The address map of the default environment. DESIGN CHOICE (log entry 4): `Pma` has no default (D5); here every access of
every kind and width is legal on all 2^32 addresses. -/
def Config.everywhere : PmaRegion :=
  { region := { base := 0#32, size := 4294967296 },
    fetch := true, load := true, store := true, byte := true, half := true, word := true }

/-- The default environment of `92_eei_decisions.md` (D1, D3, D6, D7, D8), with the address map of log entry 4. -/
def Eei.default : Eei :=
  { endian := .little, misaligned := .trap, misalignedRules := [], pma := [Config.everywhere], io := [],
    reservedInsn := .illegalInstruction, envTrap := .stop }

end Sys2Proof
end

