-- ==== Sys2Proof/Machine/State.lean ====
section
/-! DEFINITION. The state of the hart and its environment as plain data (`10_state.md` rules R20 to R34), the exceptions and the trap
triple (`60_exceptions.md` rule R240), the ways a step stops, and the state after reset. -/

namespace Sys2Proof.Machine

open Sys2Proof

/-- Memory: the bytes the state lists, as (address, byte) pairs (`20_memory.md` rule R40). The canonical form is `Memory.wf`. An
address that is not listed holds no byte of the state's own; what a read of it gives is `readByte` in `Machine/Ops.lean`. -/
structure Memory where
  cells : List Host.Cell
  deriving DecidableEq, Repr

/-- What an instruction's rule raises, `raise E(info)` (`00_scope.md` rule R10): the exception and the value reported with it. -/
structure Raised where
  id : ExceptionId
  value : Option Word
  deriving DecidableEq, Repr

/-- The trap triple handed to the environment: exception, `pc` of the instruction, value (`60_exceptions.md` rules R240, R252). -/
structure Trap where
  id : ExceptionId
  pc : Word
  value : Option Word
  deriving DecidableEq, Repr

/-- The state of the machine; `INVENTORY.md` lists where the spec names each part. -/
structure State where
  /-- `x0` to `x31` (`10_state.md` rule R20). Slot 0 is never written and never read: see `readReg`, `writeReg`. -/
  regs : Vector Word 32
  /-- The address of the current instruction (`10_state.md` rule R25). -/
  pc : Word
  /-- The bytes of memory (`10_state.md` rule R32). -/
  mem : Memory
  /-- The addresses a store of the run has written, strictly rising (`20_memory.md` rule R61). -/
  stored : List Nat
  /-- The environment's parameters (`00_scope.md` rule R8), `EnvTrap` among them, fixed for the run. -/
  cfg : Eei
  /-- The MODEL's own: the trap the environment last resumed from (log entry 7). -/
  reported : Option Trap
  deriving DecidableEq, Repr

/-- Why the machine stops. -/
inductive Fault where
  /-- A trap the environment answers with `Stop`, the default: the run ends, the triple is its outcome and the state is the one
  before the instruction (`60_exceptions.md` rules R252, R253; `70_reset_and_hazards.md` rule R283). Raised by `takeTrap` for every
  instruction. Safe: an environment that goes on is another value of `cfg.envTrap`. -/
  | trap (t : Trap)
  deriving DecidableEq, Repr

/-- What has no meaning. -/
inductive Refusal where
  /-- An arm of `exec` whose instruction has no meaning yet. Raised by `exec` alone. Safe. -/
  | notModelled (mnemonic : String)
  /-- A reserved encoding under `RESERVED_INSN = unspecified` (`60_exceptions.md` rule R243, decision D7). Raised by `step`. Safe:
  nothing is concluded of such a run. -/
  | reservedEncoding (word : Word)
  /-- A fetch of bytes a store of the run has written (`20_memory.md` rule R61, decision D23). Raised by `step`. Safe: nothing is
  concluded of such a run. -/
  | fetchOfStoredBytes (pc : Word)
  /-- A load or store at an address the environment gives to a device, whose behaviour no rule describes (`20_memory.md` rule R55,
  decision D6). Raised by the loads and stores. Safe: nothing is concluded of such a run. -/
  | deviceAccess (kind : AccessKind) (addr : Word)
  deriving DecidableEq, Repr

/-- The launch state of a run (`70_reset_and_hazards.md` rule R281) for any value of its parameters: the environment, `RESET_PC`,
the register values and the launch image. `x0` is 0 whatever `regs` says (`10_state.md` rule R21). -/
def State.launch (cfg : Eei) (resetPc : Word) (regs : Vector Word 32) (image : Memory) : State :=
  { regs := regs.set 0 0#32, pc := resetPc, mem := image, stored := [], cfg := cfg, reported := none }

/-- The machine right after reset: the launch state with the default environment, `RESET_PC` of log entry 2, every register 0
(log entry 1), and nothing of a launch image listed (log entries 3, 17). -/
def State.reset : State :=
  State.launch Eei.default Config.resetPc (Vector.replicate 32 0#32) { cells := [] }

end Sys2Proof.Machine
end

