-- ==== Sys2Proof/Machine/Ops.lean ====
section
/-! DEFINITION. The operations every meaning is made of: registers and `pc`, the environment's predicates, memory and byte order,
`MemRead`, `MemWrite` and `Fetch` (`20_memory.md` rules R52 to R54), and taking a trap (`60_exceptions.md` rule R252) with the
return from one beside it. -/

namespace Sys2Proof.Machine

open Sys2Proof

/-! ## Registers and pc -/

/-- `x[i]` (`10_state.md` rule R21: register 0 reads as zero). -/
def readReg (s : State) (r : Reg) : Word :=
  if r = 0#5 then 0#32 else s.regs[r.toNat]'r.isLt

/-- `x[i] <- v` (`10_state.md` rule R21: a write to register 0 is discarded). -/
def writeReg (s : State) (r : Reg) (v : Word) : State :=
  if r = 0#5 then s else { s with regs := s.regs.set r.toNat v r.isLt }

/-- `pc <- t` (`00_scope.md` rule R10). -/
def setPc (s : State) (t : Word) : State := { s with pc := t }

/-- The address of the next instruction in sequence (`10_state.md` rules R26, R27: modulo 2^32). -/
def nextPc (s : State) : Word := s.pc + 4#32

/-- The sequential advance of `pc` (`10_state.md` rule R26). -/
def advance (s : State) : State := setPc s (nextPc s)

/-- A 32-bit instruction address or data address is a multiple of 4. -/
def isWordAligned (a : Word) : Bool := a.extractLsb' 0 2 == 0#2

/-! ## The environment's predicates -/

/-- The number of bytes of a width (`20_memory.md` rule R51). -/
def widthBytes : Width → Nat
  | .byte => 1
  | .half => 2
  | .word => 4

/-- The address lies in the region, counting from its base modulo 2^32 (decision D18). -/
def regionHolds (r : Region) (a : Word) : Bool := decide ((a - r.base).toNat < r.size)

/-- The addresses of an access, `(ea + i) mod 2^32` (`20_memory.md` rule R52, decision D18). -/
def accessAddrs (ea : Word) (n : Width) : List Word :=
  match n with
  | .byte => [ea]
  | .half => [ea, ea + 1#32]
  | .word => [ea, ea + 1#32, ea + 2#32, ea + 3#32]

/-- The line of the address map names the kind of access. -/
def pmaAdmitsKind (p : PmaRegion) : AccessKind → Bool
  | .fetch => p.fetch
  | .load => p.load
  | .store => p.store

/-- The line of the address map names the width. -/
def pmaAdmitsWidth (p : PmaRegion) : Width → Bool
  | .byte => p.byte
  | .half => p.half
  | .word => p.word

/-- The line of the address map admits the whole access. -/
def pmaAdmits (p : PmaRegion) (ea : Word) (n : Width) (k : AccessKind) : Bool :=
  pmaAdmitsKind p k && pmaAdmitsWidth p n && (accessAddrs ea n).all (fun a => regionHolds p.region a)

/-- `Pma(addr, n, kind)` (`20_memory.md` rule R56). -/
def pmaLegal (c : Eei) (ea : Word) (n : Width) (k : AccessKind) : Bool :=
  c.pma.any (fun p => pmaAdmits p ea n k)

/-- `IsIO(addr)` (`43_memory_ordering.md` rule R201, decision D6). -/
def isIO (c : Eei) (a : Word) : Bool := c.io.any (fun r => regionHolds r a)

/-- Some byte of the access belongs to a device. -/
def touchesIO (c : Eei) (ea : Word) (n : Width) : Bool := (accessAddrs ea n).any (isIO c)

/-- The line of `misalignedRules` names the kind of access. -/
def ruleTakesKind (m : MisalignedRule) : AccessKind → Bool
  | .fetch => false
  | .load => m.load
  | .store => m.store

/-- The line of `misalignedRules` names the width. -/
def ruleTakesWidth (m : MisalignedRule) : Width → Bool
  | .byte => false
  | .half => m.half
  | .word => m.word

/-- The line of `misalignedRules` takes the access. -/
def ruleTakes (m : MisalignedRule) (ea : Word) (n : Width) (k : AccessKind) : Bool :=
  regionHolds m.region ea && ruleTakesWidth m n && ruleTakesKind m k

/-- `MISALIGNED` for an access (`20_memory.md` rule R49: per access, else the general choice). -/
def misalignedPolicy (c : Eei) (ea : Word) (n : Width) (k : AccessKind) : MisalignedPolicy :=
  match c.misalignedRules.find? (fun m => ruleTakes m ea n k) with
  | some m => m.policy
  | none => c.misaligned

/-- `ea mod n == 0` (`20_memory.md` rule R48). -/
def isAligned (ea : Word) : Width → Bool
  | .byte => true
  | .half => ea.extractLsb' 0 1 == 0#1
  | .word => isWordAligned ea

/-! ## Memory -/

/-- The canonical form of a cell list: addresses strictly rising from `lo` and below 2^32. -/
def cellsWf (lo : Nat) : List Host.Cell → Bool
  | [] => true
  | c :: cs => decide (lo ≤ c.1) && decide (c.1 < 4294967296) && cellsWf (c.1 + 1) cs

/-- The canonical form of memory. No entry equals what an unlisted address holds, for that is no byte at all (log entry 3). -/
def Memory.wf (m : Memory) : Bool := cellsWf 0 m.cells

/-- The byte listed for an address, if there is one. -/
def lookupCell (a : Nat) : List Host.Cell → Option Byte
  | [] => none
  | c :: cs => if c.1 = a then some c.2 else lookupCell a cs

/-- List a byte for an address, in place of the one listed before, keeping the addresses rising. -/
def insertCell (a : Nat) (b : Byte) : List Host.Cell → List Host.Cell
  | [] => [(a, b)]
  | c :: cs =>
    if a < c.1 then (a, b) :: c :: cs
    else if a = c.1 then (a, b) :: cs
    else c :: insertCell a b cs

/-- The byte at an address as a read sees it: the listed one, else the launch image's, a free value (`20_memory.md` rule R58,
`93_implementation_defined.md` U19; log entry 3). -/
def readByte (m : Memory) (a : Word) : Byte := (lookupCell a.toNat m.cells).getD (Config.launchByte a)

/-- Store one byte. -/
def writeByte (m : Memory) (a : Word) (b : Byte) : Memory := { cells := insertCell a.toNat b m.cells }

/-- Store bytes at consecutive addresses modulo 2^32, the first at the lowest (`20_memory.md` rule R53). -/
def writeBytes (m : Memory) (a : Word) : List Byte → Memory
  | [] => m
  | b :: bs => writeBytes (writeByte m a b) (a + 1#32) bs

/-- The canonical form of the set of stored addresses. -/
def addrsWf (lo : Nat) : List Nat → Bool
  | [] => true
  | a :: as => decide (lo ≤ a) && decide (a < 4294967296) && addrsWf (a + 1) as

/-- Put an address into the set. -/
def insertAddr (a : Nat) : List Nat → List Nat
  | [] => [a]
  | c :: cs => if a < c then a :: c :: cs else if a = c then c :: cs else c :: insertAddr a cs

/-- Take an address out of the set. -/
def removeAddr (a : Nat) : List Nat → List Nat
  | [] => []
  | c :: cs => if a = c then removeAddr a cs else c :: removeAddr a cs

/-- Mark the addresses of a store (`20_memory.md` rule R61). -/
def markStored (stored : List Nat) : List Word → List Nat
  | [] => stored
  | a :: as => markStored (insertAddr a.toNat stored) as

/-- A store of the run has written the address. -/
def wasStored (s : State) (a : Word) : Bool := s.stored.contains a.toNat

/-! ## Byte order (`20_memory.md` rules R43 to R46) -/

/-- The value of bytes of which the first is the least significant. -/
def joinLittle : List Byte → Word
  | [] => 0#32
  | b :: bs => b.setWidth 32 ||| (joinLittle bs <<< 8)

/-- The low `n` bytes of a value, the least significant first. -/
def splitLittle : Nat → Word → List Byte
  | 0, _ => []
  | n + 1, v => v.setWidth 8 :: splitLittle n (v >>> 8)

/-- The value of the bytes of a load, given in rising address order (rules R44, R45). Bits above the bytes are 0. -/
def joinBytes (e : Endian) (bs : List Byte) : Word :=
  match e with
  | .little => joinLittle bs
  | .big => joinLittle bs.reverse

/-- The bytes a store writes, in rising address order (rules R44, R45). -/
def splitBytes (e : Endian) (n : Width) (v : Word) : List Byte :=
  match e with
  | .little => splitLittle (widthBytes n) v
  | .big => (splitLittle (widthBytes n) v).reverse

/-! ## Traps (`60_exceptions.md` rules R240, R252, R253) -/

/-- What a primitive of rule R10 gives: a value, an exception raised, or no meaning. -/
inductive Result (α : Type) where
  | ok (v : α)
  | raised (e : Raised)
  | refused (r : Refusal)
  deriving DecidableEq, Repr

/-- The registers after the environment's writes. -/
def applyRegWrites (s : State) : List (Reg × Word) → State
  | [] => s
  | w :: ws => applyRegWrites (writeReg s w.1 w.2) ws

/-- Memory after the environment's writes, which are no stores of the run (log entry 13). -/
def applyMemWrites (m : Memory) : List (Word × Byte) → Memory
  | [] => m
  | w :: ws => applyMemWrites (writeByte m w.1 w.2) ws

/-- What an environment that resumes makes of the state: register writes, memory writes, the address where execution goes on, and
nothing else (`60_exceptions.md` rule R252: "the run continues from the state it returns"). -/
structure Resumption where
  regWrites : List (Reg × Word)
  memWrites : List (Word × Byte)
  pc : Word
  deriving DecidableEq, Repr

/-- The word an expression of the environment stands for. -/
def envValue (s : State) (x : Trap) : EnvExpr → Word
  | .const v => v
  | .reg r => readReg s r
  | .trapPc => x.pc
  | .trapValue => x.value.getD 0#32
  | .byteAt a => (readByte s.mem (envValue s x a)).setWidth 32
  | .add a b => envValue s x a + envValue s x b

/-- A test of the environment holds. -/
def envTestHolds (s : State) (x : Trap) : EnvTest → Bool
  | .raised id => decide (x.id = id)
  | .reported v => decide (x.value = v)
  | .equal a b => decide (envValue s x a = envValue s x b)

/-- The leaf of the environment's tree that the state and the triple lead to; none is `Stop`. -/
def chosenPlan (s : State) (x : Trap) : EnvTrap → Option ResumePlan
  | .stop => none
  | .resume p => some p
  | .choose t yes no => if envTestHolds s x t then chosenPlan s x yes else chosenPlan s x no

/-- The plan with its words worked out, all of them in the state the environment was handed. -/
def planResumption (s : State) (x : Trap) (p : ResumePlan) : Resumption :=
  { regWrites := p.regWrites.map (fun w => (w.1, envValue s x w.2))
    memWrites := p.memWrites.map (fun w => (envValue s x w.1, (envValue s x w.2).setWidth 8))
    pc := envValue s x p.pc }

/-- `EnvTrap(state, trap)`, a function of the architectural state and the triple; none is `Stop` (`60_exceptions.md` rule R252). -/
def environmentAnswer (s : State) (x : Trap) : Option Resumption :=
  (chosenPlan s x s.cfg.envTrap).map (planResumption s x)

/-- RETURN FROM A TRAP: the run goes on from the state the environment makes (`60_exceptions.md` rule R252; log entries 5, 7, 13). -/
def resumeFrom (s : State) (x : Trap) (r : Resumption) : State :=
  let s1 := applyRegWrites s r.regWrites
  { s1 with pc := r.pc, mem := applyMemWrites s1.mem r.memWrites, reported := some x }

/-- The triple handed to the environment: its `pc` is the raising instruction's (`60_exceptions.md` rule R252). -/
def trapOf (s : State) (e : Raised) : Trap := { id := e.id, pc := s.pc, value := e.value }

/-- TAKE A TRAP. The instruction has had no effect (rule R253), no state is saved (rule R252), and the environment gets the
triple: it stops the run, which is what the default one does (decision D8), or resumes it. -/
def takeTrap (s : State) (e : Raised) : Host.Outcome State Fault Refusal :=
  match environmentAnswer s (trapOf s e) with
  | some r => .next (resumeFrom s (trapOf s e) r)
  | none => .fault (.trap (trapOf s e))

/-- Go on with the value of a primitive, or take the trap it raised, or stop with its refusal. -/
def andThen {α : Type} (s : State) (r : Result α) (k : α → Host.Outcome State Fault Refusal) :
    Host.Outcome State Fault Refusal :=
  match r with
  | .ok v => k v
  | .raised e => takeTrap s e
  | .refused x => .refused x

/-! ## MemRead, MemWrite, Fetch -/

/-- The address-misaligned exception of a kind of access (rules R241, R244, R245). -/
def misalignedId : AccessKind → ExceptionId
  | .fetch => .instructionAddressMisaligned
  | .load => .loadAddressMisaligned
  | .store => .storeAddressMisaligned

/-- The access-fault exception of a kind of access (rules R242, R246, R247). -/
def accessFaultId : AccessKind → ExceptionId
  | .fetch => .instructionAccessFault
  | .load => .loadAccessFault
  | .store => .storeAccessFault

/-- The `Pma` check of a data access and, where the environment has devices, the refusal of one (decisions D5, D6). -/
def checkLegal (c : Eei) (ea : Word) (n : Width) (k : AccessKind) : Result Unit :=
  if pmaLegal c ea n k then
    if touchesIO c ea n then .refused (.deviceAccess k ea) else .ok ()
  else .raised { id := accessFaultId k, value := some ea }

/-- The checks of a data access, alignment before `Pma` (`20_memory.md` rules R52, R53; `60_exceptions.md` rule R251). -/
def checkAccess (c : Eei) (ea : Word) (n : Width) (k : AccessKind) : Result Unit :=
  if isAligned ea n then checkLegal c ea n k
  else match misalignedPolicy c ea n k with
    | .trap => .raised { id := misalignedId k, value := some ea }
    | .accessFault => .raised { id := accessFaultId k, value := some ea }
    | .support => checkLegal c ea n k

/-- The value of the bytes at an address, by the environment's byte order. -/
def loadValue (s : State) (ea : Word) (n : Width) : Word :=
  joinBytes s.cfg.endian ((accessAddrs ea n).map (readByte s.mem))

/-- `MemRead(ea, n)` (`20_memory.md` rule R52): the `8n`-bit value in the low bits, 0 above. -/
def memRead (s : State) (ea : Word) (n : Width) : Result Word :=
  match checkAccess s.cfg ea n .load with
  | .ok _ => .ok (loadValue s ea n)
  | .raised e => .raised e
  | .refused r => .refused r

/-- The state after the bytes of a store are written and marked (`20_memory.md` rules R53, R61). -/
def storeValue (s : State) (ea : Word) (n : Width) (v : Word) : State :=
  { s with
    mem := writeBytes s.mem ea (splitBytes s.cfg.endian n v)
    stored := markStored s.stored (accessAddrs ea n) }

/-- `MemWrite(ea, n, v)` (`20_memory.md` rule R53): the low `8n` bits of `v`; a store that raises writes no byte. -/
def memWrite (s : State) (ea : Word) (n : Width) (v : Word) : Result State :=
  match checkAccess s.cfg ea n .store with
  | .ok _ => .ok (storeValue s ea n v)
  | .raised e => .raised e
  | .refused r => .refused r

/-- The word in the four bytes at an address, as an instruction (`20_memory.md` rule R47). -/
def instAt (m : Memory) (a : Word) : Word :=
  instWord (readByte m a) (readByte m (a + 1#32)) (readByte m (a + 2#32)) (readByte m (a + 3#32))

/-- `Fetch(pc)` (`20_memory.md` rule R54), with the refusal of bytes a store of the run has written (rule R61). -/
def fetch (s : State) : Result Word :=
  if pmaLegal s.cfg s.pc .word .fetch then
    if (accessAddrs s.pc .word).any (wasStored s) then .refused (.fetchOfStoredBytes s.pc)
    else .ok (instAt s.mem s.pc)
  else .raised { id := accessFaultId .fetch, value := some s.pc }

/-- A reserved encoding at `pc` (`60_exceptions.md` rule R243; `RESERVED_INSN`, decision D7). -/
def reservedInstruction (s : State) (w : Word) : Host.Outcome State Fault Refusal :=
  match s.cfg.reservedInsn with
  | .illegalInstruction => takeTrap s { id := .illegalInstruction, value := some w }
  | .unspecified => .refused (.reservedEncoding w)

/-! ## Loading an instruction from outside -/

/-- The marks of `stored` without the given addresses. -/
def unmark (stored : List Nat) : List Word → List Nat
  | [] => stored
  | a :: as => unmark (removeAddr a.toNat stored) as

/-- An address map that admits the fetch at `a`: the given one where it does, else with one line more. -/
def admitFetchAt (c : Eei) (a : Word) : Eei :=
  if pmaLegal c a .word .fetch then c
  else { c with pma :=
    { region := { base := a, size := 4 }, fetch := true, load := false, store := false,
      byte := false, half := false, word := true } :: c.pma }

/-- The state with an instruction word loaded at `pc`, as part of the launch image (log entry 17). -/
def placeInstruction (s : State) (w : Word) : State :=
  { s with
    mem := writeBytes s.mem s.pc (instBytes w)
    stored := unmark s.stored (accessAddrs s.pc .word)
    cfg := admitFetchAt s.cfg s.pc }

end Sys2Proof.Machine
end

