-- ==== Sys2Proof/Machine/Flags.lean ====
section
/-! DEFINITION. RV32I has no flags (`10_state.md` rule R29). What takes their place: the comparisons, whose result is 0 or 1 in a
register or the condition of a branch (`40_integer_computational.md` rule R108; `41_control_transfer.md` rules R158 to R163). -/

namespace Sys2Proof.Machine

open Sys2Proof

/-- The 32-bit value 1 or 0 (`40_integer_computational.md` rule R108). -/
def boolWord (b : Bool) : Word := if b then 1#32 else 0#32

/-- `a <s b`: `s(a) < s(b)` (`00_scope.md` rule R10). -/
def ltSigned (a b : Word) : Bool := decide (a.toInt < b.toInt)

/-- `a <u b`: `u(a) < u(b)` (`00_scope.md` rule R10). -/
def ltUnsigned (a b : Word) : Bool := decide (a.toNat < b.toNat)

/-- `a == b` (`41_control_transfer.md` rule R158). -/
def condEq (a b : Word) : Bool := decide (a = b)

/-- `a != b` (`41_control_transfer.md` rule R159). -/
def condNe (a b : Word) : Bool := !condEq a b

/-- `a >=s b`, the exact negation of `a <s b` (`41_control_transfer.md` rule R161). -/
def geSigned (a b : Word) : Bool := !ltSigned a b

/-- `a >=u b`, the exact negation of `a <u b` (`41_control_transfer.md` rule R163). -/
def geUnsigned (a b : Word) : Bool := !ltUnsigned a b

end Sys2Proof.Machine
end

