-- ==== Sys2Proof/Machine/Operands.lean ====
section
/-! DEFINITION. The operand forms: the one addressing mode (`20_memory.md` rule R42), the shift amount and the three shifts
(`40_integer_computational.md` rule R109), the targets of jumps and branches (`41_control_transfer.md` rules R152 to R157), and the
shapes the families share. -/

namespace Sys2Proof.Machine

open Sys2Proof

/-- `ea = x[rs1] + imm` modulo 2^32 (`20_memory.md` rule R42). -/
def effectiveAddr (s : State) (rs1 : Reg) (imm : Word) : Word := readReg s rs1 + imm

/-- The shift amount in a register: its lower 5 bits (`40_integer_computational.md` rule R109). -/
def shiftAmount (v : Word) : BitVec 5 := v.extractLsb' 0 5

/-- `a << n`, filling with zeros. -/
def shiftLeft (a : Word) (n : BitVec 5) : Word := a <<< n.toNat

/-- `a >>u n`, filling with zeros. -/
def shiftRightLogical (a : Word) (n : BitVec 5) : Word := a >>> n.toNat

/-- `a >>s n`, filling with copies of bit 31. -/
def shiftRightArith (a : Word) (n : BitVec 5) : Word := a.sshiftRight n.toNat

/-- The target of JAL and of a taken branch, `pc + imm` (`41_control_transfer.md` rules R153, R157). -/
def pcTarget (s : State) (imm : Word) : Word := s.pc + imm

/-- The target of JALR: the sum with bit 0 set to zero (`41_control_transfer.md` rule R154). -/
def jalrTarget (s : State) (rs1 : Reg) (imm : Word) : Word := (readReg s rs1 + imm) &&& 0xFFFFFFFE#32

/-- An integer computational instruction: write `rd`, go on at `pc + 4` (`40_integer_computational.md` rule R105). -/
def writeResult (s : State) (rd : Reg) (v : Word) : Host.Outcome State Fault Refusal :=
  .next (advance (writeReg s rd v))

/-- Go to `target` in the state `linked`, or raise the misaligned-target exception with nothing changed
(`41_control_transfer.md` rule R152). -/
def transferTo (s : State) (target : Word) (linked : State) : Host.Outcome State Fault Refusal :=
  if isWordAligned target then .next (setPc linked target)
  else takeTrap s { id := misalignedId .fetch, value := some target }

/-- A conditional branch (`41_control_transfer.md` rule R157). -/
def branchIf (s : State) (taken : Bool) (imm : Word) : Host.Outcome State Fault Refusal :=
  if taken then transferTo s (pcTarget s imm) s else .next (advance s)

/-- A load: `MemRead`, then `rd` gets what `extend` makes of the value (`42_load_store.md` rules R180 to R185, R189). -/
def loadWith (s : State) (rd rs1 : Reg) (imm : Word) (n : Width) (extend : Word → Word) : Host.Outcome State Fault Refusal :=
  andThen s (memRead s (effectiveAddr s rs1 imm) n) (fun v => writeResult s rd (extend v))

/-- A store: `MemWrite` of `x[rs2]`, then on to `pc + 4` (`42_load_store.md` rules R180, R186 to R188). -/
def storeWith (s : State) (rs1 rs2 : Reg) (imm : Word) (n : Width) : Host.Outcome State Fault Refusal :=
  andThen s (memWrite s (effectiveAddr s rs1 imm) n (readReg s rs2)) (fun t => .next (advance t))

/-- `sext_8` of the low byte (`00_scope.md` rule R10). -/
def signExtend8 (v : Word) : Word := (v.setWidth 8).signExtend 32

/-- `sext_16` of the low half. -/
def signExtend16 (v : Word) : Word := (v.setWidth 16).signExtend 32

/-- `zext_8` of the low byte. -/
def zeroExtend8 (v : Word) : Word := (v.setWidth 8).setWidth 32

/-- `zext_16` of the low half. -/
def zeroExtend16 (v : Word) : Word := (v.setWidth 16).setWidth 32

end Sys2Proof.Machine
end

