-- ==== Sys2Proof/Machine/Control.lean ====
section
/-! DEFINITION. The control transfer instructions (`41_control_transfer.md`): JAL, JALR and the six conditional branches. -/

namespace Sys2Proof.Machine

open Sys2Proof

/-- JAL (R153). -/
def execJal (rd : Reg) (imm : Word) (s : State) : Host.Outcome State Fault Refusal :=
  transferTo s (pcTarget s imm) (writeReg s rd (nextPc s))

/-- JALR (R154): the target uses the old value of `rs1`. -/
def execJalr (rd rs1 : Reg) (imm : Word) (s : State) : Host.Outcome State Fault Refusal :=
  transferTo s (jalrTarget s rs1 imm) (writeReg s rd (nextPc s))

/-- BEQ (R158). -/
def execBeq (rs1 rs2 : Reg) (imm : Word) (s : State) : Host.Outcome State Fault Refusal :=
  branchIf s (condEq (readReg s rs1) (readReg s rs2)) imm

/-- BNE (R159). -/
def execBne (rs1 rs2 : Reg) (imm : Word) (s : State) : Host.Outcome State Fault Refusal :=
  branchIf s (condNe (readReg s rs1) (readReg s rs2)) imm

/-- BLT (R160). -/
def execBlt (rs1 rs2 : Reg) (imm : Word) (s : State) : Host.Outcome State Fault Refusal :=
  branchIf s (ltSigned (readReg s rs1) (readReg s rs2)) imm

/-- BGE (R161). -/
def execBge (rs1 rs2 : Reg) (imm : Word) (s : State) : Host.Outcome State Fault Refusal :=
  branchIf s (geSigned (readReg s rs1) (readReg s rs2)) imm

/-- BLTU (R162). -/
def execBltu (rs1 rs2 : Reg) (imm : Word) (s : State) : Host.Outcome State Fault Refusal :=
  branchIf s (ltUnsigned (readReg s rs1) (readReg s rs2)) imm

/-- BGEU (R163). -/
def execBgeu (rs1 rs2 : Reg) (imm : Word) (s : State) : Host.Outcome State Fault Refusal :=
  branchIf s (geUnsigned (readReg s rs1) (readReg s rs2)) imm

end Sys2Proof.Machine
end

