-- ==== Sys2Proof/Machine/Fence.lean ====
section
/-! DEFINITION. FENCE, FENCE.TSO and PAUSE (`43_memory_ordering.md`; `45_hints.md` rule R231). With one hart and no other agent a
fence of any field values changes nothing but `pc` (rule R203, decision D22). What it orders as others see it (rules R201, R202, R204,
R205) is the function `fenceOrders`, for statements about the instruction; no step reads it (log entry 16). -/

namespace Sys2Proof.Machine

open Sys2Proof

/-- The four classes of operation a FENCE orders (`43_memory_ordering.md` rule R201). -/
inductive AccessClass where
  | input
  | output
  | read
  | write
  deriving DecidableEq, Repr

/-- The two fence modes a base implementation tells apart (`43_memory_ordering.md` rule R203). -/
inductive FenceMode where
  | normal
  | tso
  deriving DecidableEq, Repr

/-- The class of an access by this hart at an address; a fetch is in none (`43_memory_ordering.md` rule R201). -/
def accessClass (c : Eei) (k : AccessKind) (a : Word) : Option AccessClass :=
  match k with
  | .fetch => none
  | .load => some (if isIO c a then .input else .read)
  | .store => some (if isIO c a then .output else .write)

/-- Membership in a set written I, O, R, W from bit 3 to bit 0 (`30_encoding.md` rule R86). -/
def setHas (set : BitVec 4) : AccessClass → Bool
  | .input => set.getLsbD 3
  | .output => set.getLsbD 2
  | .read => set.getLsbD 1
  | .write => set.getLsbD 0

/-- The mode a base implementation executes: TSO for the one setting RW, RW; every reserved setting is a normal fence
(`43_memory_ordering.md` rule R205). -/
def fenceMode (fm pred succ : BitVec 4) : FenceMode :=
  if isTsoFence fm pred succ then .tso else .normal

/-- A fence guarantees that no other agent observes a later access of class `b` before an earlier one of class `a`
(`43_memory_ordering.md` rules R202, R204: TSO leaves the pair of a store before and a load after unordered). -/
def fenceOrders (fm pred succ : BitVec 4) (a b : AccessClass) : Bool :=
  match fenceMode fm pred succ with
  | .normal => setHas pred a && setHas succ b
  | .tso => setHas pred a && setHas succ b && !(a == .write && b == .read)

/-- FENCE (R203, R205): `rs1` and `rd` are ignored, every field value executes. -/
def execFence (_fm _pred _succ : BitVec 4) (_rs1 _rd : Reg) (s : State) : Host.Outcome State Fault Refusal :=
  .next (advance s)

/-- FENCE.TSO (R204). -/
def execFenceTso (_rs1 _rd : Reg) (s : State) : Host.Outcome State Fault Refusal :=
  .next (advance s)

/-- PAUSE (`45_hints.md` rule R231): a HINT with no architectural effect. -/
def execPause (s : State) : Host.Outcome State Fault Refusal :=
  .next (advance s)

end Sys2Proof.Machine
end

