-- ==== Sys2Proof/Machine/Integer.lean ====
section
/-! DEFINITION. The integer computational instructions (`40_integer_computational.md`): register-immediate, LUI and AUIPC,
register-register. None raises an exception (rule R106). -/

namespace Sys2Proof.Machine

open Sys2Proof

/-- ADDI (R113). -/
def execAddi (rd rs1 : Reg) (imm : Word) (s : State) : Host.Outcome State Fault Refusal :=
  writeResult s rd (readReg s rs1 + imm)

/-- SLTI (R114). -/
def execSlti (rd rs1 : Reg) (imm : Word) (s : State) : Host.Outcome State Fault Refusal :=
  writeResult s rd (boolWord (ltSigned (readReg s rs1) imm))

/-- SLTIU (R115): the sign-extended immediate read as unsigned. -/
def execSltiu (rd rs1 : Reg) (imm : Word) (s : State) : Host.Outcome State Fault Refusal :=
  writeResult s rd (boolWord (ltUnsigned (readReg s rs1) imm))

/-- XORI (R116). -/
def execXori (rd rs1 : Reg) (imm : Word) (s : State) : Host.Outcome State Fault Refusal :=
  writeResult s rd (readReg s rs1 ^^^ imm)

/-- ORI (R117). -/
def execOri (rd rs1 : Reg) (imm : Word) (s : State) : Host.Outcome State Fault Refusal :=
  writeResult s rd (readReg s rs1 ||| imm)

/-- ANDI (R118). -/
def execAndi (rd rs1 : Reg) (imm : Word) (s : State) : Host.Outcome State Fault Refusal :=
  writeResult s rd (readReg s rs1 &&& imm)

/-- SLLI (R119). -/
def execSlli (rd rs1 : Reg) (shamt : BitVec 5) (s : State) : Host.Outcome State Fault Refusal :=
  writeResult s rd (shiftLeft (readReg s rs1) shamt)

/-- SRLI (R120). -/
def execSrli (rd rs1 : Reg) (shamt : BitVec 5) (s : State) : Host.Outcome State Fault Refusal :=
  writeResult s rd (shiftRightLogical (readReg s rs1) shamt)

/-- SRAI (R121). -/
def execSrai (rd rs1 : Reg) (shamt : BitVec 5) (s : State) : Host.Outcome State Fault Refusal :=
  writeResult s rd (shiftRightArith (readReg s rs1) shamt)

/-- LUI (R110). -/
def execLui (rd : Reg) (imm : Word) (s : State) : Host.Outcome State Fault Refusal :=
  writeResult s rd imm

/-- AUIPC (R111): `pc` is the address of the AUIPC itself. -/
def execAuipc (rd : Reg) (imm : Word) (s : State) : Host.Outcome State Fault Refusal :=
  writeResult s rd (s.pc + imm)

/-- ADD (R123). -/
def execAdd (rd rs1 rs2 : Reg) (s : State) : Host.Outcome State Fault Refusal :=
  writeResult s rd (readReg s rs1 + readReg s rs2)

/-- SUB (R124). -/
def execSub (rd rs1 rs2 : Reg) (s : State) : Host.Outcome State Fault Refusal :=
  writeResult s rd (readReg s rs1 - readReg s rs2)

/-- SLL (R125). -/
def execSll (rd rs1 rs2 : Reg) (s : State) : Host.Outcome State Fault Refusal :=
  writeResult s rd (shiftLeft (readReg s rs1) (shiftAmount (readReg s rs2)))

/-- SLT (R126). -/
def execSlt (rd rs1 rs2 : Reg) (s : State) : Host.Outcome State Fault Refusal :=
  writeResult s rd (boolWord (ltSigned (readReg s rs1) (readReg s rs2)))

/-- SLTU (R127). -/
def execSltu (rd rs1 rs2 : Reg) (s : State) : Host.Outcome State Fault Refusal :=
  writeResult s rd (boolWord (ltUnsigned (readReg s rs1) (readReg s rs2)))

/-- XOR (R128). -/
def execXor (rd rs1 rs2 : Reg) (s : State) : Host.Outcome State Fault Refusal :=
  writeResult s rd (readReg s rs1 ^^^ readReg s rs2)

/-- SRL (R129). -/
def execSrl (rd rs1 rs2 : Reg) (s : State) : Host.Outcome State Fault Refusal :=
  writeResult s rd (shiftRightLogical (readReg s rs1) (shiftAmount (readReg s rs2)))

/-- SRA (R130). -/
def execSra (rd rs1 rs2 : Reg) (s : State) : Host.Outcome State Fault Refusal :=
  writeResult s rd (shiftRightArith (readReg s rs1) (shiftAmount (readReg s rs2)))

/-- OR (R131). -/
def execOr (rd rs1 rs2 : Reg) (s : State) : Host.Outcome State Fault Refusal :=
  writeResult s rd (readReg s rs1 ||| readReg s rs2)

/-- AND (R132). -/
def execAnd (rd rs1 rs2 : Reg) (s : State) : Host.Outcome State Fault Refusal :=
  writeResult s rd (readReg s rs1 &&& readReg s rs2)

end Sys2Proof.Machine
end

