-- ==== Sys2Proof/Machine/LoadStore.lean ====
section
/-! DEFINITION. The loads and stores (`42_load_store.md`). -/

namespace Sys2Proof.Machine

open Sys2Proof

/-- LB (R181). -/
def execLb (rd rs1 : Reg) (imm : Word) (s : State) : Host.Outcome State Fault Refusal :=
  loadWith s rd rs1 imm .byte signExtend8

/-- LH (R182). -/
def execLh (rd rs1 : Reg) (imm : Word) (s : State) : Host.Outcome State Fault Refusal :=
  loadWith s rd rs1 imm .half signExtend16

/-- LW (R183). -/
def execLw (rd rs1 : Reg) (imm : Word) (s : State) : Host.Outcome State Fault Refusal :=
  loadWith s rd rs1 imm .word id

/-- LBU (R184). -/
def execLbu (rd rs1 : Reg) (imm : Word) (s : State) : Host.Outcome State Fault Refusal :=
  loadWith s rd rs1 imm .byte zeroExtend8

/-- LHU (R185). -/
def execLhu (rd rs1 : Reg) (imm : Word) (s : State) : Host.Outcome State Fault Refusal :=
  loadWith s rd rs1 imm .half zeroExtend16

/-- SB (R186). -/
def execSb (rs1 rs2 : Reg) (imm : Word) (s : State) : Host.Outcome State Fault Refusal :=
  storeWith s rs1 rs2 imm .byte

/-- SH (R187). -/
def execSh (rs1 rs2 : Reg) (imm : Word) (s : State) : Host.Outcome State Fault Refusal :=
  storeWith s rs1 rs2 imm .half

/-- SW (R188). -/
def execSw (rs1 rs2 : Reg) (imm : Word) (s : State) : Host.Outcome State Fault Refusal :=
  storeWith s rs1 rs2 imm .word

end Sys2Proof.Machine
end

