-- ==== Sys2Proof/Machine/System.lean ====
section
/-! DEFINITION. ECALL and EBREAK (`44_system.md`): precise requested traps to the execution environment. -/

namespace Sys2Proof.Machine

open Sys2Proof

/-- ECALL (R216): raise EnvironmentCall, with no value (`60_exceptions.md` rule R248). -/
def execEcall (s : State) : Host.Outcome State Fault Refusal :=
  takeTrap s { id := .environmentCall, value := none }

/-- EBREAK (R217): raise Breakpoint, reporting its own address (`60_exceptions.md` rule R249). -/
def execEbreak (s : State) : Host.Outcome State Fault Refusal :=
  takeTrap s { id := .breakpoint, value := some s.pc }

end Sys2Proof.Machine
end

