-- ==== Sys2Proof/Machine/Step.lean ====
section
/-! DEFINITION. One step of the hart (`00_scope.md` rule R12; `60_exceptions.md` rule R251: fetch, decode, execute), and the state
with an instruction loaded where the step fetches. -/

namespace Sys2Proof.Machine

open Sys2Proof

/-- Decode a fetched word and execute it, or take the reserved-encoding behaviour. -/
def runWord (s : State) (w : Word) : Host.Outcome State Fault Refusal :=
  match decode w with
  | .ok i => exec i s
  | .error _ => reservedInstruction s w

/-- One step (`00_scope.md` rule R12). -/
def step (s : State) : Host.Outcome State Fault Refusal :=
  andThen s (fetch s) (runWord s)

/-- The state with the instruction whose low `nbits` bits are those of `w`, and whose other bits are 0, loaded at `pc`: its bytes
in memory, unmarked, and admitted by the address map (log entry 17). -/
def State.withFetchWord (s : State) (nbits w : Nat) : State :=
  placeInstruction s (BitVec.ofNat 32 (w % 2 ^ nbits))

end Sys2Proof.Machine
end

