-- ==== Sys2Proof/Machine/Hints.lean ====
section
/-! DEFINITION. The HINT code points of Table 5 (`45_hints.md` rules R225 to R233). A HINT is executed by its instruction's own
rule (rule R226), so no step reads this classification: it is what statements about HINTs are made with. -/

namespace Sys2Proof.Machine

open Sys2Proof

/-- The purposes of Table 5 (`45_hints.md` rule R228). -/
inductive HintKind where
  | standard
  | custom
  | ntlP1
  | ntlPall
  | ntlS1
  | ntlAll
  | pause
  deriving DecidableEq, Repr

/-- The purpose of a code point with `rd = x0`, none with another `rd`. -/
def hintWhenX0 (rd : Reg) (k : HintKind) : Option HintKind := if rd = 0#5 then some k else none

/-- The ADD rows of Table 5: `rs1` not x0, or `rs1 = x0` and `rs2` outside x2 to x5, or one of the four NTL points (R230). -/
def addHint (rs1 rs2 : Reg) : HintKind :=
  if rs1 = 0#5 then
    if rs2 = 2#5 then .ntlP1
    else if rs2 = 3#5 then .ntlPall
    else if rs2 = 4#5 then .ntlS1
    else if rs2 = 5#5 then .ntlAll
    else .standard
  else .standard

/-- The FENCE rows of Table 5: `fm = 0`, an empty set, and `rd = x0` or `rs1 = x0`; PAUSE is one of their words (R231). -/
def fenceHint (fm pred succ : BitVec 4) (rs1 rd : Reg) : Option HintKind :=
  if isPauseFence fm pred succ rs1 rd then some .pause
  else if fm = 0#4 ∧ (pred = 0#4 ∨ succ = 0#4) ∧ (rd = 0#5 ∨ rs1 = 0#5) then some .standard
  else none

/-- The row of Table 5 an instruction is a code point of (R228); the canonical NOP is in none (R232). -/
def hintKind : Instr → Option HintKind
  | .lui rd _ => hintWhenX0 rd .standard
  | .auipc rd _ => hintWhenX0 rd .standard
  | .addi rd rs1 imm => if rs1 = 0#5 ∧ imm = 0#32 then none else hintWhenX0 rd .standard
  | .andi rd _ _ => hintWhenX0 rd .standard
  | .ori rd _ _ => hintWhenX0 rd .standard
  | .xori rd _ _ => hintWhenX0 rd .standard
  | .add rd rs1 rs2 => hintWhenX0 rd (addHint rs1 rs2)
  | .sub rd _ _ => hintWhenX0 rd .standard
  | .and rd _ _ => hintWhenX0 rd .standard
  | .or rd _ _ => hintWhenX0 rd .standard
  | .xor rd _ _ => hintWhenX0 rd .standard
  | .sll rd _ _ => hintWhenX0 rd .standard
  | .srl rd _ _ => hintWhenX0 rd .standard
  | .sra rd _ _ => hintWhenX0 rd .standard
  | .fence fm pred succ rs1 rd => fenceHint fm pred succ rs1 rd
  | .pause => some .pause
  | .slti rd _ _ => hintWhenX0 rd .custom
  | .sltiu rd _ _ => hintWhenX0 rd .custom
  | .slli rd _ _ => hintWhenX0 rd .custom
  | .srli rd _ _ => hintWhenX0 rd .custom
  | .srai rd _ _ => hintWhenX0 rd .custom
  | .slt rd _ _ => hintWhenX0 rd .custom
  | .sltu rd _ _ => hintWhenX0 rd .custom
  | .jal _ _ | .jalr _ _ _ => none
  | .beq _ _ _ | .bne _ _ _ | .blt _ _ _ | .bge _ _ _ | .bltu _ _ _ | .bgeu _ _ _ => none
  | .lb _ _ _ | .lh _ _ _ | .lw _ _ _ | .lbu _ _ _ | .lhu _ _ _ => none
  | .sb _ _ _ | .sh _ _ _ | .sw _ _ _ => none
  | .ecall | .ebreak => none
  | .fenceTso _ _ => none

end Sys2Proof.Machine
end

