-- ==== Sys2Proof/Machine/Pseudo.lean ====
section
/-! DEFINITION. The pseudoinstructions: each is one encoding of a real instruction, named by the sources (`30_encoding.md` rule
R98) or by common listings (rule R99, "from general knowledge"). None adds an encoding. -/

namespace Sys2Proof.Machine

open Sys2Proof

/-- `nop` (`40_integer_computational.md` rule R134). -/
def pseudoNop : Instr := .addi 0#5 0#5 0#32
/-- `mv rd, rs1`. -/
def pseudoMv (rd rs1 : Reg) : Instr := .addi rd rs1 0#32
/-- `seqz rd, rs`. -/
def pseudoSeqz (rd rs : Reg) : Instr := .sltiu rd rs 1#32
/-- `not rd, rs`. -/
def pseudoNot (rd rs : Reg) : Instr := .xori rd rs 0xFFFFFFFF#32
/-- `snez rd, rs`. -/
def pseudoSnez (rd rs : Reg) : Instr := .sltu rd 0#5 rs
/-- `j offset`. -/
def pseudoJ (imm : Word) : Instr := .jal 0#5 imm
/-- `bgt rs, rt, offset`. -/
def pseudoBgt (rs rt : Reg) (imm : Word) : Instr := .blt rt rs imm
/-- `bgtu rs, rt, offset`. -/
def pseudoBgtu (rs rt : Reg) (imm : Word) : Instr := .bltu rt rs imm
/-- `ble rs, rt, offset`. -/
def pseudoBle (rs rt : Reg) (imm : Word) : Instr := .bge rt rs imm
/-- `bleu rs, rt, offset`. -/
def pseudoBleu (rs rt : Reg) (imm : Word) : Instr := .bgeu rt rs imm
/-- `ntl.p1`, `ntl.pall`, `ntl.s1`, `ntl.all` (`45_hints.md` rule R230). -/
def pseudoNtlP1 : Instr := .add 0#5 0#5 2#5
def pseudoNtlPall : Instr := .add 0#5 0#5 3#5
def pseudoNtlS1 : Instr := .add 0#5 0#5 4#5
def pseudoNtlAll : Instr := .add 0#5 0#5 5#5

/-- `ret` (R99). -/
def pseudoRet : Instr := .jalr 0#5 1#5 0#32
/-- `jr rs` (R99). -/
def pseudoJr (rs : Reg) : Instr := .jalr 0#5 rs 0#32
/-- `beqz rs, offset` (R99). -/
def pseudoBeqz (rs : Reg) (imm : Word) : Instr := .beq rs 0#5 imm
/-- `bnez rs, offset` (R99). -/
def pseudoBnez (rs : Reg) (imm : Word) : Instr := .bne rs 0#5 imm
/-- `neg rd, rs` (R99). -/
def pseudoNeg (rd rs : Reg) : Instr := .sub rd 0#5 rs
/-- `fence` with no operand (R99). -/
def pseudoFence : Instr := .fence 0#4 15#4 15#4 0#5 0#5

/-- The low part of a constant, sign-extended from 12 bits (R99; `40_integer_computational.md` rule R110). -/
def loadImmediateLow (v : Word) : Word := (v.setWidth 12).signExtend 32

/-- `li rd, v`: one ADDI where the constant fits, else LUI and ADDI (R99). -/
def pseudoLi (rd : Reg) (v : Word) : List Instr :=
  if loadImmediateLow v = v then [.addi rd 0#5 v]
  else [.lui rd (v - loadImmediateLow v), .addi rd rd (loadImmediateLow v)]

end Sys2Proof.Machine
end

