-- ==== Sys2Proof/Safety.lean ====
section
/-! DEFINITION. What statements about the machine are made of: the byte at an address, what two states share, what an instruction
may change, when a data access is legal, and the invariant every run keeps. -/

namespace Sys2Proof.Machine

open Sys2Proof

/-- The byte a read of an address gives. -/
def byteAt (s : State) (a : Word) : Byte := readByte s.mem a

/-- Every byte of memory, and the marks of stored bytes, are the same. -/
def SameMemory (s t : State) : Prop :=
  (∀ a : Word, byteAt t a = byteAt s a) ∧ t.stored = s.stored

/-- The environment is as before: its parameters, and what it was last handed. -/
def SameEnvironment (s t : State) : Prop :=
  t.cfg = s.cfg ∧ t.reported = s.reported

/-- Every register is the same. -/
def SameRegs (s t : State) : Prop := ∀ r : Reg, readReg t r = readReg s r

/-- `rd` holds `v`, or 0 where `rd` is `x0`, and every other register is the same (`10_state.md` rule R21). -/
def WritesReg (s : State) (rd : Reg) (v : Word) (t : State) : Prop :=
  readReg t rd = (if rd = 0#5 then 0#32 else v) ∧ ∀ r : Reg, r ≠ rd → readReg t r = readReg s r

/-- The instruction completes with `v` in `rd` and `pc` at `next`, and changes nothing else. -/
def CompletesWriting (s : State) (o : Host.Outcome State Fault Refusal) (rd : Reg) (v next : Word) : Prop :=
  ∃ t, o = .next t ∧ t.pc = next ∧ WritesReg s rd v t ∧ SameMemory s t ∧ SameEnvironment s t

/-- The instruction completes with `pc` at `next` and changes nothing else. -/
def CompletesMovingPc (s : State) (o : Host.Outcome State Fault Refusal) (next : Word) : Prop :=
  ∃ t, o = .next t ∧ t.pc = next ∧ SameRegs s t ∧ SameMemory s t ∧ SameEnvironment s t

/-- The instruction completes having stored `bytes` at `ea`, `ea + 1`, … modulo 2^32, marked exactly those addresses as stored,
gone on at `pc + 4`, and changed nothing else. -/
def CompletesStoring (s : State) (o : Host.Outcome State Fault Refusal) (ea : Word) (bytes : List Byte) : Prop :=
  ∃ t, o = .next t ∧ t.pc = s.pc + 4#32 ∧ SameRegs s t ∧ SameEnvironment s t ∧
    (∀ (k : Nat) (b : Byte), bytes[k]? = some b → byteAt t (ea + BitVec.ofNat 32 k) = b) ∧
    (∀ a : Word, (∀ k : Nat, k < bytes.length → a ≠ ea + BitVec.ofNat 32 k) → byteAt t a = byteAt s a) ∧
    (∀ a : Word, wasStored t a = true ↔ wasStored s a = true ∨ ∃ k : Nat, k < bytes.length ∧ a = ea + BitVec.ofNat 32 k)

/-- The last value a list of register writes gives a register. -/
def lastRegWrite : List (Reg × Word) → Reg → Option Word
  | [], _ => none
  | w :: ws, r => match lastRegWrite ws r with
    | some v => some v
    | none => if w.1 = r then some w.2 else none

/-- The last value a list of memory writes gives an address. -/
def lastMemWrite : List (Word × Byte) → Word → Option Byte
  | [], _ => none
  | w :: ws, a => match lastMemWrite ws a with
    | some b => some b
    | none => if w.1 = a then some w.2 else none

/-- The state an environment that resumes makes (`60_exceptions.md` rule R252): its writes applied, the last to each place counting,
its `pc`, and every other register and byte as before. The triple is recorded (log entry 7), and the environment's writes set and
remove no mark of a store (log entry 13): the model's choices. -/
structure ResumedFrom (s : State) (x : Trap) (r : Resumption) (t : State) : Prop where
  pc : t.pc = r.pc
  regs : ∀ i : Reg, readReg t i = if i = 0#5 then 0#32 else (lastRegWrite r.regWrites i).getD (readReg s i)
  mem : ∀ a : Word, byteAt t a = (lastMemWrite r.memWrites a).getD (byteAt s a)
  stored : t.stored = s.stored
  cfg : t.cfg = s.cfg
  handed : t.reported = some x

/-- The instruction raises the exception with the value (`60_exceptions.md` rules R252, R253): the environment is handed the triple of
the instruction's own address. Where it stops, that triple is the outcome and no state is made, so nothing has changed; where it
resumes, the outcome is the state it makes. -/
def Traps (s : State) (o : Host.Outcome State Fault Refusal) (id : ExceptionId) (value : Option Word) : Prop :=
  (environmentAnswer s { id := id, pc := s.pc, value := value } = none →
    o = .fault (.trap { id := id, pc := s.pc, value := value })) ∧
  (∀ r, environmentAnswer s { id := id, pc := s.pc, value := value } = some r →
    ∃ t, o = .next t ∧ ResumedFrom s { id := id, pc := s.pc, value := value } r t)

/-- An environment that resumes, from a `pc` that is a multiple of 4, only at multiples of 4 (log entry 5). -/
def EnvironmentAligned (e : EnvTrap) : Prop :=
  ∀ (s : State) (x : Trap) (p : ResumePlan), x.pc.toNat % 4 = 0 → chosenPlan s x e = some p →
    (envValue s x p.pc).toNat % 4 = 0

/-- The word of an instruction carries the opcode bits of a row of the listing (`30_encoding.md` rule R89). -/
def HasOpcode (i : Instr) (mask bits : Word) : Prop := encode i &&& mask = bits

/-- What a conditional branch of condition `c` does (`41_control_transfer.md` rules R152, R157). -/
def BranchesOn (s : State) (o : Host.Outcome State Fault Refusal) (c : Prop) (imm : Word) : Prop :=
  (¬ c → CompletesMovingPc s o (s.pc + 4#32)) ∧
  (c → (s.pc + imm).toNat % 4 = 0 → CompletesMovingPc s o (s.pc + imm)) ∧
  (c → (s.pc + imm).toNat % 4 ≠ 0 → Traps s o .instructionAddressMisaligned (some (s.pc + imm)))

/-- The two bytes at an address as a 16-bit value, in the environment's byte order (`20_memory.md` rules R44, R45). -/
def halfAt (s : State) (a : Word) : BitVec 16 :=
  match s.cfg.endian with
  | .little => byteAt s (a + 1#32) ++ byteAt s a
  | .big => byteAt s a ++ byteAt s (a + 1#32)

/-- The four bytes at an address as a word, in the environment's byte order (`20_memory.md` rules R44, R45). -/
def wordAt (s : State) (a : Word) : Word :=
  match s.cfg.endian with
  | .little => byteAt s (a + 3#32) ++ byteAt s (a + 2#32) ++ byteAt s (a + 1#32) ++ byteAt s a
  | .big => byteAt s a ++ byteAt s (a + 1#32) ++ byteAt s (a + 2#32) ++ byteAt s (a + 3#32)

/-- The environment lets the access be made: aligned or supported, legal, and not a device's. -/
def accessible (s : State) (ea : Word) (n : Width) (k : AccessKind) : Bool :=
  (decide (ea.toNat % widthBytes n = 0) || misalignedPolicy s.cfg ea n k == .support) && pmaLegal s.cfg ea n k
    && !touchesIO s.cfg ea n

/-- The invariant of every run: `pc` a multiple of 4 (`10_state.md` rule R28), memory and the set of stored addresses in canonical
form, a listed byte at every stored address, nothing in the slot of `x0` (rule R21), and an environment that resumes only at
multiples of 4 (log entry 5). -/
structure RunInvariant (s : State) : Prop where
  pcAligned : s.pc.toNat % 4 = 0
  memWf : s.mem.wf = true
  storedWf : addrsWf 0 s.stored = true
  storedListed : ∀ a ∈ s.stored, (lookupCell a s.mem.cells).isSome = true
  zeroSlot : s.regs[0] = 0#32
  environmentAligned : EnvironmentAligned s.cfg.envTrap

/-! ## Which instructions -/

/-- The destination of an integer computational instruction, none for any other (`40_integer_computational.md`). -/
def integerDest : Instr → Option Reg
  | .lui rd _ | .auipc rd _ => some rd
  | .addi rd _ _ | .slti rd _ _ | .sltiu rd _ _ | .xori rd _ _ | .ori rd _ _ | .andi rd _ _ => some rd
  | .slli rd _ _ | .srli rd _ _ | .srai rd _ _ => some rd
  | .add rd _ _ | .sub rd _ _ | .sll rd _ _ | .slt rd _ _ | .sltu rd _ _ | .xor rd _ _ | .srl rd _ _ | .sra rd _ _
  | .or rd _ _ | .and rd _ _ => some rd
  | .jal _ _ | .jalr _ _ _ => none
  | .beq _ _ _ | .bne _ _ _ | .blt _ _ _ | .bge _ _ _ | .bltu _ _ _ | .bgeu _ _ _ => none
  | .lb _ _ _ | .lh _ _ _ | .lw _ _ _ | .lbu _ _ _ | .lhu _ _ _ => none
  | .sb _ _ _ | .sh _ _ _ | .sw _ _ _ => none
  | .fence _ _ _ _ _ | .ecall | .ebreak | .fenceTso _ _ | .pause => none

/-- The access a load or store makes: its kind, width and effective address (`20_memory.md` rules R41, R42, R51). -/
def dataAccess (s : State) : Instr → Option (AccessKind × Width × Word)
  | .lb _ rs1 imm | .lbu _ rs1 imm => some (.load, .byte, effectiveAddr s rs1 imm)
  | .lh _ rs1 imm | .lhu _ rs1 imm => some (.load, .half, effectiveAddr s rs1 imm)
  | .lw _ rs1 imm => some (.load, .word, effectiveAddr s rs1 imm)
  | .sb rs1 _ imm => some (.store, .byte, effectiveAddr s rs1 imm)
  | .sh rs1 _ imm => some (.store, .half, effectiveAddr s rs1 imm)
  | .sw rs1 _ imm => some (.store, .word, effectiveAddr s rs1 imm)
  | .lui _ _ | .auipc _ _ | .jal _ _ | .jalr _ _ _ => none
  | .beq _ _ _ | .bne _ _ _ | .blt _ _ _ | .bge _ _ _ | .bltu _ _ _ | .bgeu _ _ _ => none
  | .addi _ _ _ | .slti _ _ _ | .sltiu _ _ _ | .xori _ _ _ | .ori _ _ _ | .andi _ _ _ => none
  | .slli _ _ _ | .srli _ _ _ | .srai _ _ _ => none
  | .add _ _ _ | .sub _ _ _ | .sll _ _ _ | .slt _ _ _ | .sltu _ _ _ | .xor _ _ _ | .srl _ _ _ | .sra _ _ _
  | .or _ _ _ | .and _ _ _ => none
  | .fence _ _ _ _ _ | .ecall | .ebreak | .fenceTso _ _ | .pause => none

/-- The target of a jump or of a branch whose condition holds, none for a branch that is not taken and for every other instruction
(`41_control_transfer.md` rules R153, R154, R157 to R163). -/
def transferTarget (s : State) : Instr → Option Word
  | .jal _ imm => some (s.pc + imm)
  | .jalr _ rs1 imm => some (BitVec.ofNat 32 ((readReg s rs1 + imm).toNat / 2 * 2))
  | .beq a b imm => if readReg s a = readReg s b then some (s.pc + imm) else none
  | .bne a b imm => if readReg s a ≠ readReg s b then some (s.pc + imm) else none
  | .blt a b imm => if (readReg s a).toInt < (readReg s b).toInt then some (s.pc + imm) else none
  | .bge a b imm => if (readReg s b).toInt ≤ (readReg s a).toInt then some (s.pc + imm) else none
  | .bltu a b imm => if (readReg s a).toNat < (readReg s b).toNat then some (s.pc + imm) else none
  | .bgeu a b imm => if (readReg s b).toNat ≤ (readReg s a).toNat then some (s.pc + imm) else none
  | .lb _ _ _ | .lh _ _ _ | .lw _ _ _ | .lbu _ _ _ | .lhu _ _ _ => none
  | .sb _ _ _ | .sh _ _ _ | .sw _ _ _ => none
  | .lui _ _ | .auipc _ _ => none
  | .addi _ _ _ | .slti _ _ _ | .sltiu _ _ _ | .xori _ _ _ | .ori _ _ _ | .andi _ _ _ => none
  | .slli _ _ _ | .srli _ _ _ | .srai _ _ _ => none
  | .add _ _ _ | .sub _ _ _ | .sll _ _ _ | .slt _ _ _ | .sltu _ _ _ | .xor _ _ _ | .srl _ _ _ | .sra _ _ _
  | .or _ _ _ | .and _ _ _ => none
  | .fence _ _ _ _ _ | .ecall | .ebreak | .fenceTso _ _ | .pause => none

/-- The store of a width. -/
def storeOf (n : Width) (rs1 rs2 : Reg) (imm : Word) : Instr :=
  match n with
  | .byte => .sb rs1 rs2 imm
  | .half => .sh rs1 rs2 imm
  | .word => .sw rs1 rs2 imm

/-- The loads of a width. -/
def loadsOf (n : Width) (rd rs1 : Reg) (imm : Word) : List Instr :=
  match n with
  | .byte => [.lb rd rs1 imm, .lbu rd rs1 imm]
  | .half => [.lh rd rs1 imm, .lhu rd rs1 imm]
  | .word => [.lw rd rs1 imm]

/-- The bytes of the low half of a value in rising address order (`20_memory.md` rules R44, R45). -/
def halfBytes (e : Endian) (v : Word) : List Byte :=
  match e with
  | .little => [v.extractLsb' 0 8, v.extractLsb' 8 8]
  | .big => [v.extractLsb' 8 8, v.extractLsb' 0 8]

/-- The bytes of a word in rising address order (`20_memory.md` rules R44, R45). -/
def wordBytes (e : Endian) (v : Word) : List Byte :=
  match e with
  | .little => [v.extractLsb' 0 8, v.extractLsb' 8 8, v.extractLsb' 16 8, v.extractLsb' 24 8]
  | .big => [v.extractLsb' 24 8, v.extractLsb' 16 8, v.extractLsb' 8 8, v.extractLsb' 0 8]

/-- Which byte of an `n`-byte value, counting from the least significant, lies `k` bytes above the lowest address (`20_memory.md`
rules R44, R45). -/
def bytePlace (e : Endian) (n : Width) (k : Nat) : Nat :=
  match e with
  | .little => k
  | .big => widthBytes n - 1 - k

/-! ## Which exception (`60_exceptions.md` rules R240, R251) -/

/-- The exception of a data access, the alignment check first. -/
def accessException (s : State) (k : AccessKind) (n : Width) (ea : Word) : Option (ExceptionId × Option Word) :=
  let misaligned : ExceptionId := if k = .load then .loadAddressMisaligned else .storeAddressMisaligned
  let accessFault : ExceptionId := if k = .load then .loadAccessFault else .storeAccessFault
  if ea.toNat % widthBytes n ≠ 0 ∧ misalignedPolicy s.cfg ea n k = .trap then some (misaligned, some ea)
  else if ea.toNat % widthBytes n ≠ 0 ∧ misalignedPolicy s.cfg ea n k = .accessFault then some (accessFault, some ea)
  else if pmaLegal s.cfg ea n k = false then some (accessFault, some ea)
  else none

/-- The exception an instruction raises and the value reported with it (rule R240). -/
def exceptionOf (s : State) (i : Instr) : Option (ExceptionId × Option Word) :=
  match dataAccess s i with
  | some (k, n, ea) => accessException s k n ea
  | none =>
    match transferTarget s i with
    | some target => if target.toNat % 4 ≠ 0 then some (.instructionAddressMisaligned, some target) else none
    | none =>
      if i = .ecall then some (.environmentCall, none)
      else if i = .ebreak then some (.breakpoint, some s.pc)
      else none

/-- A load: where the access may be made, `rd` gets the value and nothing else changes; where it raises, it traps. -/
def LoadRule (s : State) (i : Instr) (rd : Reg) (n : Width) (ea v : Word) : Prop :=
  (accessible s ea n .load = true → CompletesWriting s (exec i s) rd v (s.pc + 4#32)) ∧
  (∀ id x, accessException s .load n ea = some (id, x) → Traps s (exec i s) id x)

/-- A store: where the access may be made, the bytes go to `ea` on and nothing else changes; where it raises, it traps. -/
def StoreRule (s : State) (i : Instr) (n : Width) (ea : Word) (bytes : List Byte) : Prop :=
  (accessible s ea n .store = true → CompletesStoring s (exec i s) ea bytes) ∧
  (∀ id x, accessException s .store n ea = some (id, x) → Traps s (exec i s) id x)

/-- No byte of the four at `pc` was written by a store of the run (`20_memory.md` rule R61). -/
def FetchesUnstored (s : State) : Prop :=
  wasStored s s.pc = false ∧ wasStored s (s.pc + 1#32) = false ∧ wasStored s (s.pc + 2#32) = false ∧
    wasStored s (s.pc + 3#32) = false

/-- The step fetches the word: the fetch is legal, no store of the run wrote a byte of it, and the four bytes at `pc` are the
word's, the least significant at `pc` (`20_memory.md` rules R47, R54, R61). -/
def Fetches (s : State) (w : Word) : Prop :=
  pmaLegal s.cfg s.pc .word .fetch = true ∧ FetchesUnstored s ∧
    byteAt s s.pc = w.extractLsb' 0 8 ∧ byteAt s (s.pc + 1#32) = w.extractLsb' 8 8 ∧
    byteAt s (s.pc + 2#32) = w.extractLsb' 16 8 ∧ byteAt s (s.pc + 3#32) = w.extractLsb' 24 8

/-- The exception a step that decodes the word raises: reserved words by `RESERVED_INSN`, the others by their instruction. -/
def wordException (s : State) (w : Word) : Option (ExceptionId × Option Word) :=
  match decode w with
  | .ok i => exceptionOf s i
  | .error _ => if s.cfg.reservedInsn = .illegalInstruction then some (.illegalInstruction, some w) else none

/-! ## Where the reserved encodings lie (`30_encoding.md` rule R91) -/

/-- The eleven major opcodes (`30_encoding.md` rule R88). -/
def majorOpcodes : List (BitVec 7) :=
  [0b0110111#7, 0b0010111#7, 0b1101111#7, 0b1100111#7, 0b1100011#7, 0b0000011#7, 0b0100011#7, 0b0010011#7, 0b0110011#7,
    0b0001111#7, 0b1110011#7]

/-- The list of rule R91, by `opcode`, `funct3`, `inst[31:25]` and, for SYSTEM, the other fields. -/
def ReservedByPlace (w : Word) : Prop :=
  let opcode : BitVec 7 := w.extractLsb' 0 7
  let funct3 : BitVec 3 := w.extractLsb' 12 3
  let funct7 : BitVec 7 := w.extractLsb' 25 7
  let funct12 : BitVec 12 := w.extractLsb' 20 12
  opcode ∉ majorOpcodes ∨
  (opcode = 0b1100111#7 ∧ funct3 ≠ 0b000#3) ∨
  (opcode = 0b1100011#7 ∧ (funct3 = 0b010#3 ∨ funct3 = 0b011#3)) ∨
  (opcode = 0b0000011#7 ∧ (funct3 = 0b011#3 ∨ funct3 = 0b110#3 ∨ funct3 = 0b111#3)) ∨
  (opcode = 0b0100011#7 ∧ 0b011#3 ≤ funct3) ∨
  (opcode = 0b0010011#7 ∧ funct3 = 0b001#3 ∧ funct7 ≠ 0b0000000#7) ∨
  (opcode = 0b0010011#7 ∧ funct3 = 0b101#3 ∧ funct7 ≠ 0b0000000#7 ∧ funct7 ≠ 0b0100000#7) ∨
  (opcode = 0b0110011#7 ∧ funct7 ≠ 0b0000000#7 ∧ ¬ (funct7 = 0b0100000#7 ∧ (funct3 = 0b000#3 ∨ funct3 = 0b101#3))) ∨
  (opcode = 0b0001111#7 ∧ funct3 ≠ 0b000#3) ∨
  (opcode = 0b1110011#7 ∧
    (funct3 ≠ 0b000#3 ∨ rdOf w ≠ 0#5 ∨ rs1Of w ≠ 0#5 ∨ (funct12 ≠ 0b000000000000#12 ∧ funct12 ≠ 0b000000000001#12)))

/-! ## The encoding formula (`30_encoding.md` rule R96) -/

/-- `v[hi:lo] << at`, with the field given by its lowest bit and width. -/
def fieldAt (v : Word) (lo width at_ : Nat) : Word := (v.extractLsb' lo width).setWidth 32 <<< at_

/-- `match | rd<<7 | rs1<<15 | rs2<<20 | enc`. -/
def formulaWord (bits : Word) (rd rs1 rs2 : Reg) (enc : Word) : Word :=
  bits ||| rd.setWidth 32 <<< 7 ||| rs1.setWidth 32 <<< 15 ||| rs2.setWidth 32 <<< 20 ||| enc

/-- `enc` of the I format. -/
def encI (v : Word) : Word := fieldAt v 0 12 20
/-- `enc` of the S format. -/
def encS (v : Word) : Word := fieldAt v 5 7 25 ||| fieldAt v 0 5 7
/-- `enc` of the B format. -/
def encB (v : Word) : Word := fieldAt v 12 1 31 ||| fieldAt v 5 6 25 ||| fieldAt v 1 4 8 ||| fieldAt v 11 1 7
/-- `enc` of the U format. -/
def encU (v : Word) : Word := fieldAt v 12 20 12
/-- `enc` of the J format. -/
def encJ (v : Word) : Word := fieldAt v 20 1 31 ||| fieldAt v 1 10 21 ||| fieldAt v 11 1 20 ||| fieldAt v 12 8 12
/-- `enc` of a shift amount. -/
def encShamt (n : BitVec 5) : Word := n.setWidth 32 <<< 20

/-! ## The word patterns of the HINTs (`45_hints.md` rule R228) -/

/-- The word fixes the low bits: opcode, `rd`, `funct3` and, for the R formats, `funct7`. -/
def HasBits (w mask bits : Word) : Prop := w &&& mask = bits

/-- The pattern column of Table 5 for the standard HINTs with `rd = x0`, but for the four NTL words. -/
def StandardIntegerHint (w : Word) : Prop :=
  HasBits w 0x00000FFF#32 0x00000037#32 ∨ HasBits w 0x00000FFF#32 0x00000017#32 ∨
  (HasBits w 0x00007FFF#32 0x00000013#32 ∧ w ≠ 0x00000013#32) ∨
  HasBits w 0x00007FFF#32 0x00007013#32 ∨ HasBits w 0x00007FFF#32 0x00006013#32 ∨ HasBits w 0x00007FFF#32 0x00004013#32 ∨
  (HasBits w 0xFE007FFF#32 0x00000033#32 ∧ rs1Of w ≠ 0#5) ∨
  (HasBits w 0xFE0FFFFF#32 0x00000033#32 ∧ ¬ (2#5 ≤ rs2Of w ∧ rs2Of w ≤ 5#5)) ∨
  HasBits w 0xFE007FFF#32 0x40000033#32 ∨ HasBits w 0xFE007FFF#32 0x00007033#32 ∨ HasBits w 0xFE007FFF#32 0x00006033#32 ∨
  HasBits w 0xFE007FFF#32 0x00004033#32 ∨ HasBits w 0xFE007FFF#32 0x00001033#32 ∨ HasBits w 0xFE007FFF#32 0x00005033#32 ∨
  HasBits w 0xFE007FFF#32 0x40005033#32

/-- The pattern column of Table 5 for the standard FENCE HINTs. -/
def StandardFenceHint (w : Word) : Prop :=
  HasBits w 0xF000707F#32 0x0000000F#32 ∧
  ((rdOf w = 0#5 ∧ rs1Of w ≠ 0#5 ∧ (predOf w = 0#4 ∨ succOf w = 0#4)) ∨
   (rdOf w ≠ 0#5 ∧ rs1Of w = 0#5 ∧ (predOf w = 0#4 ∨ succOf w = 0#4)) ∨
   (rdOf w = 0#5 ∧ rs1Of w = 0#5 ∧ predOf w = 0#4 ∧ succOf w ≠ 0#4) ∨
   (rdOf w = 0#5 ∧ rs1Of w = 0#5 ∧ predOf w ≠ 1#4 ∧ succOf w = 0#4))

/-- The pattern column of Table 5 for the custom HINTs. -/
def CustomHint (w : Word) : Prop :=
  HasBits w 0x00007FFF#32 0x00002013#32 ∨ HasBits w 0x00007FFF#32 0x00003013#32 ∨
  HasBits w 0xFE007FFF#32 0x00001013#32 ∨ HasBits w 0xFE007FFF#32 0x00005013#32 ∨ HasBits w 0xFE007FFF#32 0x40005013#32 ∨
  HasBits w 0xFE007FFF#32 0x00002033#32 ∨ HasBits w 0xFE007FFF#32 0x00003033#32

/-- The row of Table 5 a word is a code point of, by the pattern column. -/
def HintWord (w : Word) : HintKind → Prop
  | .standard => StandardIntegerHint w ∨ StandardFenceHint w
  | .custom => CustomHint w
  | .ntlP1 => w = 0x00200033#32
  | .ntlPall => w = 0x00300033#32
  | .ntlS1 => w = 0x00400033#32
  | .ntlAll => w = 0x00500033#32
  | .pause => w = 0x0100000F#32

end Sys2Proof.Machine
end

