-- ==== Sys2Proof/Certificates/Slice0/Obligations.lean ====
section
/-! DEFINITION. The statements about the model, for the provers. Each docstring names the rule of spec/ it formalises, or says that
it is the model's own and names the log entry. -/

open Sys2Proof Sys2Proof.Machine

/-! ## Encoding -/

/-- Every well-formed instruction is what the decoder reads from its word (`30_encoding.md` rules R95, R96). -/
def Obligations.DecodeOfEncode : Prop :=
  ∀ i : Instr, i.wf = true → decode (encode i) = .ok i

/-- A word that decodes is the word of the instruction it decodes to, and that instruction is well-formed: no bit of a decoded word
is dropped (`30_encoding.md` rules R89, R95, R96). -/
def Obligations.EncodeOfDecode : Prop :=
  ∀ (w : Word) (i : Instr), decode w = .ok i → i.wf = true ∧ encode i = w

/-- The reserved encodings lie exactly where rule R91 of `30_encoding.md` lists them, and every word whose low two bits are not 11
is one. The spec marks the list as its own derivation from rule R89. -/
def Obligations.ReservedWordsByPlace : Prop :=
  ∀ w : Word, (decode w = .error (.reserved w) ↔ ReservedByPlace w) ∧ (w.extractLsb' 0 2 ≠ 0b11#2 → ReservedByPlace w)

/-- No word matches two of the forty rows (`30_encoding.md` rule R89: "pairwise disjoint"). -/
def Obligations.FortyRowsDisjoint : Prop :=
  fortyRows.length = 40 ∧ fortyRows.Pairwise (fun a b => ∀ w : Word, ¬ (a.matches w = true ∧ b.matches w = true))

/-- Every bit of the five immediates, and their ranges (`30_encoding.md` rules R79 to R83). -/
def Obligations.ImmediatesBitByBit : Prop :=
  ∀ w : Word,
    ((∀ j, 11 ≤ j → j < 32 → (immI w).getLsbD j = w.getLsbD 31) ∧ (∀ j, j < 11 → (immI w).getLsbD j = w.getLsbD (j + 20)) ∧
      -2048 ≤ (immI w).toInt ∧ (immI w).toInt ≤ 2047) ∧
    ((∀ j, 11 ≤ j → j < 32 → (immS w).getLsbD j = w.getLsbD 31) ∧ (∀ j, 5 ≤ j → j < 11 → (immS w).getLsbD j = w.getLsbD (j + 20)) ∧
      (∀ j, j < 5 → (immS w).getLsbD j = w.getLsbD (j + 7)) ∧ -2048 ≤ (immS w).toInt ∧ (immS w).toInt ≤ 2047) ∧
    ((∀ j, 12 ≤ j → j < 32 → (immB w).getLsbD j = w.getLsbD 31) ∧ (immB w).getLsbD 11 = w.getLsbD 7 ∧
      (∀ j, 5 ≤ j → j < 11 → (immB w).getLsbD j = w.getLsbD (j + 20)) ∧
      (∀ j, 1 ≤ j → j < 5 → (immB w).getLsbD j = w.getLsbD (j + 7)) ∧ (immB w).getLsbD 0 = false ∧
      -4096 ≤ (immB w).toInt ∧ (immB w).toInt ≤ 4094) ∧
    ((∀ j, 12 ≤ j → j < 32 → (immU w).getLsbD j = w.getLsbD j) ∧ (∀ j, j < 12 → (immU w).getLsbD j = false) ∧
      (immU w).toInt % 4096 = 0 ∧ -2147483648 ≤ (immU w).toInt ∧ (immU w).toInt ≤ 2147479552) ∧
    ((∀ j, 20 ≤ j → j < 32 → (immJ w).getLsbD j = w.getLsbD 31) ∧ (∀ j, 12 ≤ j → j < 20 → (immJ w).getLsbD j = w.getLsbD j) ∧
      (immJ w).getLsbD 11 = w.getLsbD 20 ∧ (∀ j, 1 ≤ j → j < 11 → (immJ w).getLsbD j = w.getLsbD (j + 20)) ∧
      (immJ w).getLsbD 0 = false ∧ -1048576 ≤ (immJ w).toInt ∧ (immJ w).toInt ≤ 1048574)

/-- The words of the formula of rule R96 of `30_encoding.md`, row by row. The spec marks the formula as its own derivation. -/
def Obligations.EncodingFormula : Prop :=
  ∀ (rd rs1 rs2 : Reg) (v : Word) (n : BitVec 5) (fm pred succ : BitVec 4),
    encode (.lui rd v) = formulaWord 0x00000037#32 rd 0#5 0#5 (encU v) ∧
    encode (.auipc rd v) = formulaWord 0x00000017#32 rd 0#5 0#5 (encU v) ∧
    encode (.jal rd v) = formulaWord 0x0000006F#32 rd 0#5 0#5 (encJ v) ∧
    encode (.jalr rd rs1 v) = formulaWord 0x00000067#32 rd rs1 0#5 (encI v) ∧
    encode (.beq rs1 rs2 v) = formulaWord 0x00000063#32 0#5 rs1 rs2 (encB v) ∧
    encode (.bne rs1 rs2 v) = formulaWord 0x00001063#32 0#5 rs1 rs2 (encB v) ∧
    encode (.blt rs1 rs2 v) = formulaWord 0x00004063#32 0#5 rs1 rs2 (encB v) ∧
    encode (.bge rs1 rs2 v) = formulaWord 0x00005063#32 0#5 rs1 rs2 (encB v) ∧
    encode (.bltu rs1 rs2 v) = formulaWord 0x00006063#32 0#5 rs1 rs2 (encB v) ∧
    encode (.bgeu rs1 rs2 v) = formulaWord 0x00007063#32 0#5 rs1 rs2 (encB v) ∧
    encode (.lb rd rs1 v) = formulaWord 0x00000003#32 rd rs1 0#5 (encI v) ∧
    encode (.lh rd rs1 v) = formulaWord 0x00001003#32 rd rs1 0#5 (encI v) ∧
    encode (.lw rd rs1 v) = formulaWord 0x00002003#32 rd rs1 0#5 (encI v) ∧
    encode (.lbu rd rs1 v) = formulaWord 0x00004003#32 rd rs1 0#5 (encI v) ∧
    encode (.lhu rd rs1 v) = formulaWord 0x00005003#32 rd rs1 0#5 (encI v) ∧
    encode (.sb rs1 rs2 v) = formulaWord 0x00000023#32 0#5 rs1 rs2 (encS v) ∧
    encode (.sh rs1 rs2 v) = formulaWord 0x00001023#32 0#5 rs1 rs2 (encS v) ∧
    encode (.sw rs1 rs2 v) = formulaWord 0x00002023#32 0#5 rs1 rs2 (encS v) ∧
    encode (.addi rd rs1 v) = formulaWord 0x00000013#32 rd rs1 0#5 (encI v) ∧
    encode (.slti rd rs1 v) = formulaWord 0x00002013#32 rd rs1 0#5 (encI v) ∧
    encode (.sltiu rd rs1 v) = formulaWord 0x00003013#32 rd rs1 0#5 (encI v) ∧
    encode (.xori rd rs1 v) = formulaWord 0x00004013#32 rd rs1 0#5 (encI v) ∧
    encode (.ori rd rs1 v) = formulaWord 0x00006013#32 rd rs1 0#5 (encI v) ∧
    encode (.andi rd rs1 v) = formulaWord 0x00007013#32 rd rs1 0#5 (encI v) ∧
    encode (.slli rd rs1 n) = formulaWord 0x00001013#32 rd rs1 0#5 (encShamt n) ∧
    encode (.srli rd rs1 n) = formulaWord 0x00005013#32 rd rs1 0#5 (encShamt n) ∧
    encode (.srai rd rs1 n) = formulaWord 0x40005013#32 rd rs1 0#5 (encShamt n) ∧
    encode (.add rd rs1 rs2) = formulaWord 0x00000033#32 rd rs1 rs2 0#32 ∧
    encode (.sub rd rs1 rs2) = formulaWord 0x40000033#32 rd rs1 rs2 0#32 ∧
    encode (.sll rd rs1 rs2) = formulaWord 0x00001033#32 rd rs1 rs2 0#32 ∧
    encode (.slt rd rs1 rs2) = formulaWord 0x00002033#32 rd rs1 rs2 0#32 ∧
    encode (.sltu rd rs1 rs2) = formulaWord 0x00003033#32 rd rs1 rs2 0#32 ∧
    encode (.xor rd rs1 rs2) = formulaWord 0x00004033#32 rd rs1 rs2 0#32 ∧
    encode (.srl rd rs1 rs2) = formulaWord 0x00005033#32 rd rs1 rs2 0#32 ∧
    encode (.sra rd rs1 rs2) = formulaWord 0x40005033#32 rd rs1 rs2 0#32 ∧
    encode (.or rd rs1 rs2) = formulaWord 0x00006033#32 rd rs1 rs2 0#32 ∧
    encode (.and rd rs1 rs2) = formulaWord 0x00007033#32 rd rs1 rs2 0#32 ∧
    encode (.fence fm pred succ rs1 rd) =
      formulaWord 0x0000000F#32 rd rs1 0#5 (encI ((fm ++ pred ++ succ : BitVec 12).setWidth 32)) ∧
    encode .ecall = 0x00000073#32 ∧ encode .ebreak = 0x00100073#32 ∧
    encode (.fenceTso rs1 rd) = formulaWord 0x8330000F#32 rd rs1 0#5 0#32 ∧ encode .pause = 0x0100000F#32

/-- Words written out by the spec (`95_test_vectors.md` section 2.9 and the examples of the instruction rules) decode to their
instructions. -/
def Obligations.SampleWordsDecode : Prop :=
  decode 0xFFF30293#32 = .ok (.addi 5#5 6#5 0xFFFFFFFF#32) ∧
  decode 0x407302B3#32 = .ok (.sub 5#5 6#5 7#5) ∧
  decode 0x123452B7#32 = .ok (.lui 5#5 0x12345000#32) ∧
  decode 0xFFDFF06F#32 = .ok (.jal 0#5 0xFFFFFFFC#32) ∧
  decode 0x80730063#32 = .ok (.beq 6#5 7#5 0xFFFFF000#32) ∧
  decode 0xFFC32283#32 = .ok (.lw 5#5 6#5 0xFFFFFFFC#32) ∧
  decode 0x80732023#32 = .ok (.sw 6#5 7#5 0xFFFFF800#32) ∧
  decode 0x40435293#32 = .ok (.srai 5#5 6#5 4#5) ∧
  decode 0x0FF0000F#32 = .ok (.fence 0#4 15#4 15#4 0#5 0#5) ∧
  decode 0x8330000F#32 = .ok (.fenceTso 0#5 0#5) ∧
  decode 0x0100000F#32 = .ok .pause ∧
  decode 0x00000073#32 = .ok .ecall ∧ decode 0x00100073#32 = .ok .ebreak

/-! ## Launch, invariant, step -/

/-- What reset leaves. The spec gives `x0 = 0`, no store of the run yet, and the defaults of `ENDIAN`, `MISALIGNED`, `IsIO`,
`RESERVED_INSN` and `EnvTrap` (`10_state.md` rule R34; decisions D1, D3, D6, D7, D8). The rest is the model's choice: the zeros of `x1`
to `x31` are log entry 1, the `pc` log entry 2, the address map log entry 4, the empty launch image log entries 3 and 17, and the empty
record of the last trap log entry 7. -/
def Obligations.ResetState : Prop :=
  (∀ r : Reg, readReg State.reset r = 0#32) ∧ State.reset.pc = 0x00001000#32 ∧ State.reset.mem.cells = [] ∧
  State.reset.stored = [] ∧ State.reset.reported = none ∧ State.reset.cfg.envTrap = .stop ∧
  (∀ x : Trap, environmentAnswer State.reset x = none) ∧
  State.reset.cfg.endian = .little ∧ State.reset.cfg.misaligned = .trap ∧ State.reset.cfg.misalignedRules = [] ∧
  State.reset.cfg.io = [] ∧ State.reset.cfg.reservedInsn = .illegalInstruction ∧
  (∀ (a : Word) (n : Width) (k : AccessKind), pmaLegal State.reset.cfg a n k = true)

/-- The invariant holds at every launch state whose `RESET_PC` is a multiple of 4 and whose image is in canonical form
(`70_reset_and_hazards.md` rule R281); an environment that resumes only at multiples of 4 is log entry 5. -/
def Obligations.InvariantAtLaunch : Prop :=
  ∀ (cfg : Eei) (resetPc : Word) (regs : Vector Word 32) (image : Memory),
    resetPc.toNat % 4 = 0 → image.wf = true → EnvironmentAligned cfg.envTrap →
    RunInvariant (State.launch cfg resetPc regs image) ∧ (State.launch cfg resetPc regs image).pc = resetPc ∧
    (∀ r : Reg, readReg (State.launch cfg resetPc regs image) r = if r = 0#5 then 0#32 else regs[r.toNat]'r.isLt)

/-- The invariant holds right after reset. -/
def Obligations.InvariantAtReset : Prop :=
  RunInvariant State.reset

/-- The invariant is kept by every step (`10_state.md` rules R21, R28; the canonical forms and the
environment that resumes at multiples of 4, log entry 5, are the model's own). -/
def Obligations.InvariantKept : Prop :=
  ∀ s t : State, RunInvariant s → step s = .next t → RunInvariant t

/-- The alignment invariant (`10_state.md` rule R28, which the spec marks as its own derivation): `pc` stays a multiple of 4, and a
jump or taken branch elsewhere raises. An environment that resumes does so at multiples of 4 (log entry 5). -/
def Obligations.PcStaysAligned : Prop :=
  (∀ s t : State, s.pc.toNat % 4 = 0 → EnvironmentAligned s.cfg.envTrap → step s = .next t → t.pc.toNat % 4 = 0) ∧
  (∀ (s : State) (i : Instr) (target : Word), transferTarget s i = some target → target.toNat % 4 ≠ 0 →
    Traps s (exec i s) .instructionAddressMisaligned (some target))

/-- A step runs the instruction the bytes at `pc` decode to (`00_scope.md` rule R12). -/
def Obligations.StepRunsDecoded : Prop :=
  ∀ (s : State) (w : Word) (i : Instr), Fetches s w → decode w = .ok i → step s = exec i s

/-- An instruction loaded at `pc` is the next one to run, and the load changes nothing but its four bytes, their marks and, where it
is missing, the permission to fetch them: one line more in the address map (log entry 17: the model's own). -/
def Obligations.LoadedWordRunsNext : Prop :=
  ∀ (s : State) (nbits w : Nat) (i : Instr), decodeTableWord nbits w = some i →
    let t := s.withFetchWord nbits w
    step t = exec i t ∧ t.pc = s.pc ∧ SameRegs s t ∧ t.reported = s.reported ∧
    (∀ a : Word, a ∉ accessAddrs s.pc .word → byteAt t a = byteAt s a) ∧
    (∀ a : Word, a ∉ accessAddrs s.pc .word → wasStored t a = wasStored s a) ∧
    t.cfg.endian = s.cfg.endian ∧ t.cfg.misaligned = s.cfg.misaligned ∧ t.cfg.misalignedRules = s.cfg.misalignedRules ∧
    t.cfg.io = s.cfg.io ∧ t.cfg.reservedInsn = s.cfg.reservedInsn ∧ t.cfg.envTrap = s.cfg.envTrap ∧
    t.cfg.pma = (if pmaLegal s.cfg s.pc .word .fetch then s.cfg.pma
      else { region := { base := s.pc, size := 4 }, fetch := true, load := false, store := false,
             byte := false, half := false, word := true } :: s.cfg.pma)

/-- An instruction that is no jump or taken branch is followed by the one at `pc + 4`, a jump or taken branch by its target, and one
that raises reports its own address (`10_state.md` rule R26). -/
def Obligations.AdvanceOfPc : Prop :=
  ∀ (s : State) (i : Instr),
    (∀ t, exceptionOf s i = none → transferTarget s i = none → exec i s = .next t →
      t.pc.toNat = (s.pc.toNat + 4) % 4294967296) ∧
    (∀ t target, exceptionOf s i = none → transferTarget s i = some target → exec i s = .next t → t.pc = target) ∧
    (∀ id v, exceptionOf s i = some (id, v) → Traps s (exec i s) id v) ∧
    (∀ x, exec i s = .fault (.trap x) → x.pc = s.pc)

/-- No step changes the environment's parameters (`00_scope.md` rule R8; that they stand in the state is log entry 6 and `EnvTrap` as one
of them log entry 5, the model's choices), and a step that raises nothing leaves the record of the last trap (log entry 7, the model's
choice) as it was. -/
def Obligations.EnvironmentFixed : Prop :=
  (∀ s t : State, step s = .next t → t.cfg = s.cfg) ∧
  (∀ (s t : State) (w : Word), Fetches s w → wordException s w = none → step s = .next t → SameEnvironment s t)

/-! ## x0 -/

/-- `x0` reads as zero, a write to it changes no state, and an instruction that names it as `rd` does everything else it does
(`10_state.md` rule R21). -/
def Obligations.ZeroRegister : Prop :=
  ∀ s : State, readReg s 0#5 = 0#32 ∧ (∀ v : Word, writeReg s 0#5 v = s) ∧
    (∀ (imm : Word), (s.pc + imm).toNat % 4 = 0 → CompletesMovingPc s (exec (.jal 0#5 imm) s) (s.pc + imm)) ∧
    (∀ (rs1 : Reg) (imm target : Word), transferTarget s (.jalr 0#5 rs1 imm) = some target → target.toNat % 4 = 0 →
      CompletesMovingPc s (exec (.jalr 0#5 rs1 imm) s) target) ∧
    (∀ (n : Width) (rs1 : Reg) (imm : Word), ∀ i ∈ loadsOf n 0#5 rs1 imm,
      ∀ id v, accessException s .load n (effectiveAddr s rs1 imm) = some (id, v) → Traps s (exec i s) id v)

/-- A load to `x0` is still a load: where the access may be made it drops the value, and everywhere else it does what the load to
any register does (`42_load_store.md` rule R189). -/
def Obligations.LoadToZeroStillLoads : Prop :=
  ∀ (s : State) (n : Width) (rd rs1 : Reg) (imm : Word) (k : Nat) (i j : Instr),
    (loadsOf n 0#5 rs1 imm)[k]? = some i → (loadsOf n rd rs1 imm)[k]? = some j →
    (accessible s (effectiveAddr s rs1 imm) n .load = true → CompletesMovingPc s (exec i s) (s.pc + 4#32)) ∧
    (accessible s (effectiveAddr s rs1 imm) n .load = false → exec i s = exec j s)

/-! ## Integer computational instructions -/

/-- ADD, SUB and ADDI: the low 32 bits of the exact sum or difference, the same for both readings (`40_integer_computational.md`
rules R107, R113, R123, R124). -/
def Obligations.AddAndSubtract : Prop :=
  ∀ (s : State) (rd rs1 rs2 : Reg) (imm : Word),
    let a := readReg s rs1
    let b := readReg s rs2
    (HasOpcode (.addi rd rs1 imm) 0x0000707F#32 0x00000013#32 ∧
      CompletesWriting s (exec (.addi rd rs1 imm) s) rd (BitVec.ofNat 32 (a.toNat + imm.toNat)) (s.pc + 4#32) ∧
      CompletesWriting s (exec (.addi rd rs1 imm) s) rd (BitVec.ofInt 32 (a.toInt + imm.toInt)) (s.pc + 4#32)) ∧
    (HasOpcode (.add rd rs1 rs2) 0xFE00707F#32 0x00000033#32 ∧
      CompletesWriting s (exec (.add rd rs1 rs2) s) rd (BitVec.ofNat 32 (a.toNat + b.toNat)) (s.pc + 4#32) ∧
      CompletesWriting s (exec (.add rd rs1 rs2) s) rd (BitVec.ofInt 32 (a.toInt + b.toInt)) (s.pc + 4#32)) ∧
    (HasOpcode (.sub rd rs1 rs2) 0xFE00707F#32 0x40000033#32 ∧
      CompletesWriting s (exec (.sub rd rs1 rs2) s) rd (BitVec.ofInt 32 (a.toNat - b.toNat)) (s.pc + 4#32) ∧
      CompletesWriting s (exec (.sub rd rs1 rs2) s) rd (BitVec.ofInt 32 (a.toInt - b.toInt)) (s.pc + 4#32))

/-- SLT, SLTU, SLTI and SLTIU: 1 or 0 by the signed or unsigned order (`40_integer_computational.md` rules R108, R114, R115, R126,
R127). -/
def Obligations.SetLessThan : Prop :=
  ∀ (s : State) (rd rs1 rs2 : Reg) (imm : Word),
    let a := readReg s rs1
    let b := readReg s rs2
    (HasOpcode (.slti rd rs1 imm) 0x0000707F#32 0x00002013#32 ∧
      CompletesWriting s (exec (.slti rd rs1 imm) s) rd (if a.toInt < imm.toInt then 1#32 else 0#32) (s.pc + 4#32)) ∧
    (HasOpcode (.sltiu rd rs1 imm) 0x0000707F#32 0x00003013#32 ∧
      CompletesWriting s (exec (.sltiu rd rs1 imm) s) rd (if a.toNat < imm.toNat then 1#32 else 0#32) (s.pc + 4#32)) ∧
    (HasOpcode (.slt rd rs1 rs2) 0xFE00707F#32 0x00002033#32 ∧
      CompletesWriting s (exec (.slt rd rs1 rs2) s) rd (if a.toInt < b.toInt then 1#32 else 0#32) (s.pc + 4#32)) ∧
    (HasOpcode (.sltu rd rs1 rs2) 0xFE00707F#32 0x00003033#32 ∧
      CompletesWriting s (exec (.sltu rd rs1 rs2) s) rd (if a.toNat < b.toNat then 1#32 else 0#32) (s.pc + 4#32))

/-- XOR, OR, AND, XORI, ORI and ANDI, bit by bit (`40_integer_computational.md` rules R116 to R118, R128, R131, R132). -/
def Obligations.BitwiseLogic : Prop :=
  ∀ (s : State) (rd rs1 rs2 : Reg) (imm : Word),
    let a := readReg s rs1
    let b := readReg s rs2
    (HasOpcode (.xori rd rs1 imm) 0x0000707F#32 0x00004013#32 ∧ ∃ v : Word,
      CompletesWriting s (exec (.xori rd rs1 imm) s) rd v (s.pc + 4#32) ∧
      ∀ j, j < 32 → v.getLsbD j = Bool.xor (a.getLsbD j) (imm.getLsbD j)) ∧
    (HasOpcode (.ori rd rs1 imm) 0x0000707F#32 0x00006013#32 ∧ ∃ v : Word,
      CompletesWriting s (exec (.ori rd rs1 imm) s) rd v (s.pc + 4#32) ∧
      ∀ j, j < 32 → v.getLsbD j = (a.getLsbD j || imm.getLsbD j)) ∧
    (HasOpcode (.andi rd rs1 imm) 0x0000707F#32 0x00007013#32 ∧ ∃ v : Word,
      CompletesWriting s (exec (.andi rd rs1 imm) s) rd v (s.pc + 4#32) ∧
      ∀ j, j < 32 → v.getLsbD j = (a.getLsbD j && imm.getLsbD j)) ∧
    (HasOpcode (.xor rd rs1 rs2) 0xFE00707F#32 0x00004033#32 ∧ ∃ v : Word,
      CompletesWriting s (exec (.xor rd rs1 rs2) s) rd v (s.pc + 4#32) ∧
      ∀ j, j < 32 → v.getLsbD j = Bool.xor (a.getLsbD j) (b.getLsbD j)) ∧
    (HasOpcode (.or rd rs1 rs2) 0xFE00707F#32 0x00006033#32 ∧ ∃ v : Word,
      CompletesWriting s (exec (.or rd rs1 rs2) s) rd v (s.pc + 4#32) ∧
      ∀ j, j < 32 → v.getLsbD j = (a.getLsbD j || b.getLsbD j)) ∧
    (HasOpcode (.and rd rs1 rs2) 0xFE00707F#32 0x00007033#32 ∧ ∃ v : Word,
      CompletesWriting s (exec (.and rd rs1 rs2) s) rd v (s.pc + 4#32) ∧
      ∀ j, j < 32 → v.getLsbD j = (a.getLsbD j && b.getLsbD j))

/-- The six shifts as arithmetic: a product modulo 2^32, the quotient of the unsigned value, the floor of the quotient of the signed
value, by a power of two whose exponent is the `shamt` field or the low five bits of `rs2` (`40_integer_computational.md` rules R109,
R119 to R121, R125, R129, R130). -/
def Obligations.Shifts : Prop :=
  ∀ (s : State) (rd rs1 rs2 : Reg) (n : BitVec 5),
    let a := readReg s rs1
    let m := (readReg s rs2).toNat % 32
    (HasOpcode (.slli rd rs1 n) 0xFE00707F#32 0x00001013#32 ∧
      CompletesWriting s (exec (.slli rd rs1 n) s) rd (BitVec.ofNat 32 (a.toNat * 2 ^ n.toNat)) (s.pc + 4#32)) ∧
    (HasOpcode (.srli rd rs1 n) 0xFE00707F#32 0x00005013#32 ∧
      CompletesWriting s (exec (.srli rd rs1 n) s) rd (BitVec.ofNat 32 (a.toNat / 2 ^ n.toNat)) (s.pc + 4#32)) ∧
    (HasOpcode (.srai rd rs1 n) 0xFE00707F#32 0x40005013#32 ∧
      CompletesWriting s (exec (.srai rd rs1 n) s) rd (BitVec.ofInt 32 (Int.fdiv a.toInt (2 ^ n.toNat))) (s.pc + 4#32)) ∧
    (HasOpcode (.sll rd rs1 rs2) 0xFE00707F#32 0x00001033#32 ∧
      CompletesWriting s (exec (.sll rd rs1 rs2) s) rd (BitVec.ofNat 32 (a.toNat * 2 ^ m)) (s.pc + 4#32)) ∧
    (HasOpcode (.srl rd rs1 rs2) 0xFE00707F#32 0x00005033#32 ∧
      CompletesWriting s (exec (.srl rd rs1 rs2) s) rd (BitVec.ofNat 32 (a.toNat / 2 ^ m)) (s.pc + 4#32)) ∧
    (HasOpcode (.sra rd rs1 rs2) 0xFE00707F#32 0x40005033#32 ∧
      CompletesWriting s (exec (.sra rd rs1 rs2) s) rd (BitVec.ofInt 32 (Int.fdiv a.toInt (2 ^ m))) (s.pc + 4#32))

/-- LUI and AUIPC, for every value of the 20-bit field (`40_integer_computational.md` rules R110, R111). -/
def Obligations.UpperImmediates : Prop :=
  ∀ (s : State) (rd : Reg) (field : BitVec 20),
    (HasOpcode (.lui rd (field ++ 0#12)) 0x0000007F#32 0x00000037#32 ∧
      CompletesWriting s (exec (.lui rd (field ++ 0#12)) s) rd (BitVec.ofNat 32 (field.toNat * 4096)) (s.pc + 4#32)) ∧
    (HasOpcode (.auipc rd (field ++ 0#12)) 0x0000007F#32 0x00000017#32 ∧
      CompletesWriting s (exec (.auipc rd (field ++ 0#12)) s) rd (BitVec.ofNat 32 (s.pc.toNat + field.toNat * 4096))
        (s.pc + 4#32))

/-- A step that fetches and decodes an integer computational instruction raises nothing: it completes, writing its `rd` and nothing
else (`40_integer_computational.md` rule R106). -/
def Obligations.IntegerNeverTraps : Prop :=
  ∀ (s : State) (w : Word) (i : Instr) (rd : Reg), Fetches s w → decode w = .ok i → integerDest i = some rd →
    ∃ v : Word, CompletesWriting s (step s) rd v (s.pc + 4#32)

/-! ## Control transfer -/

/-- JAL (`41_control_transfer.md` rule R153). -/
def Obligations.JumpAndLink : Prop :=
  ∀ (s : State) (rd : Reg) (imm : Word),
    HasOpcode (.jal rd imm) 0x0000007F#32 0x0000006F#32 ∧
    ((s.pc + imm).toNat % 4 = 0 → CompletesWriting s (exec (.jal rd imm) s) rd (s.pc + 4#32) (s.pc + imm)) ∧
    ((s.pc + imm).toNat % 4 ≠ 0 → Traps s (exec (.jal rd imm) s) .instructionAddressMisaligned (some (s.pc + imm)))

/-- JALR: the target is the sum with bit 0 cleared, from the old value of `rs1` (`41_control_transfer.md` rule R154). -/
def Obligations.JumpAndLinkRegister : Prop :=
  ∀ (s : State) (rd rs1 : Reg) (imm : Word),
    let target := BitVec.ofNat 32 ((readReg s rs1 + imm).toNat / 2 * 2)
    HasOpcode (.jalr rd rs1 imm) 0x0000707F#32 0x00000067#32 ∧
    ((readReg s rs1 + imm).getLsbD 1 = false → CompletesWriting s (exec (.jalr rd rs1 imm) s) rd (s.pc + 4#32) target) ∧
    ((readReg s rs1 + imm).getLsbD 1 = true →
      Traps s (exec (.jalr rd rs1 imm) s) .instructionAddressMisaligned (some target))

/-- The six conditional branches: taken to an aligned target, taken to a misaligned one, not taken (`41_control_transfer.md` rules
R157 to R163). -/
def Obligations.ConditionalBranches : Prop :=
  ∀ (s : State) (rs1 rs2 : Reg) (imm : Word),
    let a := readReg s rs1
    let b := readReg s rs2
    (HasOpcode (.beq rs1 rs2 imm) 0x0000707F#32 0x00000063#32 ∧ BranchesOn s (exec (.beq rs1 rs2 imm) s) (a = b) imm) ∧
    (HasOpcode (.bne rs1 rs2 imm) 0x0000707F#32 0x00001063#32 ∧ BranchesOn s (exec (.bne rs1 rs2 imm) s) (a ≠ b) imm) ∧
    (HasOpcode (.blt rs1 rs2 imm) 0x0000707F#32 0x00004063#32 ∧
      BranchesOn s (exec (.blt rs1 rs2 imm) s) (a.toInt < b.toInt) imm) ∧
    (HasOpcode (.bge rs1 rs2 imm) 0x0000707F#32 0x00005063#32 ∧
      BranchesOn s (exec (.bge rs1 rs2 imm) s) (b.toInt ≤ a.toInt) imm) ∧
    (HasOpcode (.bltu rs1 rs2 imm) 0x0000707F#32 0x00006063#32 ∧
      BranchesOn s (exec (.bltu rs1 rs2 imm) s) (a.toNat < b.toNat) imm) ∧
    (HasOpcode (.bgeu rs1 rs2 imm) 0x0000707F#32 0x00007063#32 ∧
      BranchesOn s (exec (.bgeu rs1 rs2 imm) s) (b.toNat ≤ a.toNat) imm)

/-- A misaligned target belongs to the jump or taken branch; for JALR bit 1 of the sum decides; a branch not taken never raises
(`41_control_transfer.md` rule R152). -/
def Obligations.MisalignedTargetBelongsToJump : Prop :=
  ∀ s : State,
    (∀ (i : Instr) (target : Word), transferTarget s i = some target → target.toNat % 4 ≠ 0 →
      Traps s (exec i s) .instructionAddressMisaligned (some target)) ∧
    (∀ (rd rs1 : Reg) (imm target : Word), transferTarget s (.jalr rd rs1 imm) = some target →
      (target.toNat % 4 ≠ 0 ↔ (readReg s rs1 + imm).getLsbD 1 = true)) ∧
    (∀ (a b : Reg) (imm : Word), ∀ i ∈ [Instr.beq a b imm, .bne a b imm, .blt a b imm, .bge a b imm, .bltu a b imm, .bgeu a b imm],
      transferTarget s i = none → CompletesMovingPc s (exec i s) (s.pc + 4#32))

/-- A fetch fault at the target belongs to the target: the jump or taken branch completes, with its link written, and the next step
raises at the target (`41_control_transfer.md` rule R151). -/
def Obligations.FaultAtTargetBelongsToTarget : Prop :=
  ∀ (s : State) (i : Instr) (target : Word), transferTarget s i = some target → target.toNat % 4 = 0 →
    pmaLegal s.cfg target .word .fetch = false →
    ∃ t, exec i s = .next t ∧ t.pc = target ∧
      (∀ rd imm, i = .jal rd imm → WritesReg s rd (s.pc + 4#32) t) ∧
      (∀ rd rs1 imm, i = .jalr rd rs1 imm → WritesReg s rd (s.pc + 4#32) t) ∧
      Traps t (step t) .instructionAccessFault (some target)

/-! ## Loads and stores -/

/-- LB, LBU, LH, LHU and LW: the value of the bytes at `x[rs1] + imm`, extended, goes to `rd` and nothing else changes; otherwise the
exceptions of the access (`42_load_store.md` rules R181 to R185). -/
def Obligations.LoadsRead : Prop :=
  ∀ (s : State) (rd rs1 : Reg) (imm : Word),
    let ea := effectiveAddr s rs1 imm
    ea = BitVec.ofNat 32 ((readReg s rs1).toNat + imm.toNat) ∧
    (HasOpcode (.lb rd rs1 imm) 0x0000707F#32 0x00000003#32 ∧
      LoadRule s (.lb rd rs1 imm) rd .byte ea ((byteAt s ea).signExtend 32)) ∧
    (HasOpcode (.lh rd rs1 imm) 0x0000707F#32 0x00001003#32 ∧
      LoadRule s (.lh rd rs1 imm) rd .half ea ((halfAt s ea).signExtend 32)) ∧
    (HasOpcode (.lw rd rs1 imm) 0x0000707F#32 0x00002003#32 ∧ LoadRule s (.lw rd rs1 imm) rd .word ea (wordAt s ea)) ∧
    (HasOpcode (.lbu rd rs1 imm) 0x0000707F#32 0x00004003#32 ∧
      LoadRule s (.lbu rd rs1 imm) rd .byte ea ((byteAt s ea).setWidth 32)) ∧
    (HasOpcode (.lhu rd rs1 imm) 0x0000707F#32 0x00005003#32 ∧
      LoadRule s (.lhu rd rs1 imm) rd .half ea ((halfAt s ea).setWidth 32))

/-- SB, SH and SW: the low bytes of `x[rs2]` go to `x[rs1] + imm` on, every other byte and everything else is as before; otherwise
the exceptions of the access (`42_load_store.md` rules R186 to R188). -/
def Obligations.StoresWrite : Prop :=
  ∀ (s : State) (rs1 rs2 : Reg) (imm : Word),
    let ea := effectiveAddr s rs1 imm
    let v := readReg s rs2
    ea = BitVec.ofNat 32 ((readReg s rs1).toNat + imm.toNat) ∧
    (HasOpcode (.sb rs1 rs2 imm) 0x0000707F#32 0x00000023#32 ∧ StoreRule s (.sb rs1 rs2 imm) .byte ea [v.extractLsb' 0 8]) ∧
    (HasOpcode (.sh rs1 rs2 imm) 0x0000707F#32 0x00001023#32 ∧
      StoreRule s (.sh rs1 rs2 imm) .half ea (halfBytes s.cfg.endian v)) ∧
    (HasOpcode (.sw rs1 rs2 imm) 0x0000707F#32 0x00002023#32 ∧
      StoreRule s (.sw rs1 rs2 imm) .word ea (wordBytes s.cfg.endian v))

/-- Little-endian: byte `i` of the value, the least significant first, is at address `ea + i` (`20_memory.md` rule R44). -/
def Obligations.LittleEndianOrder : Prop :=
  ∀ (s : State) (n : Width) (rd rs1 rs2 : Reg) (imm : Word), s.cfg.endian = .little →
    let ea := effectiveAddr s rs1 imm
    (accessible s ea n .store = true → ∃ t, exec (storeOf n rs1 rs2 imm) s = .next t ∧
      ∀ i, i < widthBytes n → byteAt t (ea + BitVec.ofNat 32 i) = (readReg s rs2).extractLsb' (8 * i) 8) ∧
    (accessible s ea n .load = true → rd ≠ 0#5 → ∀ j ∈ loadsOf n rd rs1 imm, ∃ t, exec j s = .next t ∧
      ∀ i, i < widthBytes n → (readReg t rd).extractLsb' (8 * i) 8 = byteAt s (ea + BitVec.ofNat 32 i))

/-- Big-endian: byte `i` of the value, the most significant of its `n` bytes first, is at address `ea + i` (`20_memory.md` rule
R45). -/
def Obligations.BigEndianOrder : Prop :=
  ∀ (s : State) (n : Width) (rd rs1 rs2 : Reg) (imm : Word), s.cfg.endian = .big →
    let ea := effectiveAddr s rs1 imm
    (accessible s ea n .store = true → ∃ t, exec (storeOf n rs1 rs2 imm) s = .next t ∧
      ∀ i, i < widthBytes n → byteAt t (ea + BitVec.ofNat 32 i) = (readReg s rs2).extractLsb' (8 * (widthBytes n - 1 - i)) 8) ∧
    (accessible s ea n .load = true → rd ≠ 0#5 → ∀ j ∈ loadsOf n rd rs1 imm, ∃ t, exec j s = .next t ∧
      ∀ i, i < widthBytes n → (readReg t rd).extractLsb' (8 * (widthBytes n - 1 - i)) 8 = byteAt s (ea + BitVec.ofNat 32 i))

/-- Byte-address invariance: a byte stored in one byte order is loaded in any, and no step switches the order (`20_memory.md` rule
R43). -/
def Obligations.ByteAddressInvariance : Prop :=
  (∀ (s : State) (rs1 rs2 rd : Reg) (imm : Word), rd ≠ 0#5 → accessible s (effectiveAddr s rs1 imm) .byte .store = true →
    accessible s (effectiveAddr s rs1 imm) .byte .load = true →
    ∃ t, exec (.sb rs1 rs2 imm) s = .next t ∧ ∀ e : Endian,
      (∃ u, exec (.lbu rd rs1 imm) { t with cfg := { t.cfg with endian := e } } = .next u ∧
        readReg u rd = ((readReg s rs2).extractLsb' 0 8).setWidth 32) ∧
      (∃ u, exec (.lb rd rs1 imm) { t with cfg := { t.cfg with endian := e } } = .next u ∧
        readReg u rd = ((readReg s rs2).extractLsb' 0 8).signExtend 32)) ∧
  (∀ s t : State, step s = .next t → t.cfg.endian = s.cfg.endian)

/-- Mixed widths: after a store of any width, a load of any width, at any two addresses, in either byte order, sees byte by byte
the stored bytes where the two overlap and the bytes from before elsewhere; and the example of the rule (`20_memory.md` rule R46). -/
def Obligations.MixedWidthAccess : Prop :=
  State.reset.cfg.endian = .little ∧
  (∀ (s : State) (m n : Width) (rs1 rs2 rs3 rd : Reg) (imm imm' : Word), rd ≠ 0#5 →
    let e := s.cfg.endian
    let ea := effectiveAddr s rs1 imm
    let ea' := effectiveAddr s rs3 imm'
    accessible s ea m .store = true → accessible s ea' n .load = true →
    ∃ t, exec (storeOf m rs1 rs2 imm) s = .next t ∧ ∀ i ∈ loadsOf n rd rs3 imm', ∃ u, exec i t = .next u ∧
      ∀ k : Nat, k < widthBytes n →
        (∀ j : Nat, j < widthBytes m → ea' + BitVec.ofNat 32 k = ea + BitVec.ofNat 32 j →
          (readReg u rd).extractLsb' (8 * bytePlace e n k) 8 = (readReg s rs2).extractLsb' (8 * bytePlace e m j) 8) ∧
        ((∀ j : Nat, j < widthBytes m → ea' + BitVec.ofNat 32 k ≠ ea + BitVec.ofNat 32 j) →
          (readReg u rd).extractLsb' (8 * bytePlace e n k) 8 = byteAt s (ea' + BitVec.ofNat 32 k))) ∧
  ∀ (s : State) (base data rd : Reg), readReg s data = 0x11223344#32 → rd ≠ 0#5 →
    accessible s (readReg s base) .word .store = true → accessible s (readReg s base) .half .load = true →
    (∀ k : Nat, k < 4 → accessible s (readReg s base + BitVec.ofNat 32 k) .byte .load = true) →
    ∃ t, exec (.sw base data 0#32) s = .next t ∧
      (∀ (k : Nat) (little big : Word),
        [(0x44#32, 0x11#32), (0x33#32, 0x22#32), (0x22#32, 0x33#32), (0x11#32, 0x44#32)][k]? = some (little, big) →
        ∃ u, exec (.lbu rd base (BitVec.ofNat 32 k)) t = .next u ∧
          readReg u rd = if s.cfg.endian = .little then little else big) ∧
      ∃ u, exec (.lhu rd base 0#32) t = .next u ∧
        readReg u rd = if s.cfg.endian = .little then 0x3344#32 else 0x1122#32

/-- A load after a store of the same width at the same address gives the stored bits, whatever the byte order and the alignment
(`20_memory.md` rule R58). -/
def Obligations.LoadAfterStore : Prop :=
  ∀ (s : State) (n : Width) (rs1 rs2 rd : Reg) (imm : Word), rd ≠ 0#5 →
    accessible s (effectiveAddr s rs1 imm) n .store = true → accessible s (effectiveAddr s rs1 imm) n .load = true →
    ∃ t, exec (storeOf n rs1 rs2 imm) s = .next t ∧ ∀ i ∈ loadsOf n rd rs1 imm,
      ∃ u, exec i t = .next u ∧ ∀ k, k < 8 * widthBytes n → (readReg u rd).getLsbD k = (readReg s rs2).getLsbD k

/-- Misaligned accesses under each policy: the misalignment exception, the access fault, or completion (`20_memory.md` rule R49;
the policy per access is log entry 10). -/
def Obligations.MisalignedAccesses : Prop :=
  ∀ (s : State) (i : Instr) (k : AccessKind) (n : Width) (ea : Word), dataAccess s i = some (k, n, ea) →
    ea.toNat % widthBytes n ≠ 0 →
    (misalignedPolicy s.cfg ea n k = .trap →
      Traps s (exec i s) (if k = .load then .loadAddressMisaligned else .storeAddressMisaligned) (some ea)) ∧
    (misalignedPolicy s.cfg ea n k = .accessFault →
      Traps s (exec i s) (if k = .load then .loadAccessFault else .storeAccessFault) (some ea)) ∧
    (misalignedPolicy s.cfg ea n k = .support → pmaLegal s.cfg ea n k = true → touchesIO s.cfg ea n = false →
      ∃ t, exec i s = .next t ∧ t.pc = s.pc + 4#32 ∧ SameEnvironment s t)

/-- A naturally aligned data access never raises an address-misaligned exception, whatever the environment (`20_memory.md` rule
R48): its checks raise none, no run stops with one, no environment that resumes is handed one, and none is the instruction's own. -/
def Obligations.AlignedNeverMisaligned : Prop :=
  ∀ (s : State) (i : Instr) (k : AccessKind) (n : Width) (ea : Word), dataAccess s i = some (k, n, ea) →
    (n = .byte → ea.toNat % widthBytes n = 0) ∧
    (ea.toNat % widthBytes n = 0 →
      (∀ v, checkAccess s.cfg ea n k ≠ .raised { id := misalignedId k, value := v }) ∧
      (∀ x, exec i s = .fault (.trap x) → x.id ≠ .loadAddressMisaligned ∧ x.id ≠ .storeAddressMisaligned) ∧
      (∀ t x, exec i s = .next t → t.reported = some x → t.reported ≠ s.reported →
        x.id ≠ .loadAddressMisaligned ∧ x.id ≠ .storeAddressMisaligned) ∧
      (∀ id v, exceptionOf s i = some (id, v) → id ≠ .loadAddressMisaligned ∧ id ≠ .storeAddressMisaligned))

/-- A data access the address map refuses raises the access fault of its kind (`20_memory.md` rule R56; the map's form is log entry
21), unless its misalignment
comes first. -/
def Obligations.IllegalAccessFaults : Prop :=
  ∀ (s : State) (i : Instr) (k : AccessKind) (n : Width) (ea : Word), dataAccess s i = some (k, n, ea) →
    pmaLegal s.cfg ea n k = false → (ea.toNat % widthBytes n = 0 ∨ misalignedPolicy s.cfg ea n k = .support) →
    Traps s (exec i s) (if k = .load then .loadAccessFault else .storeAccessFault) (some ea)

/-- Only the three stores write memory: an instruction that is none of them and raises nothing leaves every byte and every mark of a
store as it was (`10_state.md` rule R32; `42_load_store.md` rule R180). -/
def Obligations.OnlyStoresWriteMemory : Prop :=
  ∀ (s t : State) (i : Instr), exceptionOf s i = none → exec i s = .next t →
    (∀ n ea, dataAccess s i ≠ some (.store, n, ea)) → SameMemory s t

/-- A load or store of a device's address that is otherwise legal has no meaning in the model (log entry 14: the model's choice). -/
def Obligations.DeviceAccessRefused : Prop :=
  ∀ (s : State) (i : Instr) (k : AccessKind) (n : Width) (ea : Word), dataAccess s i = some (k, n, ea) →
    exceptionOf s i = none → touchesIO s.cfg ea n = true → exec i s = .refused (.deviceAccess k ea)

/-! ## FENCE and HINTs -/

/-- FENCE, FENCE.TSO and PAUSE change nothing but `pc` (`43_memory_ordering.md` rules R203, R204; `45_hints.md` rule R231). -/
def Obligations.FencesMoveOn : Prop :=
  ∀ (s : State) (fm pred succ : BitVec 4) (rs1 rd : Reg),
    (HasOpcode (.fence fm pred succ rs1 rd) 0x0000707F#32 0x0000000F#32 ∧
      CompletesMovingPc s (exec (.fence fm pred succ rs1 rd) s) (s.pc + 4#32)) ∧
    (HasOpcode (.fenceTso rs1 rd) 0xFFF0707F#32 0x8330000F#32 ∧
      CompletesMovingPc s (exec (.fenceTso rs1 rd) s) (s.pc + 4#32)) ∧
    (encode .pause = 0x0100000F#32 ∧ CompletesMovingPc s (exec .pause s) (s.pc + 4#32))

/-- Every word with the opcode and `funct3` of FENCE executes as a fence, whatever its other bits (`30_encoding.md` rule R92). -/
def Obligations.EveryFenceWordExecutes : Prop :=
  ∀ (s : State) (w : Word), Fetches s w → w &&& 0x0000707F#32 = 0x0000000F#32 → CompletesMovingPc s (step s) (s.pc + 4#32)

/-- The fence modes: TSO for the one setting, every other setting a normal fence of its own sets, `rs1` and `rd` ignored
(`43_memory_ordering.md` rule R205). -/
def Obligations.FenceModes : Prop :=
  ∀ (fm pred succ : BitVec 4), fenceMode 0b1000#4 0b0011#4 0b0011#4 = .tso ∧
    (¬ (fm = 0b1000#4 ∧ pred = 0b0011#4 ∧ succ = 0b0011#4) →
      fenceMode fm pred succ = .normal ∧ ∀ a b, fenceOrders fm pred succ a b = fenceOrders 0b0000#4 pred succ a b) ∧
    ∀ (rs1 rd : Reg) (s : State), exec (.fence fm pred succ rs1 rd) s = exec (.fence 0b0000#4 pred succ 0#5 0#5) s

/-- What a fence guarantees: a normal fence its sets' pairs, none where a set is empty, TSO all but store before load, and a full
memory fence all that TSO does (`43_memory_ordering.md` rules R202, R204; log entry 16: a relation that no step reads). -/
def Obligations.FenceGuarantees : Prop :=
  (∀ (pred succ : BitVec 4) (a b : AccessClass), fenceOrders 0b0000#4 pred succ a b = (setHas pred a && setHas succ b)) ∧
  (∀ (succ : BitVec 4) (a b : AccessClass), fenceOrders 0b0000#4 0b0000#4 succ a b = false) ∧
  (∀ (pred : BitVec 4) (a b : AccessClass), fenceOrders 0b0000#4 pred 0b0000#4 a b = false) ∧
  (∀ a b : AccessClass, fenceOrders 0b1000#4 0b0011#4 0b0011#4 a b = true ↔
    (a = .read ∧ (b = .read ∨ b = .write)) ∨ (a = .write ∧ b = .write)) ∧
  (∀ a b : AccessClass, fenceOrders 0b1000#4 0b0011#4 0b0011#4 a b = true → fenceOrders 0b0000#4 0b0011#4 0b0011#4 a b = true)

/-- A word of Table 5 executes and changes nothing but `pc` (`45_hints.md` rule R226). -/
def Obligations.HintsChangeOnlyPc : Prop :=
  ∀ (s : State) (w : Word) (k : HintKind), Fetches s w → HintWord w k → CompletesMovingPc s (step s) (s.pc + 4#32)

/-- The code points of Table 5, by the pattern column and by decoding and looking at the operands, are the same, each with one
purpose (`45_hints.md` rule R228). -/
def Obligations.HintCodePoints : Prop :=
  ∀ (w : Word) (k : HintKind), HintWord w k ↔ ∃ i, decode w = .ok i ∧ hintKind i = some k

/-- NOP is one word, an ADDI that is no HINT, and changes nothing but `pc` (`40_integer_computational.md` rule R134). -/
def Obligations.NopChangesOnlyPc : Prop :=
  decode 0x00000013#32 = .ok (.addi 0#5 0#5 0#32) ∧ encode (.addi 0#5 0#5 0#32) = 0x00000013#32 ∧
  hintKind (.addi 0#5 0#5 0#32) = none ∧ ∀ s : State, Fetches s 0x00000013#32 → CompletesMovingPc s (step s) (s.pc + 4#32)

/-- Every integer computational instruction with `rd = x0` leaves the state as NOP does, and all of them but NOP are HINT code points
(`40_integer_computational.md` rule R135). -/
def Obligations.OtherNops : Prop :=
  ∀ i : Instr, integerDest i = some 0#5 →
    (∀ s : State, exec i s = exec (.addi 0#5 0#5 0#32) s) ∧
    (i.wf = true → encode i ≠ 0x00000013#32 → ∃ k, HintWord (encode i) k)

/-- What the pseudoinstructions MV, SEQZ, NOT, SNEZ, NEG and J do (`30_encoding.md` rules R98, R99). -/
def Obligations.Pseudoinstructions : Prop :=
  ∀ (s : State) (rd rs : Reg) (imm : Word),
    let v := readReg s rs
    CompletesWriting s (exec (pseudoMv rd rs) s) rd v (s.pc + 4#32) ∧
    CompletesWriting s (exec (pseudoSeqz rd rs) s) rd (if v = 0#32 then 1#32 else 0#32) (s.pc + 4#32) ∧
    CompletesWriting s (exec (pseudoSnez rd rs) s) rd (if v = 0#32 then 0#32 else 1#32) (s.pc + 4#32) ∧
    CompletesWriting s (exec (pseudoNot rd rs) s) rd (BitVec.ofNat 32 (4294967295 - v.toNat)) (s.pc + 4#32) ∧
    CompletesWriting s (exec (pseudoNeg rd rs) s) rd (BitVec.ofInt 32 (- v.toInt)) (s.pc + 4#32) ∧
    ((s.pc + imm).toNat % 4 = 0 → CompletesMovingPc s (exec (pseudoJ imm) s) (s.pc + imm)) ∧
    CompletesMovingPc s (exec pseudoNop s) (s.pc + 4#32)

/-- The branches with swapped operands: BGT, BLE, BGTU and BLEU (`30_encoding.md` rule R98). -/
def Obligations.SwappedBranches : Prop :=
  ∀ (s : State) (rs rt : Reg) (imm : Word),
    let a := readReg s rs
    let b := readReg s rt
    BranchesOn s (exec (pseudoBgt rs rt imm) s) (b.toInt < a.toInt) imm ∧
    BranchesOn s (exec (pseudoBle rs rt imm) s) (a.toInt ≤ b.toInt) imm ∧
    BranchesOn s (exec (pseudoBgtu rs rt imm) s) (b.toNat < a.toNat) imm ∧
    BranchesOn s (exec (pseudoBleu rs rt imm) s) (a.toNat ≤ b.toNat) imm

/-! ## Exceptions -/

/-- ECALL and EBREAK trap, always, with the triple of the instruction's own address (`60_exceptions.md` rules R248, R249). -/
def Obligations.SystemTraps : Prop :=
  ∀ s : State, Traps s (exec .ecall s) .environmentCall none ∧ Traps s (exec .ebreak s) .breakpoint (some s.pc)

/-- ECALL and EBREAK answer a next state where the environment resumes: the state it makes (`44_system.md` rules R216, R217;
`60_exceptions.md` rule R252). The form of `EnvTrap` is log entry 5, the record of the triple log entry 7, and that the environment's
writes set and remove no mark of a store log entry 13: the model's choices. -/
def Obligations.SystemCallsResume : Prop :=
  encode .ecall = 0x00000073#32 ∧ encode .ebreak = 0x00100073#32 ∧
  ∀ (s : State) (r : Resumption),
    (environmentAnswer s { id := .environmentCall, pc := s.pc, value := none } = some r →
      ∃ t, exec .ecall s = .next t ∧ ResumedFrom s { id := .environmentCall, pc := s.pc, value := none } r t) ∧
    (environmentAnswer s { id := .breakpoint, pc := s.pc, value := some s.pc } = some r →
      ∃ t, exec .ebreak s = .next t ∧ ResumedFrom s { id := .breakpoint, pc := s.pc, value := some s.pc } r t)

/-- Where the environment resumes, every exception of a step hands it the triple and the step gives the state it makes, and what
it answers is a function of the registers, the bytes of memory and the triple (`60_exceptions.md` rule R252). The form of `EnvTrap` is
log entry 5, the record of the triple log entry 7, and that the environment's writes set and remove no mark of a store log entry 13: the
model's choices. -/
def Obligations.TrapsResume : Prop :=
  (∀ (s : State) (r : Resumption), pmaLegal s.cfg s.pc .word .fetch = false →
    environmentAnswer s { id := .instructionAccessFault, pc := s.pc, value := some s.pc } = some r →
    ∃ t, step s = .next t ∧ ResumedFrom s { id := .instructionAccessFault, pc := s.pc, value := some s.pc } r t) ∧
  (∀ (s : State) (r : Resumption) w id v, Fetches s w → wordException s w = some (id, v) →
    environmentAnswer s { id := id, pc := s.pc, value := v } = some r →
    ∃ t, step s = .next t ∧ ResumedFrom s { id := id, pc := s.pc, value := v } r t) ∧
  (∀ (s t : State) (x : Trap), SameRegs s t → (∀ a : Word, byteAt t a = byteAt s a) → t.cfg.envTrap = s.cfg.envTrap →
    environmentAnswer t x = environmentAnswer s x)

/-- A fetch the address map refuses raises at `pc` (`60_exceptions.md` rule R242). -/
def Obligations.FetchAccessFault : Prop :=
  ∀ s : State, pmaLegal s.cfg s.pc .word .fetch = false → Traps s (step s) .instructionAccessFault (some s.pc)

/-- A reserved encoding raises IllegalInstruction with the word, or has no meaning, as `RESERVED_INSN` says; the words whose low two
bits are not 11, the all-zero and the all-one word are reserved (`60_exceptions.md` rule R243). -/
def Obligations.ReservedWordTraps : Prop :=
  (∀ (s : State) (w : Word), Fetches s w → decode w = .error (.reserved w) →
    (s.cfg.reservedInsn = .illegalInstruction → Traps s (step s) .illegalInstruction (some w)) ∧
    (s.cfg.reservedInsn = .unspecified → step s = .refused (.reservedEncoding w))) ∧
  (∀ w : Word, w.extractLsb' 0 2 ≠ 0b11#2 → decode w = .error (.reserved w)) ∧
  decode 0x00000000#32 = .error (.reserved 0x00000000#32) ∧ decode 0xFFFFFFFF#32 = .error (.reserved 0xFFFFFFFF#32)

/-- The exceptions of a step, each with its value, are those of the list and in its order, and there are no others
(`60_exceptions.md` rules R240, R251; the order is the spec's decision D13, log entry 11). -/
def Obligations.ExceptionsExactly : Prop :=
  ∀ s : State,
    (pmaLegal s.cfg s.pc .word .fetch = false → Traps s (step s) .instructionAccessFault (some s.pc)) ∧
    (∀ w : Word, Fetches s w →
      (∀ id v, wordException s w = some (id, v) → Traps s (step s) id v) ∧
      (wordException s w = none → ∀ f, step s ≠ .fault f))

/-- Traps are precise: a step that stops has the instruction's own address in its triple, stops only where the environment stops at
that triple, and gives no state, so nothing has changed (`60_exceptions.md` rules R252, R253). -/
def Obligations.FaultsReportOwnPc : Prop :=
  ∀ (s : State) (f : Fault), step s = .fault f →
    ∃ id v, f = .trap { id := id, pc := s.pc, value := v } ∧ environmentAnswer s { id := id, pc := s.pc, value := v } = none

/-- A fetch of bytes that a store of the run has written is refused, every store that is made marks the bytes it writes, and no step
takes a mark away (`20_memory.md` rule R61). -/
def Obligations.FetchOfStoredBytesRefused : Prop :=
  (∀ s : State, pmaLegal s.cfg s.pc .word .fetch = true → ¬ FetchesUnstored s → step s = .refused (.fetchOfStoredBytes s.pc)) ∧
  (∀ (s t : State) (n : Width) (rs1 rs2 : Reg) (imm : Word), exceptionOf s (storeOf n rs1 rs2 imm) = none →
    exec (storeOf n rs1 rs2 imm) s = .next t → ∀ a ∈ accessAddrs (effectiveAddr s rs1 imm) n, wasStored t a = true) ∧
  (∀ (s t : State) (a : Word), step s = .next t → wasStored s a = true → wasStored t a = true)

/-- A step is refused in three cases only: a fetch of bytes that a store wrote (log entry 13), a reserved word where `RESERVED_INSN` is
unspecified (log entry 15), and a device's address as the fetched instruction's own legal access (log entry 14). So where the
environment takes reserved words as illegal, has no devices, and the fetched bytes were not stored, every step goes on or traps. -/
def Obligations.NothingElseRefused : Prop :=
  (∀ (s : State) (x : Refusal), step s = .refused x →
    (x = .fetchOfStoredBytes s.pc ∧ pmaLegal s.cfg s.pc .word .fetch = true ∧ ¬ FetchesUnstored s) ∨
    (∃ w, Fetches s w ∧ decode w = .error (.reserved w) ∧ s.cfg.reservedInsn = .unspecified ∧ x = .reservedEncoding w) ∨
    (∃ w i k n ea, Fetches s w ∧ decode w = .ok i ∧ dataAccess s i = some (k, n, ea) ∧ exceptionOf s i = none ∧
      touchesIO s.cfg ea n = true ∧ x = .deviceAccess k ea)) ∧
  (∀ s : State, s.cfg.io = [] → s.cfg.reservedInsn = .illegalInstruction → FetchesUnstored s →
    (∃ t, step s = .next t) ∨ ∃ x, step s = .fault (.trap x))
end

