-- ==== Sys2Proof/Laws/Bytes.lean ====
section
/-! SUPPORT. Alignment as arithmetic, and the byte order operations: what each byte of a split value is, and that joining gives the
value back. -/

namespace Sys2Proof.Machine

open Sys2Proof

/-! ## Alignment -/

theorem isWordAligned_iff (a : Word) : isWordAligned a = true ↔ a.toNat % 4 = 0 := by
  rw [isWordAligned, beq_iff_eq, ← BitVec.toNat_inj]
  simp

/-- Natural alignment (`20_memory.md` rule R48). -/
theorem isAligned_iff (ea : Word) (n : Width) : isAligned ea n = true ↔ ea.toNat % widthBytes n = 0 := by
  cases n with
  | byte => simp [isAligned, widthBytes, Nat.mod_one]
  | half =>
    rw [isAligned, beq_iff_eq, ← BitVec.toNat_inj]
    simp [widthBytes]
  | word => exact isWordAligned_iff ea

/-- The sequential advance keeps `pc` a multiple of 4 (`10_state.md` rule R28). -/
theorem add_four_aligned {a : Word} (h : a.toNat % 4 = 0) : (a + 4#32).toNat % 4 = 0 := by
  simp only [BitVec.toNat_add, BitVec.toNat_ofNat]
  omega

/-! ## Bytes of a value -/

@[simp] theorem splitLittle_length (n : Nat) (v : Word) : (splitLittle n v).length = n := by
  induction n generalizing v with
  | zero => rfl
  | succ n ih => simp [splitLittle, ih]

/-- Byte `k` of a value, the least significant first (`20_memory.md` rule R44). -/
theorem splitLittle_getElem? (n : Nat) (v : Word) (k : Nat) :
    (splitLittle n v)[k]? = if k < n then some ((v >>> (8 * k)).setWidth 8) else none := by
  induction n generalizing v k with
  | zero => simp [splitLittle]
  | succ n ih =>
    cases k with
    | zero => simp [splitLittle]
    | succ k =>
      have : v >>> 8 >>> (8 * k) = v >>> (8 * (k + 1)) := by
        rw [← BitVec.shiftRight_add, Nat.mul_succ, Nat.add_comm]
      simp [splitLittle, ih, this]

@[simp] theorem splitBytes_length (e : Endian) (n : Width) (v : Word) : (splitBytes e n v).length = widthBytes n := by
  cases e <;> simp [splitBytes]

@[simp] theorem accessAddrs_length (ea : Word) (n : Width) : (accessAddrs ea n).length = widthBytes n := by
  cases n <;> rfl

/-- The addresses of an access are `ea + k`. -/
theorem mem_accessAddrs (ea a : Word) (n : Width) :
    a ∈ accessAddrs ea n ↔ ∃ k : Nat, k < widthBytes n ∧ a = ea + BitVec.ofNat 32 k := by
  constructor
  · intro h
    cases n <;> simp only [accessAddrs, List.mem_cons, List.not_mem_nil, or_false] at h
    · exact ⟨0, by decide, by simp [h]⟩
    · rcases h with rfl | rfl
      · exact ⟨0, by decide, by simp⟩
      · exact ⟨1, by decide, rfl⟩
    · rcases h with rfl | rfl | rfl | rfl
      · exact ⟨0, by decide, by simp⟩
      · exact ⟨1, by decide, rfl⟩
      · exact ⟨2, by decide, rfl⟩
      · exact ⟨3, by decide, rfl⟩
  · rintro ⟨k, hk, rfl⟩
    cases n <;> simp only [widthBytes] at hk <;> interval_cases k <;> simp [accessAddrs]

/-- Joining the four bytes of a word gives the word. -/
theorem joinLittle_splitLittle (v : Word) : joinLittle (splitLittle 4 v) = v := by
  apply BitVec.eq_of_getLsbD_eq
  intro i hi
  simp only [splitLittle, joinLittle, BitVec.getLsbD_or, BitVec.getLsbD_shiftLeft, BitVec.getLsbD_setWidth,
    BitVec.getLsbD_ushiftRight]
  interval_cases i <;> simp

/-- A byte comes back whatever the byte order (`20_memory.md` rule R43). -/
theorem joinBytes_single (e : Endian) (b : Byte) : joinBytes e [b] = b.setWidth 32 := by
  cases e <;> simp [joinBytes, joinLittle]

/-- The bytes a load joins are the bytes a store of the same order split. -/
theorem joinBytes_splitBytes_word (e : Endian) (v : Word) : joinBytes e (splitBytes e .word v) = v := by
  cases e <;> simp [joinBytes, splitBytes, widthBytes, joinLittle_splitLittle]

/-- The bytes of an instruction word make the word. -/
theorem instWord_instBytes (w : Word) :
    instWord (w.extractLsb' 0 8) (w.extractLsb' 8 8) (w.extractLsb' 16 8) (w.extractLsb' 24 8) = w := by
  apply BitVec.eq_of_getLsbD_eq
  intro i hi
  simp only [instWord, BitVec.getLsbD_append, BitVec.getLsbD_extractLsb']
  interval_cases i <;> simp

end Sys2Proof.Machine
end

