-- ==== Sys2Proof/Laws/Decode.lean ====
section
/-! SUPPORT. What each encoding format puts where: the opcode bits under the masks of the listing, and each field and immediate
read back (`30_encoding.md` rules R72 to R87). -/

namespace Sys2Proof

/-! ## Opcode bits -/

theorem encodeI_mask (imm : Word) (rs1 rd : Reg) (f : BitVec 3) (op : BitVec 7) : encodeI imm rs1 f rd op &&& 0x0000707F#32 = (f.setWidth 32 <<< 12) ||| op.setWidth 32 := by
  apply BitVec.eq_of_getLsbD_eq
  intro i hi
  simp only [encodeI, BitVec.getLsbD_and, BitVec.getLsbD_append, BitVec.getLsbD_or, BitVec.getLsbD_shiftLeft,
    BitVec.getLsbD_setWidth]
  interval_cases i <;> simp

theorem encodeS_mask (imm : Word) (rs1 rs2 : Reg) (f : BitVec 3) (op : BitVec 7) : encodeS imm rs2 rs1 f op &&& 0x0000707F#32 = (f.setWidth 32 <<< 12) ||| op.setWidth 32 := by
  apply BitVec.eq_of_getLsbD_eq
  intro i hi
  simp only [encodeS, BitVec.getLsbD_and, BitVec.getLsbD_append, BitVec.getLsbD_or, BitVec.getLsbD_shiftLeft,
    BitVec.getLsbD_setWidth]
  interval_cases i <;> simp

theorem encodeB_mask (imm : Word) (rs1 rs2 : Reg) (f : BitVec 3) (op : BitVec 7) : encodeB imm rs2 rs1 f op &&& 0x0000707F#32 = (f.setWidth 32 <<< 12) ||| op.setWidth 32 := by
  apply BitVec.eq_of_getLsbD_eq
  intro i hi
  simp only [encodeB, BitVec.getLsbD_and, BitVec.getLsbD_append, BitVec.getLsbD_or, BitVec.getLsbD_shiftLeft,
    BitVec.getLsbD_setWidth]
  interval_cases i <;> simp

theorem encodeR_mask (g : BitVec 7) (rs2 rs1 rd : Reg) (f : BitVec 3) (op : BitVec 7) : encodeR g rs2 rs1 f rd op &&& 0xFE00707F#32 = (g.setWidth 32 <<< 25) ||| (f.setWidth 32 <<< 12) ||| op.setWidth 32 := by
  apply BitVec.eq_of_getLsbD_eq
  intro i hi
  simp only [encodeR, BitVec.getLsbD_and, BitVec.getLsbD_append, BitVec.getLsbD_or, BitVec.getLsbD_shiftLeft,
    BitVec.getLsbD_setWidth]
  interval_cases i <;> simp

theorem encodeU_mask (imm : Word) (rd : Reg) (op : BitVec 7) : encodeU imm rd op &&& 0x0000007F#32 = op.setWidth 32 := by
  apply BitVec.eq_of_getLsbD_eq
  intro i hi
  simp only [encodeU, BitVec.getLsbD_and, BitVec.getLsbD_append, BitVec.getLsbD_setWidth]
  interval_cases i <;> simp

theorem encodeJ_mask (imm : Word) (rd : Reg) (op : BitVec 7) : encodeJ imm rd op &&& 0x0000007F#32 = op.setWidth 32 := by
  apply BitVec.eq_of_getLsbD_eq
  intro i hi
  simp only [encodeJ, BitVec.getLsbD_and, BitVec.getLsbD_append, BitVec.getLsbD_setWidth]
  interval_cases i <;> simp

theorem encodeFence_mask (fm p q : BitVec 4) (rs1 rd : Reg) : encodeFence fm p q rs1 rd &&& 0x0000707F#32 = 0x0000000F#32 := by
  apply BitVec.eq_of_getLsbD_eq
  intro i hi
  simp only [encodeFence, BitVec.getLsbD_and, BitVec.getLsbD_append]
  interval_cases i <;> simp

/-- The bits FENCE.TSO and PAUSE fix beyond FENCE's own. -/
theorem encodeFence_maskTso (fm p q : BitVec 4) (rs1 rd : Reg) :
    encodeFence fm p q rs1 rd &&& 0xFFF0707F#32 =
      (fm.setWidth 32 <<< 28) ||| (p.setWidth 32 <<< 24) ||| (q.setWidth 32 <<< 20) ||| 0x0000000F#32 := by
  apply BitVec.eq_of_getLsbD_eq
  intro i hi
  simp only [encodeFence, BitVec.getLsbD_and, BitVec.getLsbD_append, BitVec.getLsbD_or, BitVec.getLsbD_shiftLeft,
    BitVec.getLsbD_setWidth]
  interval_cases i <;> simp

/-! ## Fields -/

@[simp] theorem rdOf_encodeI (imm : Word) (rs1 rd : Reg) (f : BitVec 3) (op : BitVec 7) : rdOf (encodeI imm rs1 f rd op) = rd := by
  apply BitVec.eq_of_getLsbD_eq
  intro i hi
  simp only [encodeI, rdOf, BitVec.getLsbD_append, BitVec.getLsbD_extractLsb']
  interval_cases i <;> simp

@[simp] theorem rs1Of_encodeI (imm : Word) (rs1 rd : Reg) (f : BitVec 3) (op : BitVec 7) : rs1Of (encodeI imm rs1 f rd op) = rs1 := by
  apply BitVec.eq_of_getLsbD_eq
  intro i hi
  simp only [encodeI, rs1Of, BitVec.getLsbD_append, BitVec.getLsbD_extractLsb']
  interval_cases i <;> simp

@[simp] theorem rs1Of_encodeS (imm : Word) (rs1 rs2 : Reg) (f : BitVec 3) (op : BitVec 7) : rs1Of (encodeS imm rs2 rs1 f op) = rs1 := by
  apply BitVec.eq_of_getLsbD_eq
  intro i hi
  simp only [encodeS, rs1Of, BitVec.getLsbD_append, BitVec.getLsbD_extractLsb']
  interval_cases i <;> simp

@[simp] theorem rs2Of_encodeS (imm : Word) (rs1 rs2 : Reg) (f : BitVec 3) (op : BitVec 7) : rs2Of (encodeS imm rs2 rs1 f op) = rs2 := by
  apply BitVec.eq_of_getLsbD_eq
  intro i hi
  simp only [encodeS, rs2Of, BitVec.getLsbD_append, BitVec.getLsbD_extractLsb']
  interval_cases i <;> simp

@[simp] theorem rs1Of_encodeB (imm : Word) (rs1 rs2 : Reg) (f : BitVec 3) (op : BitVec 7) : rs1Of (encodeB imm rs2 rs1 f op) = rs1 := by
  apply BitVec.eq_of_getLsbD_eq
  intro i hi
  simp only [encodeB, rs1Of, BitVec.getLsbD_append, BitVec.getLsbD_extractLsb']
  interval_cases i <;> simp

@[simp] theorem rs2Of_encodeB (imm : Word) (rs1 rs2 : Reg) (f : BitVec 3) (op : BitVec 7) : rs2Of (encodeB imm rs2 rs1 f op) = rs2 := by
  apply BitVec.eq_of_getLsbD_eq
  intro i hi
  simp only [encodeB, rs2Of, BitVec.getLsbD_append, BitVec.getLsbD_extractLsb']
  interval_cases i <;> simp

@[simp] theorem rdOf_encodeU (imm : Word) (rd : Reg) (op : BitVec 7) : rdOf (encodeU imm rd op) = rd := by
  apply BitVec.eq_of_getLsbD_eq
  intro i hi
  simp only [encodeU, rdOf, BitVec.getLsbD_append, BitVec.getLsbD_extractLsb']
  interval_cases i <;> simp

@[simp] theorem rdOf_encodeJ (imm : Word) (rd : Reg) (op : BitVec 7) : rdOf (encodeJ imm rd op) = rd := by
  apply BitVec.eq_of_getLsbD_eq
  intro i hi
  simp only [encodeJ, rdOf, BitVec.getLsbD_append, BitVec.getLsbD_extractLsb']
  interval_cases i <;> simp

@[simp] theorem rdOf_encodeR (g : BitVec 7) (rs2 rs1 rd : Reg) (f : BitVec 3) (op : BitVec 7) : rdOf (encodeR g rs2 rs1 f rd op) = rd := by
  apply BitVec.eq_of_getLsbD_eq
  intro i hi
  simp only [encodeR, rdOf, BitVec.getLsbD_append, BitVec.getLsbD_extractLsb']
  interval_cases i <;> simp

@[simp] theorem rs1Of_encodeR (g : BitVec 7) (rs2 rs1 rd : Reg) (f : BitVec 3) (op : BitVec 7) : rs1Of (encodeR g rs2 rs1 f rd op) = rs1 := by
  apply BitVec.eq_of_getLsbD_eq
  intro i hi
  simp only [encodeR, rs1Of, BitVec.getLsbD_append, BitVec.getLsbD_extractLsb']
  interval_cases i <;> simp

@[simp] theorem rs2Of_encodeR (g : BitVec 7) (rs2 rs1 rd : Reg) (f : BitVec 3) (op : BitVec 7) : rs2Of (encodeR g rs2 rs1 f rd op) = rs2 := by
  apply BitVec.eq_of_getLsbD_eq
  intro i hi
  simp only [encodeR, rs2Of, BitVec.getLsbD_append, BitVec.getLsbD_extractLsb']
  interval_cases i <;> simp

@[simp] theorem rdOf_encodeFence (fm p q : BitVec 4) (rs1 rd : Reg) : rdOf (encodeFence fm p q rs1 rd) = rd := by
  apply BitVec.eq_of_getLsbD_eq
  intro i hi
  simp only [encodeFence, rdOf, BitVec.getLsbD_append, BitVec.getLsbD_extractLsb']
  interval_cases i <;> simp

@[simp] theorem rs1Of_encodeFence (fm p q : BitVec 4) (rs1 rd : Reg) : rs1Of (encodeFence fm p q rs1 rd) = rs1 := by
  apply BitVec.eq_of_getLsbD_eq
  intro i hi
  simp only [encodeFence, rs1Of, BitVec.getLsbD_append, BitVec.getLsbD_extractLsb']
  interval_cases i <;> simp

@[simp] theorem fmOf_encodeFence (fm p q : BitVec 4) (rs1 rd : Reg) : fmOf (encodeFence fm p q rs1 rd) = fm := by
  apply BitVec.eq_of_getLsbD_eq
  intro i hi
  simp only [encodeFence, fmOf, BitVec.getLsbD_append, BitVec.getLsbD_extractLsb']
  interval_cases i <;> simp

@[simp] theorem predOf_encodeFence (fm p q : BitVec 4) (rs1 rd : Reg) : predOf (encodeFence fm p q rs1 rd) = p := by
  apply BitVec.eq_of_getLsbD_eq
  intro i hi
  simp only [encodeFence, predOf, BitVec.getLsbD_append, BitVec.getLsbD_extractLsb']
  interval_cases i <;> simp

@[simp] theorem succOf_encodeFence (fm p q : BitVec 4) (rs1 rd : Reg) : succOf (encodeFence fm p q rs1 rd) = q := by
  apply BitVec.eq_of_getLsbD_eq
  intro i hi
  simp only [encodeFence, succOf, BitVec.getLsbD_append, BitVec.getLsbD_extractLsb']
  interval_cases i <;> simp

@[simp] theorem shamtOf_encodeR (g : BitVec 7) (rs2 rs1 rd : Reg) (f : BitVec 3) (op : BitVec 7) :
    shamtOf (encodeR g rs2 rs1 f rd op) = rs2 := rs2Of_encodeR g rs2 rs1 rd f op

/-! ## Immediates -/

theorem immI_encodeI (imm : Word) (rs1 rd : Reg) (f : BitVec 3) (op : BitVec 7) (h : isImm12 imm = true) :
    immI (encodeI imm rs1 f rd op) = imm := by
  simp only [isImm12, beq_iff_eq] at h
  rw [immI]
  conv_rhs => rw [← h]
  congr 1
  apply BitVec.eq_of_getLsbD_eq
  intro i hi
  simp only [encodeI, BitVec.getLsbD_append, BitVec.getLsbD_extractLsb', BitVec.getLsbD_setWidth]
  interval_cases i <;> simp

theorem immS_encodeS (imm : Word) (rs1 rs2 : Reg) (f : BitVec 3) (op : BitVec 7) (h : isImm12 imm = true) :
    immS (encodeS imm rs2 rs1 f op) = imm := by
  simp only [isImm12, beq_iff_eq] at h
  rw [immS]
  conv_rhs => rw [← h]
  congr 1
  apply BitVec.eq_of_getLsbD_eq
  intro i hi
  simp only [encodeS, BitVec.getLsbD_append, BitVec.getLsbD_extractLsb', BitVec.getLsbD_setWidth]
  interval_cases i <;> simp

theorem immB_encodeB (imm : Word) (rs1 rs2 : Reg) (f : BitVec 3) (op : BitVec 7) (h : isImmB imm = true) :
    immB (encodeB imm rs2 rs1 f op) = imm := by
  simp only [isImmB, Bool.and_eq_true, beq_iff_eq, Bool.not_eq_true'] at h
  obtain ⟨h, h0⟩ := h
  have h0 : imm[0] = false := by simpa using h0
  rw [immB]
  conv_rhs => rw [← h]
  congr 1
  apply BitVec.eq_of_getLsbD_eq
  intro i hi
  simp only [encodeB, BitVec.getLsbD_append, BitVec.getLsbD_extractLsb', BitVec.getLsbD_setWidth]
  interval_cases i <;> simp [h0]

theorem immJ_encodeJ (imm : Word) (rd : Reg) (op : BitVec 7) (h : isImmJ imm = true) :
    immJ (encodeJ imm rd op) = imm := by
  simp only [isImmJ, Bool.and_eq_true, beq_iff_eq, Bool.not_eq_true'] at h
  obtain ⟨h, h0⟩ := h
  have h0 : imm[0] = false := by simpa using h0
  rw [immJ]
  conv_rhs => rw [← h]
  congr 1
  apply BitVec.eq_of_getLsbD_eq
  intro i hi
  simp only [encodeJ, BitVec.getLsbD_append, BitVec.getLsbD_extractLsb', BitVec.getLsbD_setWidth]
  interval_cases i <;> simp [h0]

theorem immU_encodeU (imm : Word) (rd : Reg) (op : BitVec 7) (h : isImmU imm = true) : immU (encodeU imm rd op) = imm := by
  simp only [isImmU, beq_iff_eq] at h
  have hl : ∀ i < 12, imm.getLsbD i = false := by
    intro i hi
    have := congrArg (fun x : BitVec 12 => x.getLsbD i) h
    simpa [hi] using this
  apply BitVec.eq_of_getLsbD_eq
  intro i hi
  simp only [encodeU, immU, BitVec.getLsbD_append, BitVec.getLsbD_extractLsb']
  by_cases h12 : i < 12
  · simp [h12, hl i h12]
  · interval_cases i <;> simp_all

end Sys2Proof
end

