-- ==== Sys2Proof/Laws/Memory.lean ====
section
/-! SUPPORT. Memory and the set of stored addresses: every operation keeps the canonical form; a read after a write; the bytes a
write leaves alone. -/

namespace Sys2Proof.Machine

open Sys2Proof

/-! ## Canonical form -/

theorem cellsWf_mono {lo hi : Nat} (h : lo ≤ hi) {cs : List Host.Cell} (hw : cellsWf hi cs = true) : cellsWf lo cs = true := by
  cases cs with
  | nil => rfl
  | cons c cs =>
    simp only [cellsWf, Bool.and_eq_true, decide_eq_true_eq] at hw ⊢
    exact ⟨⟨h.trans hw.1.1, hw.1.2⟩, hw.2⟩

theorem cellsWf_insertCell {lo a : Nat} {b : Byte} {cs : List Host.Cell} (hlo : lo ≤ a) (ha : a < 4294967296)
    (hw : cellsWf lo cs = true) : cellsWf lo (insertCell a b cs) = true := by
  induction cs generalizing lo with
  | nil => simp [insertCell, cellsWf, hlo, ha]
  | cons c cs ih =>
    simp only [cellsWf, Bool.and_eq_true, decide_eq_true_eq] at hw
    obtain ⟨⟨h1, h2⟩, h3⟩ := hw
    unfold insertCell
    split
    · rename_i hlt
      simp [cellsWf, hlo, ha, h2, h3, Nat.succ_le_of_lt hlt]
    · split
      · rename_i heq
        simp [cellsWf, heq, h1, h2, h3]
      · rename_i hn hne
        have := ih (lo := c.1 + 1) (by omega) h3
        simp [cellsWf, h1, h2, this]

/-- Storing a byte keeps memory in canonical form. -/
theorem writeByte_wf {m : Memory} (h : m.wf = true) (a : Word) (b : Byte) : (writeByte m a b).wf = true :=
  cellsWf_insertCell (Nat.zero_le _) a.isLt h

/-- Storing bytes keeps memory in canonical form. -/
theorem writeBytes_wf {m : Memory} (h : m.wf = true) (a : Word) (bs : List Byte) : (writeBytes m a bs).wf = true := by
  induction bs generalizing m a with
  | nil => exact h
  | cons b bs ih => exact ih (writeByte_wf h a b) _

/-- The environment's writes keep memory in canonical form. -/
theorem applyMemWrites_wf {m : Memory} (h : m.wf = true) (ws : List (Word × Byte)) : (applyMemWrites m ws).wf = true := by
  induction ws generalizing m with
  | nil => exact h
  | cons w ws ih => exact ih (writeByte_wf h _ _)

theorem addrsWf_insertAddr {lo a : Nat} {cs : List Nat} (hlo : lo ≤ a) (ha : a < 4294967296)
    (hw : addrsWf lo cs = true) : addrsWf lo (insertAddr a cs) = true := by
  induction cs generalizing lo with
  | nil => simp [insertAddr, addrsWf, hlo, ha]
  | cons c cs ih =>
    simp only [addrsWf, Bool.and_eq_true, decide_eq_true_eq] at hw
    obtain ⟨⟨h1, h2⟩, h3⟩ := hw
    unfold insertAddr
    split
    · rename_i hlt
      simp [addrsWf, hlo, ha, h2, h3, Nat.succ_le_of_lt hlt]
    · split
      · simp [addrsWf, h1, h2, h3]
      · have := ih (lo := c + 1) (by omega) h3
        simp [addrsWf, h1, h2, this]

/-- Marking addresses keeps the set of stored addresses in canonical form. -/
theorem markStored_wf {st : List Nat} (h : addrsWf 0 st = true) (as : List Word) : addrsWf 0 (markStored st as) = true := by
  induction as generalizing st with
  | nil => exact h
  | cons a as ih => exact ih (addrsWf_insertAddr (Nat.zero_le _) a.isLt h)

theorem addrsWf_mono {lo hi : Nat} (h : lo ≤ hi) {cs : List Nat} (hw : addrsWf hi cs = true) : addrsWf lo cs = true := by
  cases cs with
  | nil => rfl
  | cons c cs =>
    simp only [addrsWf, Bool.and_eq_true, decide_eq_true_eq] at hw ⊢
    exact ⟨⟨h.trans hw.1.1, hw.1.2⟩, hw.2⟩

theorem addrsWf_removeAddr {lo a : Nat} {cs : List Nat} (hw : addrsWf lo cs = true) : addrsWf lo (removeAddr a cs) = true := by
  induction cs generalizing lo with
  | nil => rfl
  | cons c cs ih =>
    have hw' := hw
    simp only [addrsWf, Bool.and_eq_true, decide_eq_true_eq] at hw'
    obtain ⟨⟨h1, h2⟩, h3⟩ := hw'
    unfold removeAddr
    split
    · exact addrsWf_mono (by omega) (ih h3)
    · simp [addrsWf, h1, h2, ih h3]

/-! ## The listed byte -/

/-- The byte listed for an address after one is listed. -/
theorem lookupCell_insertCell (a a' : Nat) (b : Byte) (cs : List Host.Cell) :
    lookupCell a' (insertCell a b cs) = if a' = a then some b else lookupCell a' cs := by
  induction cs with
  | nil =>
    by_cases h : a' = a
    · simp [insertCell, lookupCell, h]
    · simp [insertCell, lookupCell, h, Ne.symm h]
  | cons c cs ih =>
    unfold insertCell
    split
    · by_cases h : a' = a
      · simp [lookupCell, h]
      · simp [lookupCell, h, Ne.symm h]
    · split
      · rename_i heq
        by_cases h : a' = a
        · simp [lookupCell, h]
        · have : c.1 ≠ a' := fun e => h (e ▸ heq.symm)
          simp [lookupCell, h, Ne.symm h, this]
      · rename_i hne
        by_cases h : a' = a
        · subst h
          simp [lookupCell, ih, Ne.symm hne]
        · simp [lookupCell, ih, h]

/-- A byte read after a byte write. -/
theorem readByte_writeByte (m : Memory) (a a' : Word) (b : Byte) :
    readByte (writeByte m a b) a' = if a' = a then b else readByte m a' := by
  by_cases h : a' = a
  · subst h
    simp [readByte, writeByte, lookupCell_insertCell]
  · have : a'.toNat ≠ a.toNat := fun e => h (BitVec.eq_of_toNat_eq e)
    simp [readByte, writeByte, lookupCell_insertCell, h, this]

/-- A byte written elsewhere is left alone. -/
theorem readByte_writeBytes_outside (m : Memory) (a x : Word) (bs : List Byte)
    (h : ∀ k : Nat, k < bs.length → x ≠ a + BitVec.ofNat 32 k) : readByte (writeBytes m a bs) x = readByte m x := by
  induction bs generalizing m a with
  | nil => rfl
  | cons b bs ih =>
    have hx : x ≠ a := by simpa using h 0 (by simp)
    rw [writeBytes, ih, readByte_writeByte, if_neg hx]
    intro k hk
    have := h (k + 1) (by simpa using hk)
    rw [BitVec.add_assoc]
    simpa [BitVec.ofNat_add, BitVec.add_comm] using this

/-- A listed address stays listed. -/
theorem lookupCell_isSome_insertCell {a a' : Nat} {b : Byte} {cs : List Host.Cell} (h : (lookupCell a' cs).isSome = true) :
    (lookupCell a' (insertCell a b cs)).isSome = true := by
  rw [lookupCell_insertCell]
  split
  · rfl
  · exact h

/-! ## The set of stored addresses -/

/-- Membership after an address is put in. -/
theorem mem_insertAddr (a x : Nat) (cs : List Nat) : x ∈ insertAddr a cs ↔ x = a ∨ x ∈ cs := by
  induction cs with
  | nil => simp [insertAddr]
  | cons c cs ih =>
    unfold insertAddr
    split
    · simp
    · split
      · rename_i h
        subst h
        simp
      · simp only [List.mem_cons, ih]
        tauto

/-- Membership after addresses are marked. -/
theorem mem_markStored (x : Nat) (st : List Nat) (as : List Word) :
    x ∈ markStored st as ↔ x ∈ st ∨ ∃ a ∈ as, x = a.toNat := by
  induction as generalizing st with
  | nil => simp [markStored]
  | cons a as ih =>
    simp only [markStored, ih, mem_insertAddr, List.mem_cons, exists_eq_or_imp]
    tauto

/-- An address taken out is in the set no more. -/
theorem not_mem_removeAddr (a : Nat) (cs : List Nat) : a ∉ removeAddr a cs := by
  induction cs with
  | nil => simp [removeAddr]
  | cons c cs ih =>
    unfold removeAddr
    split
    · exact ih
    · rename_i h
      simp [h, ih]

/-- Taking an address out adds none. -/
theorem mem_of_mem_removeAddr {a x : Nat} {cs : List Nat} (h : x ∈ removeAddr a cs) : x ∈ cs := by
  induction cs with
  | nil => simp [removeAddr] at h
  | cons c cs ih =>
    unfold removeAddr at h
    split at h
    · exact List.mem_cons_of_mem _ (ih h)
    · rcases List.mem_cons.1 h with rfl | h
      · simp
      · exact List.mem_cons_of_mem _ (ih h)

end Sys2Proof.Machine
end

