-- ==== Sys2Proof/Laws/State.lean ====
section
/-! SUPPORT. One lemma per field of State per update, and what a register read gives after an update. -/

namespace Sys2Proof.Machine

open Sys2Proof

/-! ## setPc and advance -/

@[simp] theorem setPc_regs (s : State) (t : Word) : (setPc s t).regs = s.regs := rfl
@[simp] theorem setPc_mem (s : State) (t : Word) : (setPc s t).mem = s.mem := rfl
@[simp] theorem setPc_stored (s : State) (t : Word) : (setPc s t).stored = s.stored := rfl
@[simp] theorem setPc_cfg (s : State) (t : Word) : (setPc s t).cfg = s.cfg := rfl
@[simp] theorem setPc_reported (s : State) (t : Word) : (setPc s t).reported = s.reported := rfl
@[simp] theorem setPc_pc (s : State) (t : Word) : (setPc s t).pc = t := rfl
@[simp] theorem advance_regs (s : State) : (advance s).regs = s.regs := rfl
@[simp] theorem advance_mem (s : State) : (advance s).mem = s.mem := rfl
@[simp] theorem advance_stored (s : State) : (advance s).stored = s.stored := rfl
@[simp] theorem advance_cfg (s : State) : (advance s).cfg = s.cfg := rfl
@[simp] theorem advance_reported (s : State) : (advance s).reported = s.reported := rfl
@[simp] theorem advance_pc (s : State) : (advance s).pc = s.pc + 4#32 := rfl

/-! ## writeReg -/

@[simp] theorem writeReg_pc (s : State) (r : Reg) (v : Word) : (writeReg s r v).pc = s.pc := by unfold writeReg; split <;> rfl
@[simp] theorem writeReg_mem (s : State) (r : Reg) (v : Word) : (writeReg s r v).mem = s.mem := by unfold writeReg; split <;> rfl
@[simp] theorem writeReg_stored (s : State) (r : Reg) (v : Word) : (writeReg s r v).stored = s.stored := by unfold writeReg; split <;> rfl
@[simp] theorem writeReg_cfg (s : State) (r : Reg) (v : Word) : (writeReg s r v).cfg = s.cfg := by unfold writeReg; split <;> rfl
@[simp] theorem writeReg_reported (s : State) (r : Reg) (v : Word) : (writeReg s r v).reported = s.reported := by unfold writeReg; split <;> rfl
@[simp] theorem writeReg_zero (s : State) (v : Word) : writeReg s 0#5 v = s := rfl

/-! ## storeValue, placeInstruction, resumeFrom -/

@[simp] theorem storeValue_regs (s : State) (ea : Word) (n : Width) (v : Word) : (storeValue s ea n v).regs = s.regs := rfl
@[simp] theorem storeValue_pc (s : State) (ea : Word) (n : Width) (v : Word) : (storeValue s ea n v).pc = s.pc := rfl
@[simp] theorem storeValue_cfg (s : State) (ea : Word) (n : Width) (v : Word) : (storeValue s ea n v).cfg = s.cfg := rfl
@[simp] theorem storeValue_reported (s : State) (ea : Word) (n : Width) (v : Word) : (storeValue s ea n v).reported = s.reported := rfl
@[simp] theorem storeValue_mem (s : State) (ea : Word) (n : Width) (v : Word) :
    (storeValue s ea n v).mem = writeBytes s.mem ea (splitBytes s.cfg.endian n v) := rfl
@[simp] theorem storeValue_stored (s : State) (ea : Word) (n : Width) (v : Word) :
    (storeValue s ea n v).stored = markStored s.stored (accessAddrs ea n) := rfl
@[simp] theorem placeInstruction_regs (s : State) (w : Word) : (placeInstruction s w).regs = s.regs := rfl
@[simp] theorem placeInstruction_pc (s : State) (w : Word) : (placeInstruction s w).pc = s.pc := rfl
@[simp] theorem placeInstruction_reported (s : State) (w : Word) : (placeInstruction s w).reported = s.reported := rfl
@[simp] theorem placeInstruction_mem (s : State) (w : Word) :
    (placeInstruction s w).mem = writeBytes s.mem s.pc (instBytes w) := rfl
@[simp] theorem placeInstruction_stored (s : State) (w : Word) :
    (placeInstruction s w).stored = unmark s.stored (accessAddrs s.pc .word) := rfl
@[simp] theorem placeInstruction_cfg (s : State) (w : Word) : (placeInstruction s w).cfg = admitFetchAt s.cfg s.pc := rfl
@[simp] theorem applyRegWrites_pc (s : State) (ws : List (Reg × Word)) : (applyRegWrites s ws).pc = s.pc := by
  induction ws generalizing s with
  | nil => rfl
  | cons w ws ih => simp [applyRegWrites, ih]
@[simp] theorem applyRegWrites_mem (s : State) (ws : List (Reg × Word)) : (applyRegWrites s ws).mem = s.mem := by
  induction ws generalizing s with
  | nil => rfl
  | cons w ws ih => simp [applyRegWrites, ih]
@[simp] theorem applyRegWrites_stored (s : State) (ws : List (Reg × Word)) : (applyRegWrites s ws).stored = s.stored := by
  induction ws generalizing s with
  | nil => rfl
  | cons w ws ih => simp [applyRegWrites, ih]
@[simp] theorem applyRegWrites_cfg (s : State) (ws : List (Reg × Word)) : (applyRegWrites s ws).cfg = s.cfg := by
  induction ws generalizing s with
  | nil => rfl
  | cons w ws ih => simp [applyRegWrites, ih]
@[simp] theorem applyRegWrites_reported (s : State) (ws : List (Reg × Word)) : (applyRegWrites s ws).reported = s.reported := by
  induction ws generalizing s with
  | nil => rfl
  | cons w ws ih => simp [applyRegWrites, ih]
@[simp] theorem resumeFrom_regs (s : State) (t : Trap) (r : Resumption) :
    (resumeFrom s t r).regs = (applyRegWrites s r.regWrites).regs := rfl
@[simp] theorem resumeFrom_pc (s : State) (t : Trap) (r : Resumption) :
    (resumeFrom s t r).pc = r.pc := rfl
@[simp] theorem resumeFrom_mem (s : State) (t : Trap) (r : Resumption) :
    (resumeFrom s t r).mem = applyMemWrites s.mem r.memWrites := by simp [resumeFrom]
@[simp] theorem resumeFrom_stored (s : State) (t : Trap) (r : Resumption) :
    (resumeFrom s t r).stored = s.stored := by simp [resumeFrom]
@[simp] theorem resumeFrom_cfg (s : State) (t : Trap) (r : Resumption) :
    (resumeFrom s t r).cfg = s.cfg := by simp [resumeFrom]
@[simp] theorem resumeFrom_reported (s : State) (t : Trap) (r : Resumption) :
    (resumeFrom s t r).reported = some t := rfl

/-! ## Register reads -/

@[simp] theorem readReg_zero (s : State) : readReg s 0#5 = 0#32 := rfl

/-- A read depends on the registers alone. -/
theorem readReg_congr (s t : State) (h : t.regs = s.regs) (r : Reg) : readReg t r = readReg s r := by
  simp [readReg, h]

@[simp] theorem readReg_setPc (s : State) (t : Word) (r : Reg) : readReg (setPc s t) r = readReg s r := rfl
@[simp] theorem readReg_advance (s : State) (r : Reg) : readReg (advance s) r = readReg s r := rfl
@[simp] theorem readReg_storeValue (s : State) (ea : Word) (n : Width) (v : Word) (r : Reg) :
    readReg (storeValue s ea n v) r = readReg s r := rfl

/-- A register read after a register write (`10_state.md` rule R21 for register 0). -/
theorem readReg_writeReg (s : State) (rd r : Reg) (v : Word) :
    readReg (writeReg s rd v) r = if r = 0#5 then 0#32 else if r = rd then v else readReg s r := by
  by_cases hr : r = 0#5
  · simp [hr]
  · by_cases hd : rd = 0#5
    · subst hd
      simp [hr]
    · have hne : r ≠ rd → rd.toNat ≠ r.toNat := fun h e => h (BitVec.eq_of_toNat_eq e.symm)
      by_cases h : r = rd
      · subst h
        simp [readReg, writeReg, hr]
      · simp [readReg, writeReg, hr, hd, h, Vector.getElem_set_ne _ _ (hne h)]

/-- The slot of `x0` is never written (`10_state.md` rule R21). -/
@[simp] theorem writeReg_slot0 (s : State) (r : Reg) (v : Word) : (writeReg s r v).regs[0] = s.regs[0] := by
  by_cases h : r = 0#5
  · simp [writeReg, h]
  · have hne : r.toNat ≠ 0 := fun e => h (BitVec.eq_of_toNat_eq e)
    simp [writeReg, h, Vector.getElem_set_ne _ _ hne]

@[simp] theorem applyRegWrites_slot0 (s : State) (ws : List (Reg × Word)) : (applyRegWrites s ws).regs[0] = s.regs[0] := by
  induction ws generalizing s with
  | nil => rfl
  | cons w ws ih => simp [applyRegWrites, ih]

end Sys2Proof.Machine
end

