-- ==== Sys2Proof/Laws/Ops.lean ====
section
/-! SUPPORT. For each shared operation, one lemma that says everything it can do. -/

namespace Sys2Proof.Machine

open Sys2Proof

/-! ## Traps -/

/-- Taking a trap goes on only where the environment resumes. -/
theorem takeTrap_next {s t : State} {e : Raised} (h : takeTrap s e = .next t) :
    ∃ r, environmentAnswer s (trapOf s e) = some r ∧ t = resumeFrom s (trapOf s e) r := by
  unfold takeTrap at h
  split at h
  · rename_i r heq
    exact ⟨r, heq, (Host.Outcome.next.inj h).symm⟩
  · cases h

/-- Taking a trap stops with the triple where the environment stops. -/
theorem takeTrap_stops {s : State} (e : Raised) (h : environmentAnswer s (trapOf s e) = none) :
    takeTrap s e = .fault (.trap (trapOf s e)) := by
  simp [takeTrap, h]

/-- Taking a trap resumes where the environment does. -/
theorem takeTrap_resumes {s : State} (e : Raised) {r : Resumption} (h : environmentAnswer s (trapOf s e) = some r) :
    takeTrap s e = .next (resumeFrom s (trapOf s e) r) := by
  simp [takeTrap, h]

/-- A stop by a trap is the triple of the exception, at the state's own `pc`, and the environment stops at it. -/
theorem takeTrap_fault {s : State} {e : Raised} {f : Fault} (h : takeTrap s e = .fault f) :
    f = .trap (trapOf s e) ∧ environmentAnswer s (trapOf s e) = none := by
  unfold takeTrap at h
  split at h
  · cases h
  · exact ⟨(Host.Outcome.fault.inj h).symm, ‹_›⟩

/-- Taking a trap is never refused. -/
theorem takeTrap_not_refused {s : State} {e : Raised} {x : Refusal} : takeTrap s e ≠ .refused x := by
  unfold takeTrap
  split <;> simp

/-! ## The checks of a data access -/

/-- The access is made exactly where the environment lets it be. -/
theorem checkAccess_ok_iff (s : State) (ea : Word) (n : Width) (k : AccessKind) :
    checkAccess s.cfg ea n k = .ok () ↔ accessible s ea n k = true := by
  have hl : checkLegal s.cfg ea n k = .ok () ↔ (pmaLegal s.cfg ea n k && !touchesIO s.cfg ea n) = true := by
    unfold checkLegal
    split
    · split <;> simp_all
    · simp_all
  by_cases ha : isAligned ea n = true
  · have ha' := (isAligned_iff ea n).1 ha
    simp only [checkAccess, ha, if_true, accessible, ha', decide_true, Bool.true_or, Bool.true_and, hl]
  · have ha' : ¬ ea.toNat % widthBytes n = 0 := fun h => ha ((isAligned_iff ea n).2 h)
    simp only [checkAccess, ha, accessible, ha', decide_false, Bool.false_or]
    cases hp : misalignedPolicy s.cfg ea n k
    · simp
    · simp [hl]
    · simp

/-- What a data access that is not made gives: a misalignment exception, an access fault, or the refusal of a device. -/
theorem checkAccess_cases (c : Eei) (ea : Word) (n : Width) (k : AccessKind) :
    checkAccess c ea n k = .ok () ∨
    checkAccess c ea n k = .raised { id := misalignedId k, value := some ea } ∨
    checkAccess c ea n k = .raised { id := accessFaultId k, value := some ea } ∨
    checkAccess c ea n k = .refused (.deviceAccess k ea) := by
  have hl : checkLegal c ea n k = .ok () ∨ checkLegal c ea n k = .raised { id := accessFaultId k, value := some ea } ∨
      checkLegal c ea n k = .refused (.deviceAccess k ea) := by
    unfold checkLegal
    split
    · split <;> simp
    · simp
  unfold checkAccess
  split
  · tauto
  · split <;> tauto

/-- A read that is let through gives the value of the bytes. -/
theorem memRead_of_accessible {s : State} {ea : Word} {n : Width} (h : accessible s ea n .load = true) :
    memRead s ea n = .ok (loadValue s ea n) := by
  simp [memRead, (checkAccess_ok_iff s ea n .load).2 h]

/-- A write that is let through stores and marks the bytes. -/
theorem memWrite_of_accessible {s : State} {ea : Word} {n : Width} (v : Word) (h : accessible s ea n .store = true) :
    memWrite s ea n v = .ok (storeValue s ea n v) := by
  simp [memWrite, (checkAccess_ok_iff s ea n .store).2 h]

/-- Everything a read can give. -/
theorem memRead_cases (s : State) (ea : Word) (n : Width) :
    (accessible s ea n .load = true ∧ memRead s ea n = .ok (loadValue s ea n)) ∨
    memRead s ea n = .raised { id := .loadAddressMisaligned, value := some ea } ∨
    memRead s ea n = .raised { id := .loadAccessFault, value := some ea } ∨
    memRead s ea n = .refused (.deviceAccess .load ea) := by
  rcases checkAccess_cases s.cfg ea n .load with h | h | h | h
  · exact .inl ⟨(checkAccess_ok_iff s ea n .load).1 h, by simp [memRead, h]⟩
  · exact .inr (.inl (by simp [memRead, h, misalignedId]))
  · exact .inr (.inr (.inl (by simp [memRead, h, accessFaultId])))
  · exact .inr (.inr (.inr (by simp [memRead, h])))

/-- Everything a write can give. -/
theorem memWrite_cases (s : State) (ea : Word) (n : Width) (v : Word) :
    (accessible s ea n .store = true ∧ memWrite s ea n v = .ok (storeValue s ea n v)) ∨
    memWrite s ea n v = .raised { id := .storeAddressMisaligned, value := some ea } ∨
    memWrite s ea n v = .raised { id := .storeAccessFault, value := some ea } ∨
    memWrite s ea n v = .refused (.deviceAccess .store ea) := by
  rcases checkAccess_cases s.cfg ea n .store with h | h | h | h
  · exact .inl ⟨(checkAccess_ok_iff s ea n .store).1 h, by simp [memWrite, h]⟩
  · exact .inr (.inl (by simp [memWrite, h, misalignedId]))
  · exact .inr (.inr (.inl (by simp [memWrite, h, accessFaultId])))
  · exact .inr (.inr (.inr (by simp [memWrite, h])))

/-- Everything a fetch can give. -/
theorem fetch_cases (s : State) :
    fetch s = .ok (instAt s.mem s.pc) ∨
    fetch s = .raised { id := .instructionAccessFault, value := some s.pc } ∨
    fetch s = .refused (.fetchOfStoredBytes s.pc) := by
  unfold fetch
  split
  · split <;> simp
  · simp [accessFaultId]

/-! ## The shapes of the families -/

/-- A transfer goes to an aligned target, or traps. -/
theorem transferTo_cases (s : State) (target : Word) (linked : State) :
    (target.toNat % 4 = 0 ∧ transferTo s target linked = .next (setPc linked target)) ∨
    (target.toNat % 4 ≠ 0 ∧
      transferTo s target linked = takeTrap s { id := .instructionAddressMisaligned, value := some target }) := by
  by_cases h : isWordAligned target = true
  · exact .inl ⟨(isWordAligned_iff _).1 h, by simp [transferTo, h]⟩
  · exact .inr ⟨fun e => h ((isWordAligned_iff _).2 e), by simp [transferTo, h, misalignedId]⟩

/-- A branch falls through, goes to an aligned target, or traps. -/
theorem branchIf_cases (s : State) (taken : Bool) (imm : Word) :
    (taken = false ∧ branchIf s taken imm = .next (advance s)) ∨
    (taken = true ∧ (s.pc + imm).toNat % 4 = 0 ∧ branchIf s taken imm = .next (setPc s (s.pc + imm))) ∨
    (taken = true ∧ (s.pc + imm).toNat % 4 ≠ 0 ∧
      branchIf s taken imm = takeTrap s { id := .instructionAddressMisaligned, value := some (s.pc + imm) }) := by
  cases taken with
  | false => simp [branchIf]
  | true =>
    rcases transferTo_cases s (s.pc + imm) s with ⟨h, e⟩ | ⟨h, e⟩
    · exact .inr (.inl ⟨rfl, h, e⟩)
    · exact .inr (.inr ⟨rfl, h, e⟩)

/-- A load writes `rd`, traps, or is refused. -/
theorem loadWith_cases (s : State) (rd rs1 : Reg) (imm : Word) (n : Width) (f : Word → Word) :
    (accessible s (effectiveAddr s rs1 imm) n .load = true ∧
      loadWith s rd rs1 imm n f = .next (advance (writeReg s rd (f (loadValue s (effectiveAddr s rs1 imm) n))))) ∨
    loadWith s rd rs1 imm n f = takeTrap s { id := .loadAddressMisaligned, value := some (effectiveAddr s rs1 imm) } ∨
    loadWith s rd rs1 imm n f = takeTrap s { id := .loadAccessFault, value := some (effectiveAddr s rs1 imm) } ∨
    loadWith s rd rs1 imm n f = .refused (.deviceAccess .load (effectiveAddr s rs1 imm)) := by
  rcases memRead_cases s (effectiveAddr s rs1 imm) n with ⟨ha, h⟩ | h | h | h <;>
    simp [loadWith, andThen, writeResult, *]

/-- A store writes memory, traps, or is refused. -/
theorem storeWith_cases (s : State) (rs1 rs2 : Reg) (imm : Word) (n : Width) :
    (accessible s (effectiveAddr s rs1 imm) n .store = true ∧
      storeWith s rs1 rs2 imm n = .next (advance (storeValue s (effectiveAddr s rs1 imm) n (readReg s rs2)))) ∨
    storeWith s rs1 rs2 imm n = takeTrap s { id := .storeAddressMisaligned, value := some (effectiveAddr s rs1 imm) } ∨
    storeWith s rs1 rs2 imm n = takeTrap s { id := .storeAccessFault, value := some (effectiveAddr s rs1 imm) } ∨
    storeWith s rs1 rs2 imm n = .refused (.deviceAccess .store (effectiveAddr s rs1 imm)) := by
  rcases memWrite_cases s (effectiveAddr s rs1 imm) n (readReg s rs2) with ⟨ha, h⟩ | h | h | h <;>
    simp [storeWith, andThen, *]

end Sys2Proof.Machine
end

