-- ==== Sys2Proof/Laws/Environment.lean ====
section
/-! SUPPORT. The plain data of `EnvTrap` lose nothing: every function of the registers, the bytes of memory and the trap triple
(`60_exceptions.md` rule R252) is the function of some tree. -/

namespace Sys2Proof.Machine

open Sys2Proof

/-- The state and the triple answer the tests of the list alike. -/
def AgreeOn (ts : List EnvTest) (s : State) (x : Trap) (s' : State) (x' : Trap) : Prop :=
  ∀ t ∈ ts, envTestHolds s x t = envTestHolds s' x' t

/-- The tree that asks every test of the list and then answers by what it has heard, `v` standing for the tests not asked. -/
def askAll : List EnvTest → ((EnvTest → Bool) → Option ResumePlan) → (EnvTest → Bool) → EnvTrap
  | [], f, v => match f v with
    | some p => .resume p
    | none => .stop
  | t :: ts, f, v =>
    .choose t (askAll ts f (fun u => if u = t then true else v u)) (askAll ts f (fun u => if u = t then false else v u))

/-- What the tree that asks every test answers. -/
theorem chosenPlan_askAll (s : State) (x : Trap) (ts : List EnvTest) (f : (EnvTest → Bool) → Option ResumePlan)
    (v : EnvTest → Bool) :
    chosenPlan s x (askAll ts f v) = f (fun t => if t ∈ ts then envTestHolds s x t else v t) := by
  induction ts generalizing v with
  | nil =>
    simp only [askAll, List.not_mem_nil, if_false]
    split <;> simp [chosenPlan, *]
  | cons t ts ih =>
    have heard : ∀ b, envTestHolds s x t = b →
        (fun u => if u ∈ ts then envTestHolds s x u else if u = t then b else v u) =
          fun u => if u ∈ t :: ts then envTestHolds s x u else v u := by
      intro b hb
      funext u
      by_cases hu : u ∈ ts
      · simp [hu]
      · by_cases ht : u = t
        · subst ht
          simp [hu, hb]
        · simp [hu, ht]
    cases hb : envTestHolds s x t with
    | true =>
      rw [← heard true hb, ← ih]
      simp only [askAll, chosenPlan, hb, if_true]
    | false =>
      rw [← heard false hb, ← ih]
      simp only [askAll, chosenPlan, hb, Bool.false_eq_true, if_false]

/-- A function that depends on finitely many tests alone is the function of a tree. -/
theorem tree_of_tests (ts : List EnvTest) (F : State → Trap → Option ResumePlan)
    (h : ∀ s x s' x', AgreeOn ts s x s' x' → F s x = F s' x') : ∃ e : EnvTrap, ∀ s x, chosenPlan s x e = F s x := by
  classical
  let f : (EnvTest → Bool) → Option ResumePlan := fun v =>
    if hv : ∃ y : State × Trap, ∀ t ∈ ts, envTestHolds y.1 y.2 t = v t then F hv.choose.1 hv.choose.2 else none
  refine ⟨askAll ts f (fun _ => false), fun s x => ?_⟩
  have hv : ∃ y : State × Trap, ∀ t ∈ ts,
      envTestHolds y.1 y.2 t = (fun u => if u ∈ ts then envTestHolds s x u else false) t :=
    ⟨(s, x), fun t ht => by simp [ht]⟩
  rw [chosenPlan_askAll]
  refine (dif_pos hv).trans (h _ _ _ _ fun t ht => ?_)
  simpa [ht] using hv.choose_spec t ht

/-- The words of the environment that matter: the `pc` of the triple, every byte, every register. -/
def allExprs (words : List Word) : List EnvExpr :=
  [.trapPc] ++ words.map (fun a => .byteAt (.const a)) ++ words.map (fun i => .reg (i.setWidth 5))

/-- The tests that tell apart any two states of registers and memory, and any two triples. -/
def allTests (words : List Word) : List EnvTest :=
  [ExceptionId.instructionAddressMisaligned, .instructionAccessFault, .illegalInstruction, .loadAddressMisaligned,
    .storeAddressMisaligned, .loadAccessFault, .storeAccessFault, .environmentCall, .breakpoint].map .raised ++
  [.reported none] ++ words.map (fun v => .reported (some v)) ++
  (allExprs words).flatMap (fun e => words.map (fun v => .equal e (.const v)))

/-- The nine exceptions are asked for. -/
theorem raised_mem_allTests (words : List Word) (id : ExceptionId) : .raised id ∈ allTests words := by
  cases id <;> simp [allTests]

/-- Every value of a triple is asked for. -/
theorem reported_mem_allTests {words : List Word} (hw : ∀ v, v ∈ words) (v : Option Word) : .reported v ∈ allTests words := by
  cases v <;> simp [allTests, hw]

/-- Every value of the expressions that matter is asked for. -/
theorem equal_mem_allTests {words : List Word} (hw : ∀ v, v ∈ words) (e : EnvExpr)
    (he : e = .trapPc ∨ (∃ a, e = .byteAt (.const a)) ∨ ∃ r, e = .reg r) (v : Word) : .equal e (.const v) ∈ allTests words := by
  simp only [allTests, List.mem_append, List.mem_flatMap]
  refine .inr ⟨e, ?_, List.mem_map.2 ⟨v, hw v, rfl⟩⟩
  simp only [allExprs, List.mem_append, List.mem_singleton, List.mem_map]
  rcases he with rfl | ⟨a, rfl⟩ | ⟨r, rfl⟩
  · exact .inl (.inl rfl)
  · exact .inl (.inr ⟨a, hw a, rfl⟩)
  · exact .inr ⟨r.setWidth 32, hw _, by rw [BitVec.setWidth_setWidth_of_le _ (by decide), BitVec.setWidth_eq]⟩

/-- Agreement on every test is agreement on the triple, every register and every byte. -/
theorem agree_allTests {words : List Word} (hw : ∀ v, v ∈ words) {s s' : State} {x x' : Trap}
    (h : AgreeOn (allTests words) s x s' x') :
    x' = x ∧ (∀ r, readReg s' r = readReg s r) ∧ ∀ a, readByte s'.mem a = readByte s.mem a := by
  have value : ∀ e, (e = .trapPc ∨ (∃ a, e = .byteAt (.const a)) ∨ ∃ r, e = .reg r) → envValue s' x' e = envValue s x e := by
    intro e he
    have here : envTestHolds s x (.equal e (.const (envValue s x e))) = true := decide_eq_true rfl
    exact of_decide_eq_true ((h _ (equal_mem_allTests hw e he (envValue s x e))).symm.trans here)
  have hid : x'.id = x.id := by
    have := h _ (raised_mem_allTests words x.id)
    simpa [envTestHolds] using this
  have hval : x'.value = x.value := by
    have := h _ (reported_mem_allTests hw x.value)
    simpa [envTestHolds] using this
  have hpc : x'.pc = x.pc := value .trapPc (.inl rfl)
  refine ⟨?_, fun r => value (.reg r) (.inr (.inr ⟨r, rfl⟩)), fun a => ?_⟩
  · cases x
    cases x'
    simp_all
  · have := congrArg (BitVec.setWidth 8) (value (.byteAt (.const a)) (.inr (.inl ⟨a, rfl⟩)))
    simpa [envValue] using this

/-- The plan that works out to a given resumption in every state. -/
def constantPlan (r : Resumption) : ResumePlan :=
  { regWrites := r.regWrites.map (fun w => (w.1, .const w.2))
    memWrites := r.memWrites.map (fun w => (.const w.1, .const (w.2.setWidth 32)))
    pc := .const r.pc }

@[simp] theorem planResumption_constantPlan (s : State) (x : Trap) (r : Resumption) :
    planResumption s x (constantPlan r) = r := by
  simp [planResumption, constantPlan, envValue, Function.comp_def]

/-- Every `EnvTrap` of rule R252, a function of the registers, the bytes of memory and the triple, is the function of some tree. -/
theorem envTrap_expresses_every_function (F : State → Trap → Option Resumption)
    (h : ∀ (s s' : State) (x : Trap), (∀ r, readReg s' r = readReg s r) → (∀ a, readByte s'.mem a = readByte s.mem a) →
      F s x = F s' x) :
    ∃ e : EnvTrap, ∀ s : State, s.cfg.envTrap = e → ∀ x, environmentAnswer s x = F s x := by
  obtain ⟨words, hw⟩ : ∃ words : List Word, ∀ v, v ∈ words :=
    ⟨(List.range (2 ^ 32)).map (BitVec.ofNat 32), fun v => List.mem_map.2 ⟨v.toNat, List.mem_range.2 v.isLt, by simp⟩⟩
  obtain ⟨e, he⟩ := tree_of_tests (allTests words) (fun s x => (F s x).map constantPlan) (fun s x s' x' ha => by
    obtain ⟨rfl, hr, hm⟩ := agree_allTests hw ha
    exact congrArg _ (h s s' x' hr hm))
  refine ⟨e, fun s hs x => ?_⟩
  rw [environmentAnswer, hs, he]
  cases F s x <;> simp

end Sys2Proof.Machine
end

