-- ==== Sys2Proof/Laws/Exec.lean ====
section
/-! SUPPORT. What an instruction and a step can do, said once: `exec_next` and `step_next` for a next state, `exec_fault` and
`step_fault` for a stop; and what an instruction loaded at `pc` makes the next fetch give. -/

namespace Sys2Proof.Machine

open Sys2Proof

/-- The four shapes of a next state: a register is written (or none, `rd = x0`) and `pc` advances; a register is written (or none)
and `pc` goes to an aligned target; a store lands and `pc` advances; the environment resumes from a trap. -/
inductive NextShape (s : State) : State → Prop where
  | write (rd : Reg) (v : Word) : NextShape s (advance (writeReg s rd v))
  | jump (rd : Reg) (v target : Word) (aligned : target.toNat % 4 = 0) : NextShape s (setPc (writeReg s rd v) target)
  | store (ea : Word) (n : Width) (v : Word) (ok : accessible s ea n .store = true) : NextShape s (advance (storeValue s ea n v))
  | resume (e : Raised) (r : Resumption) (answer : environmentAnswer s (trapOf s e) = some r) :
      NextShape s (resumeFrom s (trapOf s e) r)

theorem takeTrap_shape {s t : State} {e : Raised} (h : takeTrap s e = .next t) : NextShape s t := by
  obtain ⟨r, ha, rfl⟩ := takeTrap_next h
  exact .resume e r ha

theorem writeResult_shape {s t : State} {rd : Reg} {v : Word} (h : writeResult s rd v = .next t) : NextShape s t := by
  cases h
  exact .write rd v

theorem advance_shape {s t : State} (h : Host.Outcome.next (φ := Fault) (ρ := Refusal) (advance s) = .next t) : NextShape s t := by
  cases h
  exact .write 0#5 0#32

theorem transferTo_shape {s t : State} {rd : Reg} {v target : Word}
    (h : transferTo s target (writeReg s rd v) = .next t) : NextShape s t := by
  rcases transferTo_cases s target (writeReg s rd v) with ⟨ha, e⟩ | ⟨_, e⟩ <;> rw [e] at h
  · cases h
    exact .jump rd v target ha
  · exact takeTrap_shape h

theorem branchIf_shape {s t : State} {taken : Bool} {imm : Word} (h : branchIf s taken imm = .next t) : NextShape s t := by
  rcases branchIf_cases s taken imm with ⟨_, e⟩ | ⟨_, ha, e⟩ | ⟨_, _, e⟩ <;> rw [e] at h
  · exact advance_shape h
  · cases h
    exact .jump 0#5 0#32 _ ha
  · exact takeTrap_shape h

theorem loadWith_shape {s t : State} {rd rs1 : Reg} {imm : Word} {n : Width} {f : Word → Word}
    (h : loadWith s rd rs1 imm n f = .next t) : NextShape s t := by
  rcases loadWith_cases s rd rs1 imm n f with ⟨_, e⟩ | e | e | e <;> rw [e] at h
  · exact writeResult_shape h
  · exact takeTrap_shape h
  · exact takeTrap_shape h
  · cases h

theorem storeWith_shape {s t : State} {rs1 rs2 : Reg} {imm : Word} {n : Width}
    (h : storeWith s rs1 rs2 imm n = .next t) : NextShape s t := by
  rcases storeWith_cases s rs1 rs2 imm n with ⟨ha, e⟩ | e | e | e <;> rw [e] at h
  · cases h
    exact .store _ n _ ha
  · exact takeTrap_shape h
  · exact takeTrap_shape h
  · cases h

/-- Every next state of an instruction has one of the four shapes. -/
theorem exec_next {i : Instr} {s t : State} (h : exec i s = .next t) : NextShape s t := by
  cases i with
  | beq | bne | blt | bge | bltu | bgeu => exact branchIf_shape h
  | jal | jalr => exact transferTo_shape h
  | lb | lh | lw | lbu | lhu => exact loadWith_shape h
  | sb | sh | sw => exact storeWith_shape h
  | fence | fenceTso | pause => exact advance_shape h
  | ecall | ebreak => exact takeTrap_shape h
  | _ => exact writeResult_shape h

/-- Every next state of a step has one of the four shapes. -/
theorem step_next {s t : State} (h : step s = .next t) : NextShape s t := by
  unfold step at h
  rcases fetch_cases s with e | e | e <;> rw [e] at h
  · simp only [andThen, runWord] at h
    split at h
    · exact exec_next h
    · unfold reservedInstruction at h
      split at h
      · exact takeTrap_shape h
      · cases h
  · exact takeTrap_shape h
  · cases h

/-- Every stop of an instruction is a trap triple at the instruction's own `pc`, at which the environment stops. -/
theorem exec_fault {i : Instr} {s : State} {f : Fault} (h : exec i s = .fault f) : ∃ e, f = .trap (trapOf s e) ∧ environmentAnswer s (trapOf s e) = none := by
  have ht : ∀ e, takeTrap s e = .fault f → ∃ e, f = .trap (trapOf s e) ∧ environmentAnswer s (trapOf s e) = none := fun e h => ⟨e, takeTrap_fault h⟩
  have hj : ∀ target linked, transferTo s target linked = .fault f → ∃ e, f = .trap (trapOf s e) ∧ environmentAnswer s (trapOf s e) = none := by
    intro target linked h
    rcases transferTo_cases s target linked with ⟨_, e⟩ | ⟨_, e⟩ <;> rw [e] at h
    · cases h
    · exact ht _ h
  have hb : ∀ taken imm, branchIf s taken imm = .fault f → ∃ e, f = .trap (trapOf s e) ∧ environmentAnswer s (trapOf s e) = none := by
    intro taken imm h
    rcases branchIf_cases s taken imm with ⟨_, e⟩ | ⟨_, _, e⟩ | ⟨_, _, e⟩ <;> rw [e] at h
    · cases h
    · cases h
    · exact ht _ h
  have hl : ∀ rd rs1 imm n g, loadWith s rd rs1 imm n g = .fault f → ∃ e, f = .trap (trapOf s e) ∧ environmentAnswer s (trapOf s e) = none := by
    intro rd rs1 imm n g h
    rcases loadWith_cases s rd rs1 imm n g with ⟨_, e⟩ | e | e | e <;> rw [e] at h
    · cases h
    · exact ht _ h
    · exact ht _ h
    · cases h
  have hs : ∀ rs1 rs2 imm n, storeWith s rs1 rs2 imm n = .fault f → ∃ e, f = .trap (trapOf s e) ∧ environmentAnswer s (trapOf s e) = none := by
    intro rs1 rs2 imm n h
    rcases storeWith_cases s rs1 rs2 imm n with ⟨_, e⟩ | e | e | e <;> rw [e] at h
    · cases h
    · exact ht _ h
    · exact ht _ h
    · cases h
  cases i with
  | beq | bne | blt | bge | bltu | bgeu => exact hb _ _ h
  | jal | jalr => exact hj _ _ h
  | lb | lh | lw | lbu | lhu => exact hl _ _ _ _ _ h
  | sb | sh | sw => exact hs _ _ _ _ h
  | ecall | ebreak => exact ht _ h
  | _ => cases h

/-- Every stop of a step is a trap triple at the `pc` of the instruction, at which the environment stops. -/
theorem step_fault {s : State} {f : Fault} (h : step s = .fault f) : ∃ e, f = .trap (trapOf s e) ∧ environmentAnswer s (trapOf s e) = none := by
  unfold step at h
  rcases fetch_cases s with e | e | e <;> rw [e] at h
  · simp only [andThen, runWord] at h
    split at h
    · exact exec_fault h
    · unfold reservedInstruction at h
      split at h
      · exact ⟨_, takeTrap_fault h⟩
      · cases h
  · exact ⟨_, takeTrap_fault h⟩
  · cases h

/-! ## An instruction loaded from outside -/

/-- Bytes 0 to 3 of a word written at an address read back as the word. -/
theorem instAt_writeBytes (m : Memory) (a w : Word) : instAt (writeBytes m a (instBytes w)) a = w := by
  have h1 : a ≠ a + 1#32 := by bv_omega
  have h2 : a ≠ a + 1#32 + 1#32 := by bv_omega
  have h3 : a ≠ a + 1#32 + 1#32 + 1#32 := by bv_omega
  have e2 : a + 2#32 = a + 1#32 + 1#32 := by bv_omega
  have e3 : a + 3#32 = a + 1#32 + 1#32 + 1#32 := by bv_omega
  have h4 : a + 1#32 ≠ a + 1#32 + 1#32 := by bv_omega
  have h5 : a + 1#32 ≠ a + 1#32 + 1#32 + 1#32 := by bv_omega
  have h6 : a + 1#32 + 1#32 ≠ a + 1#32 + 1#32 + 1#32 := by bv_omega
  simp only [instAt, instBytes, writeBytes, readByte_writeByte, e2, e3, h1, h2, h3, h4, h5, h6, if_true, if_false]
  exact instWord_instBytes w

/-- The map that admits a fetch does. -/
theorem pmaLegal_admitFetchAt (c : Eei) (a : Word) : pmaLegal (admitFetchAt c a) a .word .fetch = true := by
  unfold admitFetchAt
  split
  · assumption
  · have h1 : (a + 1#32 - a).toNat < 4 := by bv_omega
    have h2 : (a + 2#32 - a).toNat < 4 := by bv_omega
    have h3 : (a + 3#32 - a).toNat < 4 := by bv_omega
    refine List.any_eq_true.2 ⟨_, List.mem_cons_self, ?_⟩
    simp only [pmaAdmits, pmaAdmitsKind, pmaAdmitsWidth, accessAddrs, regionHolds, List.all_cons, List.all_nil, h1, h2, h3,
      BitVec.sub_self]
    decide

/-- An unmarked address is marked no more. -/
theorem not_mem_unmark {st : List Nat} {as : List Word} {a : Word} (h : a ∈ as ∨ a.toNat ∉ st) : a.toNat ∉ unmark st as := by
  induction as generalizing st with
  | nil => simpa [unmark] using h
  | cons b as ih =>
    apply ih
    by_cases hb : a = b
    · exact .inr (hb ▸ not_mem_removeAddr _ _)
    · rcases h with h | h
      · exact .inl (by simpa [hb] using h)
      · exact .inr (fun hm => h (mem_of_mem_removeAddr hm))

/-- The fetch after an instruction is loaded at `pc` gives it. -/
theorem fetch_placeInstruction (s : State) (w : Word) : fetch (placeInstruction s w) = .ok w := by
  have hm : ∀ a ∈ accessAddrs s.pc .word, wasStored (placeInstruction s w) a = false := by
    intro a ha
    simpa [wasStored] using not_mem_unmark (st := s.stored) (.inl ha)
  have hany : (accessAddrs s.pc .word).any (wasStored (placeInstruction s w)) = false := by
    simpa [List.any_eq_false] using hm
  simp [fetch, pmaLegal_admitFetchAt, hany, instAt_writeBytes]

end Sys2Proof.Machine
end

