-- ==== Sys2Proof/Laws/PerInstr.lean ====
section
/-! SUPPORT. Per instruction: its word carries the opcode bits of its own row of `spec/opcode_table.json` (`30_encoding.md` rules R88,
R89). -/

namespace Sys2Proof.Laws

open Sys2Proof

/-- The mask and the match of the row of each instruction. -/
def rowOf : Instr → Word × Word
  | .lui _ _ => (0x0000007F#32, 0x00000037#32)
  | .auipc _ _ => (0x0000007F#32, 0x00000017#32)
  | .jal _ _ => (0x0000007F#32, 0x0000006F#32)
  | .jalr _ _ _ => (0x0000707F#32, 0x00000067#32)
  | .beq _ _ _ => (0x0000707F#32, 0x00000063#32)
  | .bne _ _ _ => (0x0000707F#32, 0x00001063#32)
  | .blt _ _ _ => (0x0000707F#32, 0x00004063#32)
  | .bge _ _ _ => (0x0000707F#32, 0x00005063#32)
  | .bltu _ _ _ => (0x0000707F#32, 0x00006063#32)
  | .bgeu _ _ _ => (0x0000707F#32, 0x00007063#32)
  | .lb _ _ _ => (0x0000707F#32, 0x00000003#32)
  | .lh _ _ _ => (0x0000707F#32, 0x00001003#32)
  | .lw _ _ _ => (0x0000707F#32, 0x00002003#32)
  | .lbu _ _ _ => (0x0000707F#32, 0x00004003#32)
  | .lhu _ _ _ => (0x0000707F#32, 0x00005003#32)
  | .sb _ _ _ => (0x0000707F#32, 0x00000023#32)
  | .sh _ _ _ => (0x0000707F#32, 0x00001023#32)
  | .sw _ _ _ => (0x0000707F#32, 0x00002023#32)
  | .addi _ _ _ => (0x0000707F#32, 0x00000013#32)
  | .slti _ _ _ => (0x0000707F#32, 0x00002013#32)
  | .sltiu _ _ _ => (0x0000707F#32, 0x00003013#32)
  | .xori _ _ _ => (0x0000707F#32, 0x00004013#32)
  | .ori _ _ _ => (0x0000707F#32, 0x00006013#32)
  | .andi _ _ _ => (0x0000707F#32, 0x00007013#32)
  | .slli _ _ _ => (0xFE00707F#32, 0x00001013#32)
  | .srli _ _ _ => (0xFE00707F#32, 0x00005013#32)
  | .srai _ _ _ => (0xFE00707F#32, 0x40005013#32)
  | .add _ _ _ => (0xFE00707F#32, 0x00000033#32)
  | .sub _ _ _ => (0xFE00707F#32, 0x40000033#32)
  | .sll _ _ _ => (0xFE00707F#32, 0x00001033#32)
  | .slt _ _ _ => (0xFE00707F#32, 0x00002033#32)
  | .sltu _ _ _ => (0xFE00707F#32, 0x00003033#32)
  | .xor _ _ _ => (0xFE00707F#32, 0x00004033#32)
  | .srl _ _ _ => (0xFE00707F#32, 0x00005033#32)
  | .sra _ _ _ => (0xFE00707F#32, 0x40005033#32)
  | .or _ _ _ => (0xFE00707F#32, 0x00006033#32)
  | .and _ _ _ => (0xFE00707F#32, 0x00007033#32)
  | .fence _ _ _ _ _ => (0x0000707F#32, 0x0000000F#32)
  | .ecall => (0xFFFFFFFF#32, 0x00000073#32)
  | .ebreak => (0xFFFFFFFF#32, 0x00100073#32)
  | .fenceTso _ _ => (0xFFF0707F#32, 0x8330000F#32)
  | .pause => (0xFFFFFFFF#32, 0x0100000F#32)

/-- The word of the instruction matches its row. -/
def EncodesToOwnRow.Statement (i : Instr) : Prop := encode i &&& (rowOf i).1 = (rowOf i).2

namespace EncodesToOwnRow

theorem lui (rd : Reg) (imm : Word) : Statement (.lui rd imm) := encodeU_mask imm rd _
theorem auipc (rd : Reg) (imm : Word) : Statement (.auipc rd imm) := encodeU_mask imm rd _
theorem jal (rd : Reg) (imm : Word) : Statement (.jal rd imm) := encodeJ_mask imm rd _
theorem jalr (rd : Reg) (rs1 : Reg) (imm : Word) : Statement (.jalr rd rs1 imm) := (encodeI_mask imm rs1 rd _ _).trans rfl
theorem beq (rs1 : Reg) (rs2 : Reg) (imm : Word) : Statement (.beq rs1 rs2 imm) := (encodeB_mask imm rs1 rs2 _ _).trans rfl
theorem bne (rs1 : Reg) (rs2 : Reg) (imm : Word) : Statement (.bne rs1 rs2 imm) := (encodeB_mask imm rs1 rs2 _ _).trans rfl
theorem blt (rs1 : Reg) (rs2 : Reg) (imm : Word) : Statement (.blt rs1 rs2 imm) := (encodeB_mask imm rs1 rs2 _ _).trans rfl
theorem bge (rs1 : Reg) (rs2 : Reg) (imm : Word) : Statement (.bge rs1 rs2 imm) := (encodeB_mask imm rs1 rs2 _ _).trans rfl
theorem bltu (rs1 : Reg) (rs2 : Reg) (imm : Word) : Statement (.bltu rs1 rs2 imm) := (encodeB_mask imm rs1 rs2 _ _).trans rfl
theorem bgeu (rs1 : Reg) (rs2 : Reg) (imm : Word) : Statement (.bgeu rs1 rs2 imm) := (encodeB_mask imm rs1 rs2 _ _).trans rfl
theorem lb (rd : Reg) (rs1 : Reg) (imm : Word) : Statement (.lb rd rs1 imm) := (encodeI_mask imm rs1 rd _ _).trans rfl
theorem lh (rd : Reg) (rs1 : Reg) (imm : Word) : Statement (.lh rd rs1 imm) := (encodeI_mask imm rs1 rd _ _).trans rfl
theorem lw (rd : Reg) (rs1 : Reg) (imm : Word) : Statement (.lw rd rs1 imm) := (encodeI_mask imm rs1 rd _ _).trans rfl
theorem lbu (rd : Reg) (rs1 : Reg) (imm : Word) : Statement (.lbu rd rs1 imm) := (encodeI_mask imm rs1 rd _ _).trans rfl
theorem lhu (rd : Reg) (rs1 : Reg) (imm : Word) : Statement (.lhu rd rs1 imm) := (encodeI_mask imm rs1 rd _ _).trans rfl
theorem sb (rs1 : Reg) (rs2 : Reg) (imm : Word) : Statement (.sb rs1 rs2 imm) := (encodeS_mask imm rs1 rs2 _ _).trans rfl
theorem sh (rs1 : Reg) (rs2 : Reg) (imm : Word) : Statement (.sh rs1 rs2 imm) := (encodeS_mask imm rs1 rs2 _ _).trans rfl
theorem sw (rs1 : Reg) (rs2 : Reg) (imm : Word) : Statement (.sw rs1 rs2 imm) := (encodeS_mask imm rs1 rs2 _ _).trans rfl
theorem addi (rd : Reg) (rs1 : Reg) (imm : Word) : Statement (.addi rd rs1 imm) := (encodeI_mask imm rs1 rd _ _).trans rfl
theorem slti (rd : Reg) (rs1 : Reg) (imm : Word) : Statement (.slti rd rs1 imm) := (encodeI_mask imm rs1 rd _ _).trans rfl
theorem sltiu (rd : Reg) (rs1 : Reg) (imm : Word) : Statement (.sltiu rd rs1 imm) := (encodeI_mask imm rs1 rd _ _).trans rfl
theorem xori (rd : Reg) (rs1 : Reg) (imm : Word) : Statement (.xori rd rs1 imm) := (encodeI_mask imm rs1 rd _ _).trans rfl
theorem ori (rd : Reg) (rs1 : Reg) (imm : Word) : Statement (.ori rd rs1 imm) := (encodeI_mask imm rs1 rd _ _).trans rfl
theorem andi (rd : Reg) (rs1 : Reg) (imm : Word) : Statement (.andi rd rs1 imm) := (encodeI_mask imm rs1 rd _ _).trans rfl
theorem slli (rd : Reg) (rs1 : Reg) (shamt : BitVec 5) : Statement (.slli rd rs1 shamt) := (encodeR_mask _ shamt rs1 rd _ _).trans rfl
theorem srli (rd : Reg) (rs1 : Reg) (shamt : BitVec 5) : Statement (.srli rd rs1 shamt) := (encodeR_mask _ shamt rs1 rd _ _).trans rfl
theorem srai (rd : Reg) (rs1 : Reg) (shamt : BitVec 5) : Statement (.srai rd rs1 shamt) := (encodeR_mask _ shamt rs1 rd _ _).trans rfl
theorem add (rd : Reg) (rs1 : Reg) (rs2 : Reg) : Statement (.add rd rs1 rs2) := (encodeR_mask _ rs2 rs1 rd _ _).trans rfl
theorem sub (rd : Reg) (rs1 : Reg) (rs2 : Reg) : Statement (.sub rd rs1 rs2) := (encodeR_mask _ rs2 rs1 rd _ _).trans rfl
theorem sll (rd : Reg) (rs1 : Reg) (rs2 : Reg) : Statement (.sll rd rs1 rs2) := (encodeR_mask _ rs2 rs1 rd _ _).trans rfl
theorem slt (rd : Reg) (rs1 : Reg) (rs2 : Reg) : Statement (.slt rd rs1 rs2) := (encodeR_mask _ rs2 rs1 rd _ _).trans rfl
theorem sltu (rd : Reg) (rs1 : Reg) (rs2 : Reg) : Statement (.sltu rd rs1 rs2) := (encodeR_mask _ rs2 rs1 rd _ _).trans rfl
theorem xor (rd : Reg) (rs1 : Reg) (rs2 : Reg) : Statement (.xor rd rs1 rs2) := (encodeR_mask _ rs2 rs1 rd _ _).trans rfl
theorem srl (rd : Reg) (rs1 : Reg) (rs2 : Reg) : Statement (.srl rd rs1 rs2) := (encodeR_mask _ rs2 rs1 rd _ _).trans rfl
theorem sra (rd : Reg) (rs1 : Reg) (rs2 : Reg) : Statement (.sra rd rs1 rs2) := (encodeR_mask _ rs2 rs1 rd _ _).trans rfl
theorem or (rd : Reg) (rs1 : Reg) (rs2 : Reg) : Statement (.or rd rs1 rs2) := (encodeR_mask _ rs2 rs1 rd _ _).trans rfl
theorem and (rd : Reg) (rs1 : Reg) (rs2 : Reg) : Statement (.and rd rs1 rs2) := (encodeR_mask _ rs2 rs1 rd _ _).trans rfl
theorem fence (fm : BitVec 4) (pred : BitVec 4) (succ : BitVec 4) (rs1 : Reg) (rd : Reg) : Statement (.fence fm pred succ rs1 rd) := encodeFence_mask fm pred succ rs1 rd
theorem ecall : Statement (.ecall) := rfl
theorem ebreak : Statement (.ebreak) := rfl
theorem fenceTso (rs1 : Reg) (rd : Reg) : Statement (.fenceTso rs1 rd) := (encodeFence_maskTso _ _ _ rs1 rd).trans rfl
theorem pause : Statement (.pause) := rfl

end EncodesToOwnRow

end Sys2Proof.Laws
end

