-- ==== Sys2Proof/Tests/Slice0.lean ====
section
/-! SUPPORT. Tests. The words and outcomes are those of `95_test_vectors.md`; the last part shows, for each statement with hypotheses,
a concrete state that meets them. -/

namespace Sys2Proof.Tests

open Sys2Proof Sys2Proof.Machine

/-! ## Small states -/

/-- An environment whose data region is the eight bytes from 0x2000 (`95_test_vectors.md` section 2.7). -/
def dataCfg (e : Endian) (m : MisalignedPolicy) : Eei :=
  { endian := e, misaligned := m, misalignedRules := [], io := [], reservedInsn := .illegalInstruction, envTrap := .stop,
    pma := [{ region := { base := 0x2000#32, size := 8 }, fetch := false, load := true, store := true,
              byte := true, half := true, word := true }] }

/-- The memory of `42_load_store.md` rule R190. -/
def dataMem : Memory :=
  { cells := [(0x2000, 0x80#8), (0x2001, 0x91#8), (0x2002, 0xA2#8), (0x2003, 0x73#8), (0x2004, 0x44#8), (0x2005, 0x55#8),
      (0x2006, 0x66#8), (0x2007, 0xF7#8)] }

/-- A state at `pc` with the given registers and one instruction loaded. -/
def stateAt (cfg : Eei) (pc : Word) (regs : List (Reg × Word)) (w : Nat) : State :=
  (applyRegWrites (State.launch cfg pc (Vector.replicate 32 0#32) dataMem) regs).withFetchWord 32 w

/-- The state at 0x1000 of the default environment of the section. -/
def run (regs : List (Reg × Word)) (w : Nat) : State := stateAt (dataCfg .little .trap) 0x1000#32 regs w

/-- The state in another environment. -/
def withEnv (s : State) (e : EnvTrap) : State := { s with cfg := { s.cfg with envTrap := e } }

/-- An environment that resumes each ECALL at the next instruction, with `x10` one more and a write to `x0` without effect, and stops
at every other trap. -/
def callEnv : EnvTrap :=
  .choose (.raised .environmentCall)
    (.resume { regWrites := [(10#5, .add (.reg 10#5) (.const 1#32)), (0#5, .const 9#32)], memWrites := [],
               pc := .add .trapPc (.const 4#32) })
    .stop

/-- An environment that answers by the byte at `x6` and by the value of the triple, stores twice, the last one to stay, and resumes
two instructions on. -/
def pokeEnv : EnvTrap :=
  .choose (.equal (.byteAt (.reg 6#5)) (.const 0x80#32))
    (.choose (.reported (some 0x1000#32))
      (.resume { regWrites := [], memWrites := [(.reg 6#5, .const 1#32), (.const 0x2000#32, .const 0xFF02#32)],
                 pc := .add .trapValue (.const 8#32) })
      .stop)
    .stop

/-- The step goes on, to `pc`, with the register at the value. -/
def gives (s : State) (pc : Word) (r : Reg) (v : Word) : Bool :=
  match step s with
  | .next t => t.pc == pc && readReg t r == v
  | .fault _ => false
  | .refused _ => false

/-- The step goes on, to `pc`, with the word of memory at the address. -/
def leaves (s : State) (pc a v : Word) : Bool :=
  match step s with
  | .next t => t.pc == pc && instAt t.mem a == v
  | .fault _ => false
  | .refused _ => false

/-- The step stops with the trap. -/
def stops (s : State) (id : ExceptionId) (pc : Word) (value : Option Word) : Bool :=
  match step s with
  | .fault (.trap t) => t == { id := id, pc := pc, value := value }
  | .next _ => false
  | .refused _ => false

/-- The step is refused. -/
def refuses (s : State) (x : Refusal) : Bool :=
  match step s with
  | .refused y => x == y
  | .next _ => false
  | .fault _ => false

/-! ## Well-formedness: one ill-formed term for each check -/

theorem test_wf_immI : (Instr.addi 1#5 2#5 0x00000800#32).wf = false := by decide
theorem test_wf_immS : (Instr.sw 1#5 2#5 0xFFFFF7FF#32).wf = false := by decide
theorem test_wf_immB_odd : (Instr.beq 1#5 2#5 0x00000003#32).wf = false := by decide
theorem test_wf_immB_range : (Instr.beq 1#5 2#5 0x00001000#32).wf = false := by decide
theorem test_wf_immU : (Instr.lui 1#5 0x00001001#32).wf = false := by decide
theorem test_wf_immJ_odd : (Instr.jal 1#5 0x00000001#32).wf = false := by decide
theorem test_wf_immJ_range : (Instr.jal 1#5 0x00100000#32).wf = false := by decide
theorem test_wf_fenceTso : (Instr.fence 0b1000#4 0b0011#4 0b0011#4 3#5 4#5).wf = false := by decide
theorem test_wf_pause : (Instr.fence 0#4 0b0001#4 0#4 0#5 0#5).wf = false := by decide

/-! ## Decoding: the words of `95_test_vectors.md` section 2.9, one for each constructor -/

theorem test_decode_lui : decodeTableWord 32 0xABCDEFB7 = some (.lui 31#5 0xABCDE000#32) := by decide
theorem test_decode_auipc : decodeTableWord 32 0x00001097 = some (.auipc 1#5 0x00001000#32) := by decide
theorem test_decode_jal : decodeTableWord 32 0x005FF0EF = some (.jal 1#5 0x000FF804#32) := by decide
theorem test_decode_jal2 : decodeTableWord 32 0xFFFFF06F = some (.jal 0#5 0xFFFFFFFE#32) := by decide
theorem test_decode_jalr : decodeTableWord 32 0xFFD100E7 = some (.jalr 1#5 2#5 0xFFFFFFFD#32) := by decide
theorem test_decode_beq : decodeTableWord 32 0x002080E3 = some (.beq 1#5 2#5 0x00000800#32) := by decide
theorem test_decode_bne : decodeTableWord 32 0xFFEF9FE3 = some (.bne 31#5 30#5 0xFFFFFFFE#32) := by decide
theorem test_decode_blt : decodeTableWord 32 0x7E41CF63 = some (.blt 3#5 4#5 0x000007FE#32) := by decide
theorem test_decode_bge : decodeTableWord 32 0x8062D063 = some (.bge 5#5 6#5 0xFFFFF000#32) := by decide
theorem test_decode_bltu : decodeTableWord 32 0x0283E063 = some (.bltu 7#5 8#5 0x00000020#32) := by decide
theorem test_decode_bgeu : decodeTableWord 32 0x00A4FF63 = some (.bgeu 9#5 10#5 0x0000001E#32) := by decide
theorem test_decode_lb : decodeTableWord 32 0xFFF60583 = some (.lb 11#5 12#5 0xFFFFFFFF#32) := by decide
theorem test_decode_lh : decodeTableWord 32 0x00271683 = some (.lh 13#5 14#5 0x00000002#32) := by decide
theorem test_decode_lw : decodeTableWord 32 0x7FC82783 = some (.lw 15#5 16#5 0x000007FC#32) := by decide
theorem test_decode_lbu : decodeTableWord 32 0x80094883 = some (.lbu 17#5 18#5 0xFFFFF800#32) := by decide
theorem test_decode_lhu : decodeTableWord 32 0x010A5983 = some (.lhu 19#5 20#5 0x00000010#32) := by decide
theorem test_decode_sb : decodeTableWord 32 0xFF6A8FA3 = some (.sb 21#5 22#5 0xFFFFFFFF#32) := by decide
theorem test_decode_sh : decodeTableWord 32 0x7F8B9F23 = some (.sh 23#5 24#5 0x000007FE#32) := by decide
theorem test_decode_sw : decodeTableWord 32 0x81ACA023 = some (.sw 25#5 26#5 0xFFFFF800#32) := by decide
theorem test_decode_addi : decodeTableWord 32 0xFFFE0D93 = some (.addi 27#5 28#5 0xFFFFFFFF#32) := by decide
theorem test_decode_slti : decodeTableWord 32 0x400F2E93 = some (.slti 29#5 30#5 0x00000400#32) := by decide
theorem test_decode_sltiu : decodeTableWord 32 0xFFF0BF93 = some (.sltiu 31#5 1#5 0xFFFFFFFF#32) := by decide
theorem test_decode_xori : decodeTableWord 32 0x5551C113 = some (.xori 2#5 3#5 0x00000555#32) := by decide
theorem test_decode_ori : decodeTableWord 32 0xAAA2E213 = some (.ori 4#5 5#5 0xFFFFFAAA#32) := by decide
theorem test_decode_andi : decodeTableWord 32 0x00F3F313 = some (.andi 6#5 7#5 0x0000000F#32) := by decide
theorem test_decode_slli : decodeTableWord 32 0x01149413 = some (.slli 8#5 9#5 17#5) := by decide
theorem test_decode_srli : decodeTableWord 32 0x01F5D513 = some (.srli 10#5 11#5 31#5) := by decide
theorem test_decode_srai : decodeTableWord 32 0x4016D613 = some (.srai 12#5 13#5 1#5) := by decide
theorem test_decode_add : decodeTableWord 32 0x01078733 = some (.add 14#5 15#5 16#5) := by decide
theorem test_decode_sub : decodeTableWord 32 0x413908B3 = some (.sub 17#5 18#5 19#5) := by decide
theorem test_decode_sll : decodeTableWord 32 0x016A9A33 = some (.sll 20#5 21#5 22#5) := by decide
theorem test_decode_slt : decodeTableWord 32 0x019C2BB3 = some (.slt 23#5 24#5 25#5) := by decide
theorem test_decode_sltu : decodeTableWord 32 0x01CDBD33 = some (.sltu 26#5 27#5 28#5) := by decide
theorem test_decode_xor : decodeTableWord 32 0x01FF4EB3 = some (.xor 29#5 30#5 31#5) := by decide
theorem test_decode_srl : decodeTableWord 32 0x003150B3 = some (.srl 1#5 2#5 3#5) := by decide
theorem test_decode_sra : decodeTableWord 32 0x4062D233 = some (.sra 4#5 5#5 6#5) := by decide
theorem test_decode_or : decodeTableWord 32 0x009463B3 = some (.or 7#5 8#5 9#5) := by decide
theorem test_decode_and : decodeTableWord 32 0x00C5F533 = some (.and 10#5 11#5 12#5) := by decide
theorem test_decode_fence : decodeTableWord 32 0x0A50000F = some (.fence 0#4 0b1010#4 0b0101#4 0#5 0#5) := by decide
theorem test_decode_ecall : decodeTableWord 32 0x00000073 = some .ecall := by decide
theorem test_decode_ebreak : decodeTableWord 32 0x00100073 = some .ebreak := by decide
theorem test_decode_fenceTso : decodeTableWord 32 0x8330000F = some (.fenceTso 0#5 0#5) := by decide
theorem test_decode_fenceTso_fields : decodeTableWord 32 0x8332830F = some (.fenceTso 5#5 6#5) := by decide
theorem test_decode_pause : decodeTableWord 32 0x0100000F = some .pause := by decide
theorem test_decode_pause_rd : decodeTableWord 32 0x0100008F = some (.fence 0#4 1#4 0#4 0#5 1#5) := by decide

/-! ### One immediate bit at a time (section 2.9) -/

theorem test_immI_00000001 : decode 0x00100013#32 = .ok (.addi 0#5 0#5 0x00000001#32) := by decide
theorem test_immI_00000010 : decode 0x01000013#32 = .ok (.addi 0#5 0#5 0x00000010#32) := by decide
theorem test_immI_00000020 : decode 0x02000013#32 = .ok (.addi 0#5 0#5 0x00000020#32) := by decide
theorem test_immI_00000400 : decode 0x40000013#32 = .ok (.addi 0#5 0#5 0x00000400#32) := by decide
theorem test_immI_FFFFF800 : decode 0x80000013#32 = .ok (.addi 0#5 0#5 0xFFFFF800#32) := by decide
theorem test_immS_00000001 : decode 0x000020A3#32 = .ok (.sw 0#5 0#5 0x00000001#32) := by decide
theorem test_immS_00000010 : decode 0x00002823#32 = .ok (.sw 0#5 0#5 0x00000010#32) := by decide
theorem test_immS_00000020 : decode 0x02002023#32 = .ok (.sw 0#5 0#5 0x00000020#32) := by decide
theorem test_immS_00000400 : decode 0x40002023#32 = .ok (.sw 0#5 0#5 0x00000400#32) := by decide
theorem test_immS_FFFFF800 : decode 0x80002023#32 = .ok (.sw 0#5 0#5 0xFFFFF800#32) := by decide
theorem test_immB_00000002 : decode 0x00000163#32 = .ok (.beq 0#5 0#5 0x00000002#32) := by decide
theorem test_immB_00000010 : decode 0x00000863#32 = .ok (.beq 0#5 0#5 0x00000010#32) := by decide
theorem test_immB_00000020 : decode 0x02000063#32 = .ok (.beq 0#5 0#5 0x00000020#32) := by decide
theorem test_immB_00000400 : decode 0x40000063#32 = .ok (.beq 0#5 0#5 0x00000400#32) := by decide
theorem test_immB_00000800 : decode 0x000000E3#32 = .ok (.beq 0#5 0#5 0x00000800#32) := by decide
theorem test_immB_FFFFF000 : decode 0x80000063#32 = .ok (.beq 0#5 0#5 0xFFFFF000#32) := by decide
theorem test_immU_00001000 : decode 0x00001037#32 = .ok (.lui 0#5 0x00001000#32) := by decide
theorem test_immU_00080000 : decode 0x00080037#32 = .ok (.lui 0#5 0x00080000#32) := by decide
theorem test_immU_00100000 : decode 0x00100037#32 = .ok (.lui 0#5 0x00100000#32) := by decide
theorem test_immU_40000000 : decode 0x40000037#32 = .ok (.lui 0#5 0x40000000#32) := by decide
theorem test_immU_80000000 : decode 0x80000037#32 = .ok (.lui 0#5 0x80000000#32) := by decide
theorem test_immJ_00000002 : decode 0x0020006F#32 = .ok (.jal 0#5 0x00000002#32) := by decide
theorem test_immJ_00000400 : decode 0x4000006F#32 = .ok (.jal 0#5 0x00000400#32) := by decide
theorem test_immJ_00000800 : decode 0x0010006F#32 = .ok (.jal 0#5 0x00000800#32) := by decide
theorem test_immJ_00001000 : decode 0x0000106F#32 = .ok (.jal 0#5 0x00001000#32) := by decide
theorem test_immJ_00080000 : decode 0x0008006F#32 = .ok (.jal 0#5 0x00080000#32) := by decide
theorem test_immJ_FFF00000 : decode 0x8000006F#32 = .ok (.jal 0#5 0xFFF00000#32) := by decide

/-! ### Reserved words (section 2.10) -/

theorem test_reserved_00000000 : decode 0x00000000#32 = .error (.reserved 0x00000000#32) := by decide
theorem test_reserved_FFFFFFFF : decode 0xFFFFFFFF#32 = .error (.reserved 0xFFFFFFFF#32) := by decide
theorem test_reserved_00000011 : decode 0x00000011#32 = .error (.reserved 0x00000011#32) := by decide
theorem test_reserved_02009293 : decode 0x02009293#32 = .error (.reserved 0x02009293#32) := by decide
theorem test_reserved_40001293 : decode 0x40001293#32 = .error (.reserved 0x40001293#32) := by decide
theorem test_reserved_80005293 : decode 0x80005293#32 = .error (.reserved 0x80005293#32) := by decide
theorem test_reserved_20005293 : decode 0x20005293#32 = .error (.reserved 0x20005293#32) := by decide
theorem test_reserved_02000033 : decode 0x02000033#32 = .error (.reserved 0x02000033#32) := by decide
theorem test_reserved_40001033 : decode 0x40001033#32 = .error (.reserved 0x40001033#32) := by decide
theorem test_reserved_40002033 : decode 0x40002033#32 = .error (.reserved 0x40002033#32) := by decide
theorem test_reserved_00003003 : decode 0x00003003#32 = .error (.reserved 0x00003003#32) := by decide
theorem test_reserved_00006003 : decode 0x00006003#32 = .error (.reserved 0x00006003#32) := by decide
theorem test_reserved_00007003 : decode 0x00007003#32 = .error (.reserved 0x00007003#32) := by decide
theorem test_reserved_00003023 : decode 0x00003023#32 = .error (.reserved 0x00003023#32) := by decide
theorem test_reserved_00004023 : decode 0x00004023#32 = .error (.reserved 0x00004023#32) := by decide
theorem test_reserved_00002063 : decode 0x00002063#32 = .error (.reserved 0x00002063#32) := by decide
theorem test_reserved_00003063 : decode 0x00003063#32 = .error (.reserved 0x00003063#32) := by decide
theorem test_reserved_00001067 : decode 0x00001067#32 = .error (.reserved 0x00001067#32) := by decide
theorem test_reserved_0000100F : decode 0x0000100F#32 = .error (.reserved 0x0000100F#32) := by decide
theorem test_reserved_00200073 : decode 0x00200073#32 = .error (.reserved 0x00200073#32) := by decide
theorem test_reserved_000000F3 : decode 0x000000F3#32 = .error (.reserved 0x000000F3#32) := by decide
theorem test_reserved_00008073 : decode 0x00008073#32 = .error (.reserved 0x00008073#32) := by decide
theorem test_reserved_30200073 : decode 0x30200073#32 = .error (.reserved 0x30200073#32) := by decide
theorem test_reserved_10500073 : decode 0x10500073#32 = .error (.reserved 0x10500073#32) := by decide
theorem test_reserved_00001073 : decode 0x00001073#32 = .error (.reserved 0x00001073#32) := by decide
theorem test_reserved_C0002573 : decode 0xC0002573#32 = .error (.reserved 0xC0002573#32) := by decide
theorem test_reserved_0000000B : decode 0x0000000B#32 = .error (.reserved 0x0000000B#32) := by decide
theorem test_reserved_00000007 : decode 0x00000007#32 = .error (.reserved 0x00000007#32) := by decide
theorem test_reserved_0000001B : decode 0x0000001B#32 = .error (.reserved 0x0000001B#32) := by decide
theorem test_reserved_0000002F : decode 0x0000002F#32 = .error (.reserved 0x0000002F#32) := by decide

/-! ## One step: at most two vectors an instruction, from sections 2.1 to 2.8 -/

theorem test_addi_1 : gives (run [(6#5, 0x7FFFFFFF#32)] 0x00130293) 0x00001004#32 5#5 0x80000000#32 = true := by decide
theorem test_addi_2 : gives (run [(6#5, 0x00000010#32)] 0xFFF30313) 0x00001004#32 6#5 0x0000000F#32 = true := by decide
theorem test_slti_1 : gives (run [(6#5, 0x80000000#32)] 0xFFF32293) 0x00001004#32 5#5 0x00000001#32 = true := by decide
theorem test_slti_2 : gives (run [(6#5, 0xFFFFF800#32)] 0x80032293) 0x00001004#32 5#5 0x00000000#32 = true := by decide
theorem test_sltiu_1 : gives (run [(6#5, 0xFFFFFFFE#32)] 0xFFF33293) 0x00001004#32 5#5 0x00000001#32 = true := by decide
theorem test_sltiu_2 : gives (run [(6#5, 0xFFFFFFFF#32)] 0xFFF33293) 0x00001004#32 5#5 0x00000000#32 = true := by decide
theorem test_xori_1 : gives (run [(6#5, 0xA5A5A5A5#32)] 0xFFF34293) 0x00001004#32 5#5 0x5A5A5A5A#32 = true := by decide
theorem test_xori_2 : gives (run [(6#5, 0xFFFFFFFF#32)] 0x7FF34293) 0x00001004#32 5#5 0xFFFFF800#32 = true := by decide
theorem test_ori_1 : gives (run [(6#5, 0x00000001#32)] 0x80036293) 0x00001004#32 5#5 0xFFFFF801#32 = true := by decide
theorem test_andi_1 : gives (run [(6#5, 0xCAFEF00D#32)] 0x0FF37293) 0x00001004#32 5#5 0x0000000D#32 = true := by decide
theorem test_andi_2 : gives (run [(6#5, 0xCAFEF00D#32)] 0xF0037293) 0x00001004#32 5#5 0xCAFEF000#32 = true := by decide
theorem test_slli_1 : gives (run [(6#5, 0x80000001#32)] 0x00131293) 0x00001004#32 5#5 0x00000002#32 = true := by decide
theorem test_slli_2 : gives (run [(6#5, 0x00000001#32)] 0x01F31293) 0x00001004#32 5#5 0x80000000#32 = true := by decide
theorem test_srli_1 : gives (run [(6#5, 0x80000001#32)] 0x00135293) 0x00001004#32 5#5 0x40000000#32 = true := by decide
theorem test_srli_2 : gives (run [(6#5, 0x80000000#32)] 0x01F35293) 0x00001004#32 5#5 0x00000001#32 = true := by decide
theorem test_srai_1 : gives (run [(6#5, 0x80000001#32)] 0x40135293) 0x00001004#32 5#5 0xC0000000#32 = true := by decide
theorem test_srai_2 : gives (run [(6#5, 0xFFFFFF00#32)] 0x40435293) 0x00001004#32 5#5 0xFFFFFFF0#32 = true := by decide
theorem test_lui_1 : gives (run [] 0xFFFFF2B7) 0x00001004#32 5#5 0xFFFFF000#32 = true := by decide
theorem test_auipc_1 : gives (stateAt (dataCfg .little .trap) 0x80001000#32 [] 0x80000297) 0x80001004#32 5#5 0x00001000#32 = true := by decide
theorem test_auipc_2 : gives (stateAt (dataCfg .little .trap) 0x00000FFC#32 [] 0xFFFFF297) 0x00001000#32 5#5 0xFFFFFFFC#32 = true := by decide
theorem test_add_1 : gives (run [(6#5, 0x7FFFFFFF#32), (7#5, 0x00000001#32)] 0x007302B3) 0x00001004#32 5#5 0x80000000#32 = true := by decide
theorem test_add_2 : gives (run [(6#5, 0x40000001#32)] 0x00630333) 0x00001004#32 6#5 0x80000002#32 = true := by decide
theorem test_sub_1 : gives (run [(6#5, 0x00000000#32), (7#5, 0x00000001#32)] 0x407302B3) 0x00001004#32 5#5 0xFFFFFFFF#32 = true := by decide
theorem test_sub_2 : gives (run [(6#5, 0x00000005#32), (7#5, 0x00000005#32)] 0x407302B3) 0x00001004#32 5#5 0x00000000#32 = true := by decide
theorem test_sll_1 : gives (run [(6#5, 0xFFFFFFFF#32), (7#5, 0xFFFFFFE4#32)] 0x007312B3) 0x00001004#32 5#5 0xFFFFFFF0#32 = true := by decide
theorem test_sll_2 : gives (run [(6#5, 0x00000003#32)] 0x006312B3) 0x00001004#32 5#5 0x00000018#32 = true := by decide
theorem test_slt_1 : gives (run [(6#5, 0x80000000#32), (7#5, 0x7FFFFFFF#32)] 0x007322B3) 0x00001004#32 5#5 0x00000001#32 = true := by decide
theorem test_slt_2 : gives (run [(6#5, 0x7FFFFFFF#32), (7#5, 0x80000000#32)] 0x007322B3) 0x00001004#32 5#5 0x00000000#32 = true := by decide
theorem test_sltu_1 : gives (run [(6#5, 0x80000000#32), (7#5, 0x7FFFFFFF#32)] 0x007332B3) 0x00001004#32 5#5 0x00000000#32 = true := by decide
theorem test_sltu_2 : gives (run [(6#5, 0x7FFFFFFF#32), (7#5, 0x80000000#32)] 0x007332B3) 0x00001004#32 5#5 0x00000001#32 = true := by decide
theorem test_xor_1 : gives (run [(6#5, 0xFF00FF00#32), (7#5, 0x0FF00FF0#32)] 0x007342B3) 0x00001004#32 5#5 0xF0F0F0F0#32 = true := by decide
theorem test_srl_1 : gives (run [(6#5, 0x80000000#32), (7#5, 0x0000003F#32)] 0x007352B3) 0x00001004#32 5#5 0x00000001#32 = true := by decide
theorem test_srl_2 : gives (run [(6#5, 0x80000000#32), (7#5, 0x00000020#32)] 0x007352B3) 0x00001004#32 5#5 0x80000000#32 = true := by decide
theorem test_sra_1 : gives (run [(6#5, 0x80000000#32), (7#5, 0x0000001F#32)] 0x407352B3) 0x00001004#32 5#5 0xFFFFFFFF#32 = true := by decide
theorem test_sra_2 : gives (run [(6#5, 0x80000000#32), (7#5, 0x00000021#32)] 0x407352B3) 0x00001004#32 5#5 0xC0000000#32 = true := by decide
theorem test_or_1 : gives (run [(6#5, 0xFF00FF00#32), (7#5, 0x0FF00FF0#32)] 0x007362B3) 0x00001004#32 5#5 0xFFF0FFF0#32 = true := by decide
theorem test_and_1 : gives (run [(6#5, 0xFF00FF00#32), (7#5, 0x0FF00FF0#32)] 0x007372B3) 0x00001004#32 5#5 0x0F000F00#32 = true := by decide
theorem test_jal_1 : stops (run [(1#5, 0x0000AAAA#32)] 0x002000EF) .instructionAddressMisaligned 0x00001000#32 (some 0x00001002#32) = true := by decide
theorem test_jal_2 : gives (stateAt (dataCfg .little .trap) 0xFFFFFFFC#32 [] 0x7FC002EF) 0x000007F8#32 5#5 0x00000000#32 = true := by decide
theorem test_jalr_1 : gives (run [(6#5, 0x00002001#32)] 0x000300E7) 0x00002000#32 1#5 0x00001004#32 = true := by decide
theorem test_jalr_2 : gives (run [(6#5, 0x00002000#32)] 0x00430367) 0x00002004#32 6#5 0x00001004#32 = true := by decide
theorem test_beq_1 : gives (run [(6#5, 0x00000001#32), (7#5, 0x00000002#32)] 0x00730863) 0x00001004#32 6#5 0x00000001#32 = true := by decide
theorem test_beq_2 : gives (run [(6#5, 0x80000000#32), (7#5, 0x80000000#32)] 0x00730863) 0x00001010#32 6#5 0x80000000#32 = true := by decide
theorem test_bne_1 : gives (run [(6#5, 0x00000001#32), (7#5, 0x00000002#32)] 0x00731863) 0x00001010#32 6#5 0x00000001#32 = true := by decide
theorem test_bne_2 : gives (run [(6#5, 0x00000000#32), (7#5, 0x00000000#32)] 0x00731863) 0x00001004#32 6#5 0x00000000#32 = true := by decide
theorem test_blt_1 : gives (run [(6#5, 0xFFFFFFFF#32), (7#5, 0x00000000#32)] 0x00734863) 0x00001010#32 6#5 0xFFFFFFFF#32 = true := by decide
theorem test_blt_2 : gives (run [(6#5, 0x00000000#32), (7#5, 0xFFFFFFFF#32)] 0x00734863) 0x00001004#32 6#5 0x00000000#32 = true := by decide
theorem test_bge_1 : gives (run [(6#5, 0x7FFFFFFF#32), (7#5, 0x80000000#32)] 0x00735863) 0x00001010#32 6#5 0x7FFFFFFF#32 = true := by decide
theorem test_bge_2 : gives (run [(6#5, 0x80000000#32), (7#5, 0x7FFFFFFF#32)] 0x00735863) 0x00001004#32 6#5 0x80000000#32 = true := by decide
theorem test_bltu_1 : gives (run [(6#5, 0x00000000#32), (7#5, 0xFFFFFFFF#32)] 0x00736863) 0x00001010#32 6#5 0x00000000#32 = true := by decide
theorem test_bltu_2 : gives (run [(6#5, 0xFFFFFFFF#32), (7#5, 0x00000000#32)] 0x00736863) 0x00001004#32 6#5 0xFFFFFFFF#32 = true := by decide
theorem test_bgeu_1 : gives (run [(6#5, 0x00000000#32), (7#5, 0x00000000#32)] 0x00737863) 0x00001010#32 6#5 0x00000000#32 = true := by decide
theorem test_bgeu_2 : gives (run [(6#5, 0x00000001#32), (7#5, 0x00000002#32)] 0x00737863) 0x00001004#32 6#5 0x00000001#32 = true := by decide
theorem test_lb_1 : gives (stateAt (dataCfg .big .trap) 0x00001000#32 [(6#5, 0x00002000#32), (7#5, 0x11223344#32)] 0x00030283) 0x00001004#32 5#5 0xFFFFFF80#32 = true := by decide
theorem test_lb_2 : stops (stateAt (dataCfg .little .trap) 0x00001000#32 [(6#5, 0x00002000#32), (7#5, 0x11223344#32)] 0x00830283) .loadAccessFault 0x00001000#32 (some 0x00002008#32) = true := by decide
theorem test_lbu_1 : gives (stateAt (dataCfg .little .trap) 0x00001000#32 [(6#5, 0x00002000#32), (7#5, 0x11223344#32)] 0x00734283) 0x00001004#32 5#5 0x000000F7#32 = true := by decide
theorem test_lbu_2 : stops (stateAt (dataCfg .little .trap) 0x00001000#32 [(6#5, 0x00002000#32), (7#5, 0x11223344#32)] 0xFFF34283) .loadAccessFault 0x00001000#32 (some 0x00001FFF#32) = true := by decide
theorem test_lh_1 : gives (stateAt (dataCfg .little .trap) 0x00001000#32 [(6#5, 0x00002000#32), (7#5, 0x11223344#32)] 0x00031283) 0x00001004#32 5#5 0xFFFF9180#32 = true := by decide
theorem test_lh_2 : stops (stateAt (dataCfg .little .accessFault) 0x00001000#32 [(6#5, 0x00002000#32), (7#5, 0x11223344#32)] 0x00131283) .loadAccessFault 0x00001000#32 (some 0x00002001#32) = true := by decide
theorem test_lhu_1 : gives (stateAt (dataCfg .big .trap) 0x00001000#32 [(6#5, 0x00002000#32), (7#5, 0x11223344#32)] 0x00635283) 0x00001004#32 5#5 0x000066F7#32 = true := by decide
theorem test_lhu_2 : gives (stateAt (dataCfg .little .support) 0x00001000#32 [(6#5, 0x00002000#32), (7#5, 0x11223344#32)] 0x00335283) 0x00001004#32 5#5 0x00004473#32 = true := by decide
theorem test_lw_1 : gives (stateAt (dataCfg .big .support) 0x00001000#32 [(6#5, 0x00002000#32), (7#5, 0x11223344#32)] 0x00232283) 0x00001004#32 5#5 0xA2734455#32 = true := by decide
theorem test_lw_2 : stops (stateAt (dataCfg .little .trap) 0x00001000#32 [(6#5, 0x00002000#32), (7#5, 0x11223344#32)] 0x00132283) .loadAddressMisaligned 0x00001000#32 (some 0x00002001#32) = true := by decide
theorem test_sb_1 : leaves (stateAt (dataCfg .big .trap) 0x00001000#32 [(6#5, 0x00002000#32), (7#5, 0x11223344#32)] 0x007303A3) 0x00001004#32 0x00002004#32 0x44665544#32 = true := by decide
theorem test_sb_2 : stops (stateAt (dataCfg .little .trap) 0x00001000#32 [(6#5, 0x00002000#32), (7#5, 0x11223344#32)] 0x00730423) .storeAccessFault 0x00001000#32 (some 0x00002008#32) = true := by decide
theorem test_sh_1 : leaves (stateAt (dataCfg .little .support) 0x00001000#32 [(6#5, 0x00002000#32), (7#5, 0x11223344#32)] 0x007310A3) 0x00001004#32 0x00002000#32 0x73334480#32 = true := by decide
theorem test_sh_2 : leaves (stateAt (dataCfg .big .trap) 0x00001000#32 [(6#5, 0x00002000#32), (7#5, 0x11223344#32)] 0x00731323) 0x00001004#32 0x00002004#32 0x44335544#32 = true := by decide
theorem test_sw_1 : leaves (stateAt (dataCfg .little .trap) 0x00001000#32 [(6#5, 0x00002000#32), (7#5, 0x11223344#32)] 0x00732023) 0x00001004#32 0x00002000#32 0x11223344#32 = true := by decide
theorem test_sw_2 : stops (stateAt (dataCfg .big .support) 0x00001000#32 [(6#5, 0x00002000#32), (7#5, 0x11223344#32)] 0x00732323) .storeAccessFault 0x00001000#32 (some 0x00002006#32) = true := by decide
theorem test_fence_1 : gives (run [(6#5, 0x00000009#32)] 0x0332830F) 0x00001004#32 6#5 0x00000009#32 = true := by decide
theorem test_fence_2 : gives (run [(6#5, 0x00000009#32)] 0x4330000F) 0x00001004#32 6#5 0x00000009#32 = true := by decide
theorem test_fenceTso_1 : gives (run [(6#5, 0x00000009#32)] 0x8330000F) 0x00001004#32 6#5 0x00000009#32 = true := by decide
theorem test_pause_1 : gives (run [(6#5, 0x00000009#32)] 0x0100000F) 0x00001004#32 6#5 0x00000009#32 = true := by decide
theorem test_ecall_1 : stops (run [] 0x00000073) .environmentCall 0x00001000#32 none = true := by decide
theorem test_ecall_2 : gives (withEnv (run [(10#5, 6#32)] 0x00000073) callEnv) 0x00001004#32 10#5 7#32 = true := by decide
theorem test_ebreak_1 : stops (run [] 0x00100073) .breakpoint 0x00001000#32 (some 0x00001000#32) = true := by decide
theorem test_ebreak_2 : leaves (withEnv (run [(6#5, 0x2000#32)] 0x00100073) pokeEnv) 0x00001008#32 0x2000#32 0x73A29102#32 = true := by decide
theorem test_environment_stops : stops (withEnv (run [] 0x00100073) callEnv) .breakpoint 0x00001000#32 (some 0x00001000#32) = true := by decide
theorem test_reserved_1 : stops (run [] 0x00000000) .illegalInstruction 0x00001000#32 (some 0x00000000#32) = true := by decide
theorem test_fetch_1 : stops (State.launch (dataCfg .little .trap) 0x1000#32 (Vector.replicate 32 0#32) dataMem) .instructionAccessFault 0x00001000#32 (some 0x00001000#32) = true := by decide

/-! ## The refusals -/

/-- An environment where 0x2004 to 0x2007 are a device's. -/
def ioCfg : Eei := { dataCfg .little .trap with io := [{ base := 0x2004#32, size := 4 }], reservedInsn := .unspecified }

theorem test_refuses_device :
    refuses (stateAt ioCfg 0x1000#32 [(6#5, 0x2000#32)] 0x00432283) (.deviceAccess .load 0x2004#32) = true := by decide
theorem test_refuses_reserved : refuses (stateAt ioCfg 0x1000#32 [] 0x00000000) (.reservedEncoding 0#32) = true := by decide
theorem test_refuses_stored :
    refuses { run [] 0x00000013 with stored := [0x1003] } (.fetchOfStoredBytes 0x1000#32) = true := by decide

/-! ## A store marks its bytes, and reset runs a loaded word -/

theorem test_store_marks :
    (match step (run [(6#5, 0x2000#32)] 0x00732023) with
      | .next t => wasStored t 0x2003#32 && !wasStored t 0x2004#32
      | .fault _ => false
      | .refused _ => false) = true := by decide
theorem test_reset_runs : gives (State.reset.withFetchWord 32 0x00730293) 0x00001004#32 5#5 0x00000007#32 = true := by decide

/-! ## Witnesses: the hypotheses of each statement hold together somewhere -/

/-- NOP at 0x1000 with the data memory, `x6` at its base, `x7` a value. -/
def w0 : State := run [(6#5, 0x2000#32), (7#5, 0x11223344#32)] 0x00000013

/-- The same in a big-endian environment that supports misaligned accesses. -/
def wBig : State := stateAt (dataCfg .big .support) 0x1000#32 [(6#5, 0x2000#32), (7#5, 0x11223344#32)] 0x00000013

/-- The same where misaligned accesses raise access faults. -/
def wFault : State := stateAt (dataCfg .little .accessFault) 0x1000#32 [(6#5, 0x2000#32), (7#5, 0x11223344#32)] 0x00000013

/-- ECALL at 0x1000 in an environment that resumes each ECALL. -/
def wCall : State := withEnv (run [] 0x00000073) callEnv

/-- EBREAK at 0x1000 in an environment that resumes from it. -/
def wPoke : State := withEnv (run [(6#5, 0x2000#32)] 0x00100073) pokeEnv

/-- What that environment answers to ECALL. -/
def onward : Resumption := { regWrites := [(10#5, 1#32), (0#5, 9#32)], memWrites := [], pc := 0x1004#32 }

/-- Resumes at the instruction after the trapping one, whatever the trap. -/
def skipEnv : EnvTrap := .resume { regWrites := [], memWrites := [], pc := .add .trapPc (.const 4#32) }

/-- A device at 0x2004, reserved words unspecified. -/
def wIo : State := stateAt ioCfg 0x1000#32 [(6#5, 0x2000#32)] 0x00000013

/-- A word with its state, for the statements about a step. -/
def wWord (w : Nat) : State := run [(6#5, 0x2000#32), (7#5, 0x11223344#32)] w

theorem fetches_iff (s : State) (w : Word) :
    Fetches s w ↔ (pmaLegal s.cfg s.pc .word .fetch && !wasStored s s.pc && !wasStored s (s.pc + 1#32) &&
      !wasStored s (s.pc + 2#32) && !wasStored s (s.pc + 3#32) && byteAt s s.pc == w.extractLsb' 0 8 &&
      byteAt s (s.pc + 1#32) == w.extractLsb' 8 8 && byteAt s (s.pc + 2#32) == w.extractLsb' 16 8 &&
      byteAt s (s.pc + 3#32) == w.extractLsb' 24 8) = true := by
  simp [Fetches, FetchesUnstored, and_assoc]

/-- Both premises of `Traps` are met: an environment that stops, and one that resumes. -/
theorem witness_Traps : environmentAnswer w0 { id := .loadAccessFault, pc := w0.pc, value := some 0x2008#32 } = none ∧
    environmentAnswer (withEnv w0 skipEnv) { id := .loadAccessFault, pc := w0.pc, value := some 0x2008#32 } =
      some { regWrites := [], memWrites := [], pc := 0x1004#32 } := by decide

/-- An environment that resumes at the next instruction does so at multiples of 4. -/
theorem after_aligned {s : State} {x : Trap} (h : x.pc.toNat % 4 = 0) :
    (envValue s x (.add .trapPc (.const 4#32))).toNat % 4 = 0 := by
  simp only [envValue]
  bv_omega

theorem callEnv_aligned : EnvironmentAligned callEnv := by
  intro s x p hx hp
  simp only [callEnv, chosenPlan] at hp
  split at hp
  · cases hp
    exact after_aligned hx
  · cases hp

theorem witness_DecodeOfEncode : (Instr.beq 1#5 2#5 0xFFFFF000#32).wf = true ∧ (Instr.lui 1#5 0xFFFFF000#32).wf = true ∧
    (Instr.jal 1#5 0x000FFFFE#32).wf = true ∧ (Instr.fence 15#4 15#4 15#4 31#5 31#5).wf = true := by decide

theorem witness_EncodeOfDecode : decode 0xFFFF8F8F#32 = .ok (.fence 15#4 15#4 15#4 31#5 31#5) := by decide

theorem witness_ReservedWordsByPlace : (0x00000010#32 : Word).extractLsb' 0 2 ≠ 0b11#2 := by decide

theorem witness_InvariantAtLaunch : (0xFFFFFFFC#32 : Word).toNat % 4 = 0 ∧ dataMem.wf = true ∧ EnvironmentAligned callEnv :=
  ⟨by decide, by decide, callEnv_aligned⟩

theorem witness_InvariantKept : RunInvariant w0 ∧ ∃ t, step w0 = .next t :=
  ⟨⟨by decide, by decide, by decide, by decide, by decide, fun _ _ _ _ hp => nomatch hp⟩, _, rfl⟩

/-- A step that stores, in a run that has stored. -/
theorem witness_InvariantKept_store : RunInvariant { wWord 0x00732023 with stored := [0x2004] } ∧
    ∃ t, step { wWord 0x00732023 with stored := [0x2004] } = .next t :=
  ⟨⟨by decide, by decide, by decide, by decide, by decide, fun _ _ _ _ hp => nomatch hp⟩, _, rfl⟩

/-- A step from which the environment resumes. -/
theorem witness_InvariantKept_resume : RunInvariant wCall ∧ ∃ t, step wCall = .next t :=
  ⟨⟨by decide, by decide, by decide, by decide, by decide, callEnv_aligned⟩, _, rfl⟩

theorem witness_PcStaysAligned : wCall.pc.toNat % 4 = 0 ∧ EnvironmentAligned wCall.cfg.envTrap ∧ ∃ t, step wCall = .next t :=
  ⟨by decide, callEnv_aligned, _, rfl⟩

theorem witness_PcStaysAligned_target : transferTarget w0 (.jalr 1#5 6#5 3#32) = some 0x2002#32 ∧
    (0x2002#32 : Word).toNat % 4 ≠ 0 := by decide

theorem witness_StepRunsDecoded : Fetches w0 0x00000013#32 ∧ decode 0x00000013#32 = .ok (.addi 0#5 0#5 0#32) :=
  ⟨(fetches_iff _ _).2 (by decide), by decide⟩

theorem witness_LoadedWordRunsNext : decodeTableWord 7 0x00000037 = some (.lui 0#5 0#32) ∧
    pmaLegal w0.cfg w0.pc .word .fetch = true ∧ pmaLegal w0.cfg 0x1004#32 .word .fetch = false := by decide

theorem witness_AdvanceOfPc : exceptionOf w0 (.beq 6#5 7#5 8#32) = none ∧ transferTarget w0 (.beq 6#5 7#5 8#32) = none ∧
    (∃ t, exec (.beq 6#5 7#5 8#32) w0 = .next t) :=
  ⟨by decide, by decide, _, rfl⟩

theorem witness_AdvanceOfPc_target : exceptionOf w0 (.bne 6#5 7#5 8#32) = none ∧
    transferTarget w0 (.bne 6#5 7#5 8#32) = some 0x1008#32 ∧ (∃ t, exec (.bne 6#5 7#5 8#32) w0 = .next t) :=
  ⟨by decide, by decide, _, rfl⟩

theorem witness_AdvanceOfPc_fault : exceptionOf w0 .ebreak = some (.breakpoint, some 0x1000#32) ∧
    ∃ x, exec .ebreak w0 = .fault (.trap x) :=
  ⟨by decide, _, rfl⟩

theorem witness_EnvironmentFixed : Fetches w0 0x00000013#32 ∧ wordException w0 0x00000013#32 = none ∧ ∃ t, step w0 = .next t :=
  ⟨(fetches_iff _ _).2 (by decide), by decide, _, rfl⟩

theorem witness_ZeroRegister : (w0.pc + 0xFFF00000#32).toNat % 4 = 0 ∧
    transferTarget w0 (.jalr 0#5 6#5 1#32) = some 0x2000#32 ∧ (0x2000#32 : Word).toNat % 4 = 0 ∧
    accessException w0 .load .word (effectiveAddr w0 6#5 1#32) = some (.loadAddressMisaligned, some 0x2001#32) ∧
    accessException w0 .load .byte (effectiveAddr w0 6#5 8#32) = some (.loadAccessFault, some 0x2008#32) := by decide

theorem witness_LoadToZeroStillLoads : (loadsOf .half 0#5 6#5 0#32)[1]? = some (.lhu 0#5 6#5 0#32) ∧
    (loadsOf .half 5#5 6#5 0#32)[1]? = some (.lhu 5#5 6#5 0#32) ∧ accessible w0 (effectiveAddr w0 6#5 0#32) .half .load = true ∧
    accessible w0 (effectiveAddr w0 6#5 1#32) .half .load = false ∧
    accessible w0 (effectiveAddr w0 6#5 8#32) .half .load = false := by decide

theorem witness_IntegerNeverTraps : Fetches (wWord 0x407302B3) 0x407302B3#32 ∧ decode 0x407302B3#32 = .ok (.sub 5#5 6#5 7#5) ∧
    integerDest (.sub 5#5 6#5 7#5) = some 5#5 :=
  ⟨(fetches_iff _ _).2 (by decide), by decide, by decide⟩

theorem witness_JumpAndLink : (w0.pc + 0x000FFFFC#32).toNat % 4 = 0 ∧ (w0.pc + 0x000FFFFE#32).toNat % 4 ≠ 0 := by decide

theorem witness_JumpAndLinkRegister : (readReg w0 6#5 + 1#32).getLsbD 1 = false ∧ (readReg w0 6#5 + 2#32).getLsbD 1 = true ∧
    (readReg w0 6#5 + 0xFFFFFFFF#32).getLsbD 1 = true := by decide

/-- Each branch condition holds of some registers and fails of others, with an aligned and a misaligned target. -/
theorem witness_ConditionalBranches :
    (readReg w0 6#5 = readReg w0 6#5 ∧ ¬ readReg w0 6#5 = readReg w0 7#5) ∧
    (¬ (readReg w0 6#5).toInt < (readReg w0 6#5).toInt ∧ (readReg w0 6#5).toInt < (readReg w0 7#5).toInt) ∧
    ((readReg w0 6#5).toInt ≤ (readReg w0 6#5).toInt ∧ ¬ (readReg w0 7#5).toInt ≤ (readReg w0 6#5).toInt) ∧
    (¬ (readReg w0 6#5).toNat < (readReg w0 6#5).toNat ∧ (readReg w0 0#5).toNat < (readReg w0 7#5).toNat) ∧
    ((readReg w0 6#5).toNat ≤ (readReg w0 6#5).toNat ∧ ¬ (readReg w0 7#5).toNat ≤ (readReg w0 0#5).toNat) ∧
    (w0.pc + 0xFFFFF000#32).toNat % 4 = 0 ∧ (w0.pc + 0x00000FFE#32).toNat % 4 ≠ 0 := by decide

theorem witness_MisalignedTargetBelongsToJump : transferTarget w0 (.jal 1#5 2#32) = some 0x1002#32 ∧
    (0x1002#32 : Word).toNat % 4 ≠ 0 ∧ transferTarget w0 (.jalr 1#5 6#5 3#32) = some 0x2002#32 ∧
    transferTarget w0 (.bgeu 6#5 7#5 2#32) = none := by decide

theorem witness_FaultAtTargetBelongsToTarget : transferTarget w0 (.jal 1#5 4#32) = some 0x1004#32 ∧
    (0x1004#32 : Word).toNat % 4 = 0 ∧ pmaLegal w0.cfg 0x1004#32 .word .fetch = false ∧
    transferTarget w0 (.jalr 1#5 6#5 0#32) = some 0x2000#32 ∧ pmaLegal w0.cfg 0x2000#32 .word .fetch = false := by decide

theorem witness_LoadsRead : accessible w0 (effectiveAddr w0 6#5 7#32) .byte .load = true ∧
    accessible w0 (effectiveAddr w0 6#5 6#32) .half .load = true ∧ accessible w0 (effectiveAddr w0 6#5 4#32) .word .load = true ∧
    accessible wBig (effectiveAddr wBig 6#5 3#32) .word .load = true ∧
    accessException w0 .load .byte (effectiveAddr w0 6#5 8#32) = some (.loadAccessFault, some 0x2008#32) ∧
    accessException w0 .load .half (effectiveAddr w0 6#5 7#32) = some (.loadAddressMisaligned, some 0x2007#32) ∧
    accessException wFault .load .word (effectiveAddr wFault 6#5 1#32) = some (.loadAccessFault, some 0x2001#32) ∧
    accessException wBig .load .word (effectiveAddr wBig 6#5 5#32) = some (.loadAccessFault, some 0x2005#32) := by decide

theorem witness_StoresWrite : accessible w0 (effectiveAddr w0 6#5 7#32) .byte .store = true ∧
    accessible w0 (effectiveAddr w0 6#5 6#32) .half .store = true ∧ accessible w0 (effectiveAddr w0 6#5 4#32) .word .store = true ∧
    accessible wBig (effectiveAddr wBig 6#5 4#32) .word .store = true ∧
    accessException w0 .store .byte (effectiveAddr w0 6#5 0xFFFFFFFF#32) = some (.storeAccessFault, some 0x1FFF#32) ∧
    accessException w0 .store .half (effectiveAddr w0 6#5 1#32) = some (.storeAddressMisaligned, some 0x2001#32) ∧
    accessException wFault .store .word (effectiveAddr wFault 6#5 2#32) = some (.storeAccessFault, some 0x2002#32) := by decide

theorem witness_LittleEndianOrder : w0.cfg.endian = .little ∧ accessible w0 (effectiveAddr w0 6#5 0#32) .word .store = true ∧
    accessible w0 (effectiveAddr w0 6#5 0#32) .word .load = true ∧ (5#5 : Reg) ≠ 0#5 := by decide

theorem witness_BigEndianOrder : wBig.cfg.endian = .big ∧ accessible wBig (effectiveAddr wBig 6#5 1#32) .word .store = true ∧
    accessible wBig (effectiveAddr wBig 6#5 1#32) .word .load = true ∧ (5#5 : Reg) ≠ 0#5 := by decide

theorem witness_ByteAddressInvariance : (5#5 : Reg) ≠ 0#5 ∧ accessible w0 (effectiveAddr w0 6#5 7#32) .byte .store = true ∧
    accessible w0 (effectiveAddr w0 6#5 7#32) .byte .load = true := by decide

theorem witness_ByteAddressInvariance_step : ∃ t, step w0 = .next t := ⟨_, rfl⟩

theorem witness_MixedWidthAccess : readReg w0 7#5 = 0x11223344#32 ∧ (5#5 : Reg) ≠ 0#5 ∧
    accessible w0 (readReg w0 6#5) .word .store = true ∧ accessible w0 (readReg w0 6#5) .half .load = true ∧
    ∀ k : Nat, k < 4 → accessible w0 (readReg w0 6#5 + BitVec.ofNat 32 k) .byte .load = true := by decide

/-- A halfword store into the middle of a word that is then loaded, big-endian: bytes inside and outside the store. -/
theorem witness_MixedWidthAccess_overlap : (5#5 : Reg) ≠ 0#5 ∧
    accessible wBig (effectiveAddr wBig 6#5 1#32) .half .store = true ∧
    accessible wBig (effectiveAddr wBig 6#5 0#32) .word .load = true ∧
    effectiveAddr wBig 6#5 0#32 + BitVec.ofNat 32 1 = effectiveAddr wBig 6#5 1#32 + BitVec.ofNat 32 0 ∧
    effectiveAddr wBig 6#5 0#32 + BitVec.ofNat 32 2 = effectiveAddr wBig 6#5 1#32 + BitVec.ofNat 32 1 ∧
    ∀ j : Nat, j < widthBytes .half →
      effectiveAddr wBig 6#5 0#32 + BitVec.ofNat 32 3 ≠ effectiveAddr wBig 6#5 1#32 + BitVec.ofNat 32 j := by decide

theorem witness_LoadAfterStore : (6#5 : Reg) ≠ 0#5 ∧ accessible wBig (effectiveAddr wBig 6#5 3#32) .half .store = true ∧
    accessible wBig (effectiveAddr wBig 6#5 3#32) .half .load = true := by decide

theorem witness_MisalignedAccesses :
    (dataAccess w0 (.lw 5#5 6#5 1#32) = some (.load, .word, 0x2001#32) ∧ (0x2001#32 : Word).toNat % widthBytes .word ≠ 0 ∧
      misalignedPolicy w0.cfg 0x2001#32 .word .load = .trap) ∧
    (dataAccess wFault (.sh 6#5 7#5 1#32) = some (.store, .half, 0x2001#32) ∧ (0x2001#32 : Word).toNat % widthBytes .half ≠ 0 ∧
      misalignedPolicy wFault.cfg 0x2001#32 .half .store = .accessFault) ∧
    (dataAccess wBig (.sw 6#5 7#5 3#32) = some (.store, .word, 0x2003#32) ∧ (0x2003#32 : Word).toNat % widthBytes .word ≠ 0 ∧
      misalignedPolicy wBig.cfg 0x2003#32 .word .store = .support ∧ pmaLegal wBig.cfg 0x2003#32 .word .store = true ∧
      touchesIO wBig.cfg 0x2003#32 .word = false) := by decide

/-- The policy per access (`20_memory.md` rule R49, last item): the line that takes halfword loads leaves words and stores alone. -/
theorem test_misaligned_per_access :
    let c := { w0.cfg with misalignedRules :=
      [{ region := { base := 0x2000#32, size := 4 }, load := true, store := false, half := true, word := false, policy := .support }] }
    misalignedPolicy c 0x2001#32 .half .load = .support ∧ misalignedPolicy c 0x2001#32 .word .load = .trap ∧
    misalignedPolicy c 0x2001#32 .half .store = .trap ∧ misalignedPolicy c 0x2005#32 .half .load = .trap := by decide

theorem witness_AlignedNeverMisaligned : dataAccess w0 (.lw 5#5 6#5 8#32) = some (.load, .word, 0x2008#32) ∧
    (0x2008#32 : Word).toNat % widthBytes .word = 0 ∧ (∃ x, exec (.lw 5#5 6#5 8#32) w0 = .fault (.trap x)) :=
  ⟨by decide, by decide, _, rfl⟩

/-- The same access where the environment resumes from it. -/
theorem witness_AlignedNeverMisaligned_resume :
    dataAccess (withEnv w0 skipEnv) (.lw 5#5 6#5 8#32) = some (.load, .word, 0x2008#32) ∧
    ∃ t, exec (.lw 5#5 6#5 8#32) (withEnv w0 skipEnv) = .next t ∧
      t.reported = some { id := .loadAccessFault, pc := 0x1000#32, value := some 0x2008#32 } ∧
      t.reported ≠ (withEnv w0 skipEnv).reported :=
  ⟨by decide, _, rfl, by decide, by decide⟩

theorem witness_IllegalAccessFaults :
    (dataAccess w0 (.sw 6#5 7#5 8#32) = some (.store, .word, 0x2008#32) ∧ pmaLegal w0.cfg 0x2008#32 .word .store = false ∧
      (0x2008#32 : Word).toNat % widthBytes .word = 0) ∧
    (dataAccess wBig (.lw 5#5 6#5 5#32) = some (.load, .word, 0x2005#32) ∧ pmaLegal wBig.cfg 0x2005#32 .word .load = false ∧
      misalignedPolicy wBig.cfg 0x2005#32 .word .load = .support) := by decide

theorem witness_OnlyStoresWriteMemory : exceptionOf w0 (.lw 5#5 6#5 0#32) = none ∧ (∃ t, exec (.lw 5#5 6#5 0#32) w0 = .next t) ∧
    ∀ n ea, dataAccess w0 (.lw 5#5 6#5 0#32) ≠ some (.store, n, ea) :=
  ⟨by decide, ⟨_, rfl⟩, fun n ea h => by simp [dataAccess] at h⟩

theorem witness_DeviceAccessRefused : dataAccess wIo (.lw 5#5 6#5 4#32) = some (.load, .word, 0x2004#32) ∧
    exceptionOf wIo (.lw 5#5 6#5 4#32) = none ∧ touchesIO wIo.cfg 0x2004#32 .word = true := by decide

theorem witness_EveryFenceWordExecutes : Fetches (wWord 0xFFFF8F8F) 0xFFFF8F8F#32 ∧
    0xFFFF8F8F#32 &&& 0x0000707F#32 = 0x0000000F#32 :=
  ⟨(fetches_iff _ _).2 (by decide), by decide⟩

theorem witness_FenceModes : ¬ ((0b1000#4 : BitVec 4) = 0b1000#4 ∧ (0b0010#4 : BitVec 4) = 0b0011#4 ∧ (0b0011#4 : BitVec 4) = 0b0011#4) := by
  decide

theorem witness_HintsChangeOnlyPc : Fetches (wWord 0x4063D033) 0x4063D033#32 ∧ HintWord 0x4063D033#32 .standard := by
  refine ⟨(fetches_iff _ _).2 (by decide), .inl ?_⟩
  unfold StandardIntegerHint HasBits
  decide

theorem witness_HintsChangeOnlyPc_custom : Fetches (wWord 0x01F01013) 0x01F01013#32 ∧ HintWord 0x01F01013#32 .custom := by
  refine ⟨(fetches_iff _ _).2 (by decide), ?_⟩
  change CustomHint _
  unfold CustomHint HasBits
  decide

theorem witness_HintsChangeOnlyPc_fence : Fetches (wWord 0x0030000F) 0x0030000F#32 ∧ HintWord 0x0030000F#32 .standard := by
  refine ⟨(fetches_iff _ _).2 (by decide), .inr ?_⟩
  unfold StandardFenceHint HasBits
  decide

theorem witness_HintsChangeOnlyPc_named : Fetches (wWord 0x00200033) 0x00200033#32 ∧ HintWord 0x00200033#32 .ntlP1 ∧
    Fetches (wWord 0x00300033) 0x00300033#32 ∧ HintWord 0x00300033#32 .ntlPall ∧
    Fetches (wWord 0x00400033) 0x00400033#32 ∧ HintWord 0x00400033#32 .ntlS1 ∧
    Fetches (wWord 0x00500033) 0x00500033#32 ∧ HintWord 0x00500033#32 .ntlAll ∧
    Fetches (wWord 0x0100000F) 0x0100000F#32 ∧ HintWord 0x0100000F#32 .pause :=
  ⟨(fetches_iff _ _).2 (by decide), rfl, (fetches_iff _ _).2 (by decide), rfl, (fetches_iff _ _).2 (by decide), rfl,
    (fetches_iff _ _).2 (by decide), rfl, (fetches_iff _ _).2 (by decide), rfl⟩

theorem witness_NopChangesOnlyPc : Fetches w0 0x00000013#32 := (fetches_iff _ _).2 (by decide)

theorem witness_OtherNops : integerDest (.addi 0#5 6#5 5#32) = some 0#5 ∧ (Instr.addi 0#5 6#5 5#32).wf = true ∧
    encode (.addi 0#5 6#5 5#32) ≠ 0x00000013#32 := by decide

theorem witness_Pseudoinstructions : (w0.pc + 0xFFFFF000#32).toNat % 4 = 0 := by decide

theorem witness_SystemCallsResume :
    environmentAnswer wCall { id := .environmentCall, pc := wCall.pc, value := none } = some onward ∧
    (environmentAnswer wPoke { id := .breakpoint, pc := wPoke.pc, value := some wPoke.pc }).isSome = true := by decide

theorem witness_TrapsResume : Fetches wCall 0x00000073#32 ∧ wordException wCall 0x00000073#32 = some (.environmentCall, none) ∧
    environmentAnswer wCall { id := .environmentCall, pc := wCall.pc, value := none } = some onward :=
  ⟨(fetches_iff _ _).2 (by decide), by decide, by decide⟩

theorem witness_TrapsResume_fetch : pmaLegal { withEnv w0 skipEnv with pc := 0x1004#32 }.cfg 0x1004#32 .word .fetch = false ∧
    environmentAnswer { withEnv w0 skipEnv with pc := 0x1004#32 }
      { id := .instructionAccessFault, pc := 0x1004#32, value := some 0x1004#32 } =
        some { regWrites := [], memWrites := [], pc := 0x1008#32 } := by decide

/-- Two states, of different `pc` and mark, that the environment cannot tell apart. -/
theorem witness_TrapsResume_function : SameRegs w0 { w0 with pc := 0x2000#32, stored := [1] } ∧
    (∀ a : Word, byteAt { w0 with pc := 0x2000#32, stored := [1] } a = byteAt w0 a) ∧
    { w0 with pc := 0x2000#32, stored := [1] }.cfg.envTrap = w0.cfg.envTrap :=
  ⟨fun _ => rfl, fun _ => rfl, rfl⟩

theorem witness_FetchAccessFault : pmaLegal { w0 with pc := 0x1004#32 }.cfg 0x1004#32 .word .fetch = false := by decide

theorem witness_ReservedWordTraps : Fetches (wWord 0x02000033) 0x02000033#32 ∧
    decode 0x02000033#32 = .error (.reserved 0x02000033#32) ∧ (wWord 0x02000033).cfg.reservedInsn = .illegalInstruction :=
  ⟨(fetches_iff _ _).2 (by decide), by decide, by decide⟩

theorem witness_ReservedWordTraps_unspecified : Fetches (stateAt ioCfg 0x1000#32 [] 0x02000033) 0x02000033#32 ∧
    decode 0x02000033#32 = .error (.reserved 0x02000033#32) ∧
    (stateAt ioCfg 0x1000#32 [] 0x02000033).cfg.reservedInsn = .unspecified ∧ (0x00000001#32 : Word).extractLsb' 0 2 ≠ 0b11#2 :=
  ⟨(fetches_iff _ _).2 (by decide), by decide, by decide, by decide⟩

theorem witness_ExceptionsExactly : pmaLegal (State.launch (dataCfg .little .trap) 0x1000#32 (Vector.replicate 32 0#32) dataMem).cfg
      0x1000#32 .word .fetch = false ∧
    (Fetches (wWord 0x00132283) 0x00132283#32 ∧
      wordException (wWord 0x00132283) 0x00132283#32 = some (.loadAddressMisaligned, some 0x2001#32)) ∧
    (Fetches w0 0x00000013#32 ∧ wordException w0 0x00000013#32 = none) :=
  ⟨by decide, ⟨(fetches_iff _ _).2 (by decide), by decide⟩, (fetches_iff _ _).2 (by decide), by decide⟩

theorem witness_FaultsReportOwnPc : ∃ f, step (wWord 0x00100073) = .fault f := ⟨_, rfl⟩

theorem witness_FetchOfStoredBytesRefused : pmaLegal { w0 with stored := [0x1003] }.cfg w0.pc .word .fetch = true ∧
    ¬ FetchesUnstored { w0 with stored := [0x1003] } :=
  ⟨by decide, fun h => absurd h.2.2.2 (by decide)⟩

theorem witness_FetchOfStoredBytesRefused_store : exceptionOf w0 (storeOf .word 6#5 7#5 4#32) = none ∧
    (∃ t, exec (storeOf .word 6#5 7#5 4#32) w0 = .next t) ∧ 0x2007#32 ∈ accessAddrs (effectiveAddr w0 6#5 4#32) .word :=
  ⟨by decide, ⟨_, rfl⟩, by decide⟩

theorem witness_FetchOfStoredBytesRefused_kept : wasStored { w0 with stored := [0x2000] } 0x2000#32 = true ∧
    ∃ t, step { w0 with stored := [0x2000] } = .next t := ⟨by decide, _, rfl⟩

/-- Each of the three refusals happens. -/
theorem witness_NothingElseRefused_cases :
    step { w0 with stored := [0x1003] } = .refused (.fetchOfStoredBytes 0x1000#32) ∧
    step (stateAt ioCfg 0x1000#32 [] 0x02000033) = .refused (.reservedEncoding 0x02000033#32) ∧
    step (stateAt ioCfg 0x1000#32 [(6#5, 0x2000#32)] 0x00432283) = .refused (.deviceAccess .load 0x2004#32) :=
  ⟨rfl, rfl, rfl⟩

theorem witness_NothingElseRefused : w0.cfg.io = [] ∧ w0.cfg.reservedInsn = .illegalInstruction ∧ FetchesUnstored w0 :=
  ⟨by decide, by decide, by decide, by decide, by decide, by decide⟩

end Sys2Proof.Tests
end

section
/-! What a step does with the word it fetches, and what an instruction that raises nothing leaves of the environment. -/

namespace Sys2Proof.Machine

open Sys2Proof

/-! ## The fetched word -/

/-- The bytes at `pc` make the word the step fetches (`20_memory.md` rules R47, R54). -/
theorem fetch_of_fetches {s : State} {w : Word} (h : Fetches s w) : fetch s = .ok w := by
  obtain ⟨hlegal, ⟨hs0, hs1, hs2, hs3⟩, hb0, hb1, hb2, hb3⟩ := h
  have hword : instAt s.mem s.pc = w := by
    simp only [byteAt] at hb0 hb1 hb2 hb3
    rw [instAt, hb0, hb1, hb2, hb3, instWord_instBytes]
  simp [fetch, hlegal, accessAddrs, hs0, hs1, hs2, hs3, hword]

theorem step_of_fetches {s : State} {w : Word} (h : Fetches s w) : step s = runWord s w := by
  rw [step, fetch_of_fetches h, andThen]

theorem runWord_of_decode {w : Word} {i : Instr} (s : State) (h : decode w = .ok i) : runWord s w = exec i s := by
  rw [runWord, h]

/-! ## Where nothing is raised -/

/-- A data access raises nothing exactly where the address map admits it and it is aligned or supported
(`20_memory.md` rules R48, R52, R53). -/
theorem accessException_none_iff (s : State) (k : AccessKind) (n : Width) (ea : Word) :
    accessException s k n ea = none ↔
      pmaLegal s.cfg ea n k = true ∧ (ea.toNat % widthBytes n = 0 ∨ misalignedPolicy s.cfg ea n k = .support) := by
  by_cases hmod : ea.toNat % widthBytes n = 0
  · simp [accessException, hmod]
  · cases hp : misalignedPolicy s.cfg ea n k <;> simp [accessException, hmod, hp]

/-- The checks of a data access that raises nothing leave two outcomes: the access is made, or it is a device's. -/
theorem checkAccess_of_no_exception {s : State} {k : AccessKind} {n : Width} {ea : Word}
    (hx : accessException s k n ea = none) :
    checkAccess s.cfg ea n k = if touchesIO s.cfg ea n then .refused (.deviceAccess k ea) else .ok () := by
  obtain ⟨hlegal, hpolicy⟩ := (accessException_none_iff s k n ea).1 hx
  have hcheck : checkLegal s.cfg ea n k = if touchesIO s.cfg ea n then .refused (.deviceAccess k ea) else .ok () := by
    rw [checkLegal, if_pos hlegal]
  by_cases ha : isAligned ea n = true
  · rw [checkAccess, if_pos ha, hcheck]
  · have hsupport := hpolicy.resolve_left (fun e => ha ((isAligned_iff ea n).2 e))
    simp only [checkAccess, if_neg ha, hsupport, hcheck]

/-- A load that raises nothing writes `rd`, or is refused as a device's. -/
theorem loadWith_of_no_exception {s : State} {rs1 : Reg} {imm : Word} {n : Width} (rd : Reg) (f : Word → Word)
    (hx : accessException s .load n (effectiveAddr s rs1 imm) = none) :
    loadWith s rd rs1 imm n f =
      if touchesIO s.cfg (effectiveAddr s rs1 imm) n then .refused (.deviceAccess .load (effectiveAddr s rs1 imm))
      else .next (advance (writeReg s rd (f (loadValue s (effectiveAddr s rs1 imm) n)))) := by
  rw [loadWith, memRead, checkAccess_of_no_exception hx]
  cases touchesIO s.cfg (effectiveAddr s rs1 imm) n <;> rfl

/-- A store that raises nothing writes memory, or is refused as a device's. -/
theorem storeWith_of_no_exception {s : State} {rs1 : Reg} {imm : Word} {n : Width} (rs2 : Reg)
    (hx : accessException s .store n (effectiveAddr s rs1 imm) = none) :
    storeWith s rs1 rs2 imm n =
      if touchesIO s.cfg (effectiveAddr s rs1 imm) n then .refused (.deviceAccess .store (effectiveAddr s rs1 imm))
      else .next (advance (storeValue s (effectiveAddr s rs1 imm) n (readReg s rs2))) := by
  rw [storeWith, memWrite, checkAccess_of_no_exception hx]
  cases touchesIO s.cfg (effectiveAddr s rs1 imm) n <;> rfl

/-- A jump or taken branch that raises nothing has an aligned target (`41_control_transfer.md` rule R152). -/
theorem target_aligned_of_no_exception {s : State} {i : Instr} {target : Word} (hx : exceptionOf s i = none)
    (hd : dataAccess s i = none) (ht : transferTarget s i = some target) : target.toNat % 4 = 0 := by
  by_contra hmod
  simp [exceptionOf, hd, ht, hmod] at hx

/-- Clearing bit 0 of the sum is rounding it down to a multiple of 2 (`41_control_transfer.md` rule R154). -/
theorem jalrTarget_eq (s : State) (rs1 : Reg) (imm : Word) :
    jalrTarget s rs1 imm = BitVec.ofNat 32 ((readReg s rs1 + imm).toNat / 2 * 2) := by
  have hshift : BitVec.ofNat 32 ((readReg s rs1 + imm).toNat / 2 * 2) = (readReg s rs1 + imm) >>> 1 <<< 1 := by
    apply BitVec.eq_of_toNat_eq
    simp [Nat.shiftRight_eq_div_pow, Nat.shiftLeft_eq]
  rw [hshift, jalrTarget]
  apply BitVec.eq_of_getLsbD_eq
  intro j hj
  interval_cases j <;> simp

/-! ## The record of the last trap (log entry 7) -/

theorem transferTo_reported {s t : State} {target v : Word} {rd : Reg} (ha : target.toNat % 4 = 0)
    (h : transferTo s target (writeReg s rd v) = .next t) : t.reported = s.reported := by
  rcases transferTo_cases s target (writeReg s rd v) with ⟨_, e⟩ | ⟨hmod, _⟩
  · cases e.symm.trans h
    simp
  · exact absurd ha hmod

theorem branchIf_reported {s t : State} {taken : Bool} {imm : Word} (ha : taken = true → (s.pc + imm).toNat % 4 = 0)
    (h : branchIf s taken imm = .next t) : t.reported = s.reported := by
  rcases branchIf_cases s taken imm with ⟨_, e⟩ | ⟨_, _, e⟩ | ⟨htaken, hmod, _⟩
  · cases e.symm.trans h
    rfl
  · cases e.symm.trans h
    rfl
  · exact absurd (ha htaken) hmod

theorem loadWith_reported {s t : State} {rd rs1 : Reg} {imm : Word} {n : Width} {f : Word → Word}
    (hx : accessException s .load n (effectiveAddr s rs1 imm) = none)
    (h : loadWith s rd rs1 imm n f = .next t) : t.reported = s.reported := by
  rw [loadWith_of_no_exception rd f hx] at h
  split at h
  · cases h
  · cases h
    simp

theorem storeWith_reported {s t : State} {rs1 rs2 : Reg} {imm : Word} {n : Width}
    (hx : accessException s .store n (effectiveAddr s rs1 imm) = none)
    (h : storeWith s rs1 rs2 imm n = .next t) : t.reported = s.reported := by
  rw [storeWith_of_no_exception rs2 hx] at h
  split at h
  · cases h
  · cases h
    rfl

theorem writeResult_reported {s t : State} {rd : Reg} {v : Word} (h : writeResult s rd v = .next t) :
    t.reported = s.reported := by
  cases h
  simp

/-- An instruction that raises nothing leaves the record of the last trap as it was. -/
theorem exec_reported {i : Instr} {s t : State} (hx : exceptionOf s i = none) (h : exec i s = .next t) :
    t.reported = s.reported := by
  have htarget {target : Word} := target_aligned_of_no_exception (target := target) hx
  cases i with
  | jal => exact transferTo_reported (htarget rfl rfl) h
  | jalr rd rs1 imm => exact transferTo_reported (htarget rfl (congrArg some (jalrTarget_eq s rs1 imm).symm)) h
  | beq => exact branchIf_reported (fun ht => htarget rfl (by simpa [transferTarget, condEq] using ht)) h
  | bne => exact branchIf_reported (fun ht => htarget rfl (by simpa [transferTarget, condNe, condEq] using ht)) h
  | blt => exact branchIf_reported (fun ht => htarget rfl (by simpa [transferTarget, ltSigned] using ht)) h
  | bge => exact branchIf_reported (fun ht => htarget rfl (by simpa [transferTarget, geSigned, ltSigned] using ht)) h
  | bltu => exact branchIf_reported (fun ht => htarget rfl (by simpa [transferTarget, ltUnsigned] using ht)) h
  | bgeu => exact branchIf_reported (fun ht => htarget rfl (by simpa [transferTarget, geUnsigned, ltUnsigned] using ht)) h
  | lb | lh | lw | lbu | lhu => exact loadWith_reported hx h
  | sb | sh | sw => exact storeWith_reported hx h
  | ecall | ebreak => cases hx
  | fence | fenceTso | pause => cases h; rfl
  | _ => exact writeResult_reported h

/-- A word that raises nothing leaves the record as it was: it runs its instruction, or it is reserved and refused. -/
theorem runWord_reported {s t : State} {w : Word} (hx : wordException s w = none) (h : runWord s w = .next t) :
    t.reported = s.reported := by
  cases hw : decode w with
  | ok i =>
    rw [runWord_of_decode s hw] at h
    exact exec_reported (by simpa only [wordException, hw] using hx) h
  | error e =>
    cases hr : s.cfg.reservedInsn with
    | illegalInstruction => simp [wordException, hw, hr] at hx
    | unspecified => simp [runWord, hw, reservedInstruction, hr] at h

/-- No step changes the environment's parameters, the environment that resumes included. -/
theorem step_cfg {s t : State} (h : step s = .next t) : t.cfg = s.cfg := by
  cases step_next h <;> simp

/-! ## The obligations -/

/-- Settles O13. -/
theorem stepRunsDecoded : Obligations.StepRunsDecoded := by
  intro s w i hf hw
  rw [step_of_fetches hf, runWord_of_decode s hw]

/-- Settles O16: the parameters by the shapes of a next state, the record through the word that the step runs. -/
theorem environmentFixed : Obligations.EnvironmentFixed := by
  refine ⟨fun s t h => step_cfg h, fun s t w hf hx h => ⟨step_cfg h, ?_⟩⟩
  rw [step_of_fetches hf] at h
  exact runWord_reported hx h

end Sys2Proof.Machine
end

section
/-! The state of a run: what every shape of a next state keeps, what an instruction does by the exception it raises and the target
it goes to, and the obligations about registers, `pc`, memory and reset (`10_state.md`). -/

namespace Sys2Proof.Machine

open Sys2Proof

/-! ## Listed bytes -/

theorem lookupCell_isSome_writeBytes {m : Memory} {x : Nat} (a : Word) (bs : List Byte)
    (h : (lookupCell x m.cells).isSome = true) : (lookupCell x (writeBytes m a bs).cells).isSome = true := by
  induction bs generalizing m a with
  | nil => exact h
  | cons b bs ih => exact ih _ (lookupCell_isSome_insertCell h)

/-- Every byte written is listed. -/
theorem lookupCell_isSome_writeBytes_written (m : Memory) (a : Word) {bs : List Byte} {k : Nat} (hk : k < bs.length) :
    (lookupCell (a + BitVec.ofNat 32 k).toNat (writeBytes m a bs).cells).isSome = true := by
  induction bs generalizing m a k with
  | nil => simp at hk
  | cons b bs ih =>
    cases k with
    | zero => exact lookupCell_isSome_writeBytes _ bs (by simp [writeByte, lookupCell_insertCell])
    | succ k =>
      have hnext : a + BitVec.ofNat 32 (k + 1) = a + 1#32 + BitVec.ofNat 32 k := by
        rw [BitVec.add_assoc, Nat.add_comm, BitVec.ofNat_add]
      rw [hnext]
      exact ih _ _ (by simpa using hk)

theorem lookupCell_isSome_applyMemWrites {m : Memory} {x : Nat} (ws : List (Word × Byte))
    (h : (lookupCell x m.cells).isSome = true) : (lookupCell x (applyMemWrites m ws).cells).isSome = true := by
  induction ws generalizing m with
  | nil => exact h
  | cons w ws ih => exact ih (lookupCell_isSome_insertCell h)

/-! ## Each update keeps the run invariant -/

theorem runInvariant_writeReg {s : State} (h : RunInvariant s) (rd : Reg) (v : Word) : RunInvariant (writeReg s rd v) where
  pcAligned := by simpa using h.pcAligned
  memWf := by simpa using h.memWf
  storedWf := by simpa using h.storedWf
  storedListed := by simpa using h.storedListed
  zeroSlot := by simpa using h.zeroSlot
  environmentAligned := by simpa using h.environmentAligned

theorem runInvariant_setPc {s : State} (h : RunInvariant s) {target : Word} (ha : target.toNat % 4 = 0) :
    RunInvariant (setPc s target) :=
  { h with pcAligned := ha }

theorem runInvariant_advance {s : State} (h : RunInvariant s) : RunInvariant (advance s) :=
  runInvariant_setPc h (add_four_aligned h.pcAligned)

/-- A store lists every byte that it marks. -/
theorem runInvariant_storeValue {s : State} (h : RunInvariant s) (ea : Word) (n : Width) (v : Word) :
    RunInvariant (storeValue s ea n v) where
  pcAligned := h.pcAligned
  memWf := writeBytes_wf h.memWf _ _
  storedWf := markStored_wf h.storedWf _
  storedListed := by
    intro x hx
    rcases (mem_markStored x s.stored (accessAddrs ea n)).1 hx with hold | ⟨a, hnew, rfl⟩
    · exact lookupCell_isSome_writeBytes _ _ (h.storedListed x hold)
    · obtain ⟨k, hk, rfl⟩ := (mem_accessAddrs ea a n).1 hnew
      exact lookupCell_isSome_writeBytes_written _ _ (by simpa using hk)
  zeroSlot := h.zeroSlot
  environmentAligned := h.environmentAligned

/-- An environment that is aligned resumes from an aligned instruction at an aligned address (log entry 5). -/
theorem resumption_pc_aligned {s : State} {e : Raised} {r : Resumption} (hpc : s.pc.toNat % 4 = 0)
    (henv : EnvironmentAligned s.cfg.envTrap) (answer : environmentAnswer s (trapOf s e) = some r) : r.pc.toNat % 4 = 0 := by
  obtain ⟨p, hplan, rfl⟩ := Option.map_eq_some_iff.1 answer
  exact henv s (trapOf s e) p hpc hplan

/-- The environment's writes add no mark and take no listed byte away (log entry 13). -/
theorem runInvariant_resumeFrom {s : State} (h : RunInvariant s) (x : Trap) {r : Resumption} (ha : r.pc.toNat % 4 = 0) :
    RunInvariant (resumeFrom s x r) where
  pcAligned := ha
  memWf := by simpa using applyMemWrites_wf h.memWf r.memWrites
  storedWf := by simpa using h.storedWf
  storedListed := by
    simp only [resumeFrom_stored, resumeFrom_mem]
    exact fun a hmark => lookupCell_isSome_applyMemWrites _ (h.storedListed a hmark)
  zeroSlot := by simpa using h.zeroSlot
  environmentAligned := by simpa using h.environmentAligned

theorem NextShape.runInvariant {s t : State} (hshape : NextShape s t) (h : RunInvariant s) : RunInvariant t := by
  cases hshape with
  | write rd v => exact runInvariant_advance (runInvariant_writeReg h rd v)
  | jump rd v target aligned => exact runInvariant_setPc (runInvariant_writeReg h rd v) aligned
  | store ea n v => exact runInvariant_advance (runInvariant_storeValue h ea n v)
  | resume e r answer =>
    exact runInvariant_resumeFrom h _ (resumption_pc_aligned h.pcAligned h.environmentAligned answer)

/-- The alignment of `pc` needs nothing of the invariant but the environment's (`10_state.md` rule R28). -/
theorem NextShape.pc_aligned {s t : State} (hshape : NextShape s t) (hpc : s.pc.toNat % 4 = 0)
    (henv : EnvironmentAligned s.cfg.envTrap) : t.pc.toNat % 4 = 0 := by
  cases hshape with
  | write rd v => simpa using add_four_aligned hpc
  | jump rd v target aligned => exact aligned
  | store ea n v => exact add_four_aligned hpc
  | resume e r answer => exact resumption_pc_aligned hpc henv answer

/-! ## Taking a trap -/

theorem readReg_applyRegWrites (s : State) (ws : List (Reg × Word)) (i : Reg) :
    readReg (applyRegWrites s ws) i = if i = 0#5 then 0#32 else (lastRegWrite ws i).getD (readReg s i) := by
  by_cases hi : i = 0#5
  · simp [hi]
  · rw [if_neg hi]
    induction ws generalizing s with
    | nil => rfl
    | cons w ws ih =>
      rw [applyRegWrites, ih, readReg_writeReg, if_neg hi, lastRegWrite]
      cases lastRegWrite ws i with
      | some v => rfl
      | none => by_cases hw : i = w.1 <;> simp [hw, eq_comm]

theorem readByte_applyMemWrites (m : Memory) (ws : List (Word × Byte)) (a : Word) :
    readByte (applyMemWrites m ws) a = (lastMemWrite ws a).getD (readByte m a) := by
  induction ws generalizing m with
  | nil => rfl
  | cons w ws ih =>
    rw [applyMemWrites, ih, readByte_writeByte, lastMemWrite]
    cases lastMemWrite ws a with
    | some b => rfl
    | none => by_cases hw : a = w.1 <;> simp [hw, eq_comm]

theorem resumeFrom_resumedFrom (s : State) (x : Trap) (r : Resumption) : ResumedFrom s x r (resumeFrom s x r) where
  pc := rfl
  regs := readReg_applyRegWrites s r.regWrites
  mem a := by simp [byteAt, readByte_applyMemWrites]
  stored := by simp
  cfg := by simp
  handed := rfl

/-- Taking a trap is what raising an exception means (`60_exceptions.md` rules R252, R253). -/
theorem takeTrap_traps (s : State) (id : ExceptionId) (value : Option Word) :
    Traps s (takeTrap s { id := id, value := value }) id value :=
  ⟨fun hstop => takeTrap_stops _ hstop,
    fun r hresume => ⟨_, takeTrap_resumes _ hresume, resumeFrom_resumedFrom s _ r⟩⟩

/-! ## The five forms of an instruction -/

/-- The access fixes the exception of a load or store. -/
theorem exceptionOf_of_dataAccess {s : State} {i : Instr} {k : AccessKind} {n : Width} {ea : Word}
    (access : dataAccess s i = some (k, n, ea)) : exceptionOf s i = accessException s k n ea := by
  rw [exceptionOf, access]

/-- The target fixes the exception of a jump or taken branch (`41_control_transfer.md` rule R152). -/
theorem exceptionOf_of_transferTarget {s : State} {i : Instr} {target : Word} (access : dataAccess s i = none)
    (goes : transferTarget s i = some target) :
    exceptionOf s i = if target.toNat % 4 ≠ 0 then some (.instructionAddressMisaligned, some target) else none := by
  rw [exceptionOf, access, goes]

/-- An instruction that makes no access, goes nowhere and requests no trap raises nothing (`60_exceptions.md` rule R240). -/
theorem exceptionOf_eq_none {s : State} {i : Instr} (access : dataAccess s i = none) (hcall : i ≠ .ecall) (hbreak : i ≠ .ebreak)
    (stays : transferTarget s i = none) : exceptionOf s i = none := by
  rw [exceptionOf, access, stays]
  simp [hcall, hbreak]

/-- What an instruction is to the machine, in the state it runs in: a load, a store, a transfer to a target, a write of a register
(or of none) that raises nothing, or a requested trap. -/
inductive ExecForm (s : State) (i : Instr) : Prop where
  | load (rd rs1 : Reg) (imm : Word) (n : Width) (f : Word → Word)
      (access : dataAccess s i = some (.load, n, effectiveAddr s rs1 imm)) (stays : transferTarget s i = none)
      (runs : exec i s = loadWith s rd rs1 imm n f)
  | store (rs1 rs2 : Reg) (imm : Word) (n : Width)
      (access : dataAccess s i = some (.store, n, effectiveAddr s rs1 imm)) (stays : transferTarget s i = none)
      (runs : exec i s = storeWith s rs1 rs2 imm n)
  | transfer (target : Word) (rd : Reg) (v : Word)
      (access : dataAccess s i = none) (goes : transferTarget s i = some target)
      (runs : exec i s = transferTo s target (writeReg s rd v))
  | result (rd : Reg) (v : Word)
      (raises : exceptionOf s i = none) (stays : transferTarget s i = none) (runs : exec i s = writeResult s rd v)
  | request (e : Raised)
      (raises : exceptionOf s i = some (e.id, e.value)) (runs : exec i s = takeTrap s e)

/-- A conditional branch of condition `c` is a transfer where it is taken and writes nothing where it is not. -/
theorem execForm_branch {s : State} {i : Instr} {c : Bool} {imm : Word} (access : dataAccess s i = none)
    (goes : transferTarget s i = if c then some (s.pc + imm) else none)
    (raises : transferTarget s i = none → exceptionOf s i = none) (runs : exec i s = branchIf s c imm) : ExecForm s i := by
  cases c with
  | true => exact .transfer (s.pc + imm) 0#5 0#32 access goes runs
  | false => exact .result 0#5 0#32 (raises goes) goes runs

/-- Every instruction has one of the five forms. -/
theorem exec_form (s : State) (i : Instr) : ExecForm s i := by
  cases i with
  | jal => exact .transfer _ _ _ rfl rfl rfl
  | jalr rd rs1 imm => exact .transfer _ _ _ rfl (congrArg some (jalrTarget_eq s rs1 imm).symm) rfl
  | beq => exact execForm_branch rfl (by simp [transferTarget, condEq]) (exceptionOf_eq_none rfl nofun nofun) rfl
  | bne => exact execForm_branch rfl (by simp [transferTarget, condNe, condEq]) (exceptionOf_eq_none rfl nofun nofun) rfl
  | blt => exact execForm_branch rfl (by simp [transferTarget, ltSigned]) (exceptionOf_eq_none rfl nofun nofun) rfl
  | bge => exact execForm_branch rfl (by simp [transferTarget, geSigned, ltSigned]) (exceptionOf_eq_none rfl nofun nofun) rfl
  | bltu => exact execForm_branch rfl (by simp [transferTarget, ltUnsigned]) (exceptionOf_eq_none rfl nofun nofun) rfl
  | bgeu => exact execForm_branch rfl (by simp [transferTarget, geUnsigned, ltUnsigned]) (exceptionOf_eq_none rfl nofun nofun) rfl
  | lb | lh | lw | lbu | lhu => exact .load _ _ _ _ _ rfl rfl rfl
  | sb | sh | sw => exact .store _ _ _ _ rfl rfl rfl
  | ecall => exact .request { id := .environmentCall, value := none } rfl rfl
  | ebreak => exact .request { id := .breakpoint, value := some s.pc } rfl rfl
  | fence | fenceTso | pause => exact .result 0#5 0#32 rfl rfl rfl
  | _ => exact .result _ _ rfl rfl rfl

/-! ## An instruction that raises -/

/-- An access that the address map refuses raises the access fault of its kind (`20_memory.md` rule R56). -/
theorem checkLegal_of_illegal {c : Eei} {k : AccessKind} {n : Width} {ea : Word} (h : pmaLegal c ea n k = false) :
    checkLegal c ea n k = .raised { id := accessFaultId k, value := some ea } := by
  simp [checkLegal, h]

/-- The exception of a load or store in the model's own names for it. -/
theorem accessException_eq {k : AccessKind} (hk : k ≠ .fetch) (s : State) (n : Width) (ea : Word) :
    accessException s k n ea =
      if ea.toNat % widthBytes n ≠ 0 ∧ misalignedPolicy s.cfg ea n k = .trap then some (misalignedId k, some ea)
      else if ea.toNat % widthBytes n ≠ 0 ∧ misalignedPolicy s.cfg ea n k = .accessFault then some (accessFaultId k, some ea)
      else if pmaLegal s.cfg ea n k = false then some (accessFaultId k, some ea)
      else none := by
  cases k with
  | fetch => exact absurd rfl hk
  | load | store => rfl

/-- The checks of a load or store raise the exception of the access, the alignment check first (`60_exceptions.md` rule R251). -/
theorem checkAccess_of_exception {s : State} {k : AccessKind} {n : Width} {ea : Word} {id : ExceptionId} {v : Option Word}
    (hk : k ≠ .fetch) (hx : accessException s k n ea = some (id, v)) :
    checkAccess s.cfg ea n k = .raised { id := id, value := v } := by
  rw [accessException_eq hk] at hx
  have hlegal (hx : (if pmaLegal s.cfg ea n k = false then some (accessFaultId k, some ea) else none) = some (id, v)) :
      checkLegal s.cfg ea n k = .raised { id := id, value := v } := by
    split at hx
    · cases hx
      exact checkLegal_of_illegal ‹_›
    · cases hx
  by_cases hmod : ea.toNat % widthBytes n = 0
  · rw [checkAccess, if_pos ((isAligned_iff ea n).2 hmod)]
    exact hlegal (by simpa [hmod] using hx)
  · rw [checkAccess, if_neg (fun ha => hmod ((isAligned_iff ea n).1 ha))]
    cases hp : misalignedPolicy s.cfg ea n k with
    | trap | accessFault =>
      obtain ⟨rfl, rfl⟩ : _ = id ∧ _ = v := by simpa [hmod, hp] using hx
      rfl
    | support => exact hlegal (by simpa [hp] using hx)

theorem loadWith_of_exception {s : State} {rs1 : Reg} {imm : Word} {n : Width} {id : ExceptionId} {x : Option Word} (rd : Reg)
    (f : Word → Word) (hx : accessException s .load n (effectiveAddr s rs1 imm) = some (id, x)) :
    loadWith s rd rs1 imm n f = takeTrap s { id := id, value := x } := by
  simp [loadWith, memRead, checkAccess_of_exception (k := .load) nofun hx, andThen]

theorem storeWith_of_exception {s : State} {rs1 : Reg} {imm : Word} {n : Width} {id : ExceptionId} {x : Option Word} (rs2 : Reg)
    (hx : accessException s .store n (effectiveAddr s rs1 imm) = some (id, x)) :
    storeWith s rs1 rs2 imm n = takeTrap s { id := id, value := x } := by
  simp [storeWith, memWrite, checkAccess_of_exception (k := .store) nofun hx, andThen]

theorem transferTo_of_aligned {s : State} {target : Word} (ha : target.toNat % 4 = 0) (linked : State) :
    transferTo s target linked = .next (setPc linked target) := by
  rw [transferTo, if_pos ((isWordAligned_iff target).2 ha)]

theorem transferTo_of_misaligned {s : State} {target : Word} (ha : target.toNat % 4 ≠ 0) (linked : State) :
    transferTo s target linked = takeTrap s { id := .instructionAddressMisaligned, value := some target } := by
  rw [transferTo, if_neg (fun h => ha ((isWordAligned_iff target).1 h))]
  rfl

/-- An instruction that raises takes the trap of its exception and does nothing else (`60_exceptions.md` rule R253). -/
theorem exec_of_exception {s : State} {i : Instr} {id : ExceptionId} {v : Option Word} (hx : exceptionOf s i = some (id, v)) :
    exec i s = takeTrap s { id := id, value := v } := by
  cases exec_form s i with
  | load rd rs1 imm n f access stays runs =>
    rw [exceptionOf_of_dataAccess access] at hx
    rw [runs, loadWith_of_exception rd f hx]
  | store rs1 rs2 imm n access stays runs =>
    rw [exceptionOf_of_dataAccess access] at hx
    rw [runs, storeWith_of_exception rs2 hx]
  | transfer target rd v access goes runs =>
    rw [exceptionOf_of_transferTarget access goes] at hx
    split at hx
    · cases hx
      rw [runs, transferTo_of_misaligned ‹_›]
    · cases hx
  | result rd v raises => exact absurd (raises.symm.trans hx) nofun
  | request e raises runs =>
    cases raises.symm.trans hx
    exact runs

theorem traps_of_exception {s : State} {i : Instr} {id : ExceptionId} {v : Option Word} (hx : exceptionOf s i = some (id, v)) :
    Traps s (exec i s) id v :=
  exec_of_exception hx ▸ takeTrap_traps s id v

/-- No load or store goes anywhere but to the next instruction. -/
theorem dataAccess_of_transferTarget {s : State} {i : Instr} {target : Word} (goes : transferTarget s i = some target) :
    dataAccess s i = none := by
  cases i with
  | lb | lh | lw | lbu | lhu | sb | sh | sw => cases goes
  | _ => rfl

/-! ## An instruction that raises nothing -/

/-- The three shapes of the state after an instruction that raises nothing: a register is written (or none) and `pc` advances, a
register is written (or none) and `pc` goes to the target, a store lands and `pc` advances. -/
inductive Completed (s : State) (i : Instr) : State → Prop where
  | write (rd : Reg) (v : Word) (stays : transferTarget s i = none) : Completed s i (advance (writeReg s rd v))
  | transfer (target : Word) (rd : Reg) (v : Word) (goes : transferTarget s i = some target) :
      Completed s i (setPc (writeReg s rd v) target)
  | store (n : Width) (ea v : Word) (access : dataAccess s i = some (.store, n, ea)) (stays : transferTarget s i = none) :
      Completed s i (advance (storeValue s ea n v))

/-- The state after an instruction that raises nothing has one of the three shapes. -/
theorem exec_completed {s t : State} {i : Instr} (hx : exceptionOf s i = none) (h : exec i s = .next t) : Completed s i t := by
  cases exec_form s i with
  | load rd rs1 imm n f access stays runs =>
    rw [exceptionOf_of_dataAccess access] at hx
    rw [runs, loadWith_of_no_exception rd f hx] at h
    split at h
    · cases h
    · cases h
      exact .write rd _ stays
  | store rs1 rs2 imm n access stays runs =>
    rw [exceptionOf_of_dataAccess access] at hx
    rw [runs, storeWith_of_no_exception rs2 hx] at h
    split at h
    · cases h
    · cases h
      exact .store n _ _ access stays
  | transfer target rd v access goes runs =>
    rw [runs, transferTo_of_aligned (target_aligned_of_no_exception hx access goes)] at h
    cases h
    exact .transfer target rd v goes
  | result rd v raises stays runs =>
    rw [runs] at h
    cases h
    exact .write rd v stays
  | request e raises => exact absurd (hx.symm.trans raises) nofun

/-- A jump that links nothing moves `pc` alone (`10_state.md` rule R21). -/
theorem completesMovingPc_setPc (s : State) (target : Word) : CompletesMovingPc s (.next (setPc s target)) target :=
  ⟨setPc s target, rfl, rfl, fun _ => rfl, ⟨fun _ => rfl, rfl⟩, rfl, rfl⟩

/-- A jump with `rd = x0` to an aligned target moves `pc` alone. -/
theorem transferTo_link_zero {s : State} {target : Word} (v : Word) (ha : target.toNat % 4 = 0) :
    CompletesMovingPc s (transferTo s target (writeReg s 0#5 v)) target := by
  rw [writeReg_zero, transferTo_of_aligned ha]
  exact completesMovingPc_setPc s target

theorem dataAccess_of_mem_loadsOf {n : Width} {rd rs1 : Reg} {imm : Word} {i : Instr} (s : State)
    (hi : i ∈ loadsOf n rd rs1 imm) : dataAccess s i = some (.load, n, effectiveAddr s rs1 imm) := by
  cases n with
  | byte | half =>
    rcases List.mem_pair.1 hi with rfl | rfl
    · rfl
    · rfl
  | word =>
    cases List.mem_singleton.1 hi
    rfl

/-! ## Launch and reset -/

/-- The launch state meets the invariant where its parameters do (`70_reset_and_hazards.md` rule R281). -/
theorem runInvariant_launch {cfg : Eei} {resetPc : Word} {image : Memory} (regs : Vector Word 32)
    (hpc : resetPc.toNat % 4 = 0) (himage : image.wf = true) (henv : EnvironmentAligned cfg.envTrap) :
    RunInvariant (State.launch cfg resetPc regs image) where
  pcAligned := hpc
  memWf := himage
  storedWf := rfl
  storedListed := nofun
  zeroSlot := by simp [State.launch]
  environmentAligned := henv

/-- A register read in a launch state gives what it was launched with (`10_state.md` rules R21, R34). -/
theorem readReg_launch (cfg : Eei) (resetPc : Word) (regs : Vector Word 32) (image : Memory) (r : Reg) :
    readReg (State.launch cfg resetPc regs image) r = if r = 0#5 then 0#32 else regs[r.toNat]'r.isLt := by
  by_cases hr : r = 0#5
  · simp [hr]
  · have hne : (0 : Nat) ≠ r.toNat := fun e => hr (BitVec.eq_of_toNat_eq e.symm)
    simp [readReg, State.launch, hr, Vector.getElem_set_ne _ _ hne]

/-- The environment that stops at every trap never resumes elsewhere (decision D8). -/
theorem environmentAligned_stop : EnvironmentAligned .stop :=
  fun _ _ _ _ hplan => nomatch hplan

/-- The address map of the default environment admits every access (log entry 4). -/
theorem pmaLegal_default (a : Word) (n : Width) (k : AccessKind) : pmaLegal Eei.default a n k = true := by
  have heverywhere (x : Word) : regionHolds Config.everywhere.region x = true :=
    decide_eq_true (x - 0#32).isLt
  have hkind : pmaAdmitsKind Config.everywhere k = true := by cases k <;> rfl
  have hwidth : pmaAdmitsWidth Config.everywhere n = true := by cases n <;> rfl
  simp [pmaLegal, Eei.default, pmaAdmits, heverywhere, hkind, hwidth]

/-! ## The obligations -/

/-- Settles O11, by the four shapes of a next state. -/
theorem invariantKept : Obligations.InvariantKept :=
  fun _ _ hs h => (step_next h).runInvariant hs

/-- Settles O12: the first part by the shapes of a next state, the second because a misaligned target is an exception. -/
theorem pcStaysAligned : Obligations.PcStaysAligned := by
  refine ⟨fun s t hpc henv h => (step_next h).pc_aligned hpc henv, fun s i target goes hmod => traps_of_exception ?_⟩
  rw [exceptionOf_of_transferTarget (dataAccess_of_transferTarget goes) goes, if_pos hmod]

/-- Settles O15, by the three shapes of a completed instruction and the one way an exception is taken. -/
theorem advanceOfPc : Obligations.AdvanceOfPc := by
  refine fun s i => ⟨fun t hx hstays h => ?_, fun t target hx hgoes h => ?_, fun id v => traps_of_exception, fun x h => ?_⟩
  · cases exec_completed hx h with
    | write rd v => simp [BitVec.toNat_add]
    | transfer target rd v goes => exact absurd (hstays.symm.trans goes) nofun
    | store n ea v => simp [BitVec.toNat_add]
  · cases exec_completed hx h with
    | write rd v stays => exact absurd (stays.symm.trans hgoes) nofun
    | transfer target' rd v goes => exact Option.some.inj (goes.symm.trans hgoes)
    | store n ea v access stays => exact absurd (stays.symm.trans hgoes) nofun
  · obtain ⟨e, htrap, -⟩ := exec_fault h
    cases htrap
    rfl

/-- Settles O17: a jump that links nothing is its transfer alone, and a load to `x0` makes its access before it drops the value. -/
theorem zeroRegister : Obligations.ZeroRegister := by
  refine fun s => ⟨readReg_zero s, writeReg_zero s, fun imm ha => transferTo_link_zero (nextPc s) ha, ?_, ?_⟩
  · intro rs1 imm target goes ha
    have htarget : jalrTarget s rs1 imm = target := (jalrTarget_eq s rs1 imm).trans (Option.some.inj goes)
    subst htarget
    exact transferTo_link_zero (nextPc s) ha
  · intro n rs1 imm i hi id v hx
    exact traps_of_exception ((exceptionOf_of_dataAccess (dataAccess_of_mem_loadsOf s hi)).trans hx)

/-- Settles O40, by the three shapes of a completed instruction. -/
theorem onlyStoresWriteMemory : Obligations.OnlyStoresWriteMemory := by
  intro s t i hx h hstore
  cases exec_completed hx h with
  | write rd v => exact ⟨fun a => by simp [byteAt], by simp⟩
  | transfer target rd v => exact ⟨fun a => by simp [byteAt], by simp⟩
  | store n ea v access => exact absurd access (hstore n ea)

/-- Settles O8. -/
theorem resetState : Obligations.ResetState := by
  have hregs (r : Reg) : readReg State.reset r = 0#32 := by
    rw [State.reset, readReg_launch, Vector.getElem_replicate, ite_self]
  exact ⟨hregs, rfl, rfl, rfl, rfl, rfl, fun _ => rfl, rfl, rfl, rfl, rfl, rfl, pmaLegal_default⟩

/-- Settles O10. -/
theorem invariantAtReset : Obligations.InvariantAtReset :=
  runInvariant_launch _ (by decide) rfl environmentAligned_stop

end Sys2Proof.Machine
end

section
/-! Memory: which byte of a value lies at which address of an access, what a store and a load that may be made give, the one form
of a load or store by the access it makes, and the obligations of `20_memory.md`. -/

namespace Sys2Proof.Machine

open Sys2Proof

/-! ## Addresses of an access -/

theorem add_ofNat_succ (a : Word) (k : Nat) : a + BitVec.ofNat 32 (k + 1) = a + 1#32 + BitVec.ofNat 32 k := by
  rw [BitVec.add_assoc, Nat.add_comm, BitVec.ofNat_add]

theorem ne_add_one_add_ofNat (a : Word) {k : Nat} (hk : k + 1 < 4294967296) : a ≠ a + 1#32 + BitVec.ofNat 32 k := by
  bv_omega

/-- A byte read where bytes were written, as long as they do not wrap around onto each other (`20_memory.md` rule R53). -/
theorem readByte_writeBytes_written (m : Memory) (a : Word) {bs : List Byte} {k : Nat} {b : Byte}
    (hlen : bs.length ≤ 4294967296) (hb : bs[k]? = some b) : readByte (writeBytes m a bs) (a + BitVec.ofNat 32 k) = b := by
  induction bs generalizing m a k with
  | nil => simp at hb
  | cons c bs ih =>
    simp only [List.length_cons] at hlen
    cases k with
    | zero =>
      obtain rfl : c = b := by simpa using hb
      have houtside (j : Nat) (hj : j < bs.length) : a ≠ a + 1#32 + BitVec.ofNat 32 j :=
        ne_add_one_add_ofNat a (by omega)
      simp [writeBytes, readByte_writeBytes_outside _ _ _ _ houtside, readByte_writeByte]
    | succ k =>
      rw [add_ofNat_succ]
      exact ih _ _ (by omega) (by simpa using hb)

/-! ## Places of bytes in a value (`20_memory.md` rules R44, R45) -/

theorem widthBytes_le_four (n : Width) : widthBytes n ≤ 4 := by
  cases n <;> decide

theorem bytePlace_lt (e : Endian) {n : Width} {k : Nat} (hk : k < widthBytes n) : bytePlace e n k < widthBytes n := by
  cases e with
  | little => exact hk
  | big => simp only [bytePlace]; omega

/-- The byte at an address has a place, and the byte of a place an address: the same function gives both. -/
theorem bytePlace_bytePlace (e : Endian) {n : Width} {k : Nat} (hk : k < widthBytes n) :
    bytePlace e n (bytePlace e n k) = k := by
  cases e with
  | little => rfl
  | big => simp only [bytePlace]; omega

/-- Two values that agree in every byte of an access agree in every bit of it. -/
theorem getLsbD_eq_of_bytes {n : Width} {x y : Word}
    (h : ∀ p, p < widthBytes n → x.extractLsb' (8 * p) 8 = y.extractLsb' (8 * p) 8) {k : Nat} (hk : k < 8 * widthBytes n) :
    x.getLsbD k = y.getLsbD k := by
  have hmod : k % 8 < 8 := Nat.mod_lt _ (by decide)
  have hbit := congrArg (·.getLsbD (k % 8)) (h (k / 8) (by omega))
  simpa [BitVec.getLsbD_extractLsb', hmod, Nat.div_add_mod] using hbit

/-- The bytes a store writes, each by its place in the value. -/
theorem splitBytes_getElem? (e : Endian) {n : Width} (v : Word) {k : Nat} (hk : k < widthBytes n) :
    (splitBytes e n v)[k]? = some (v.extractLsb' (8 * bytePlace e n k) 8) := by
  have hsplit {p : Nat} (hp : p < widthBytes n) : (splitLittle (widthBytes n) v)[p]? = some (v.extractLsb' (8 * p) 8) := by
    rw [splitLittle_getElem?, if_pos hp]
    exact congrArg some (BitVec.eq_of_toNat_eq (by simp))
  cases e with
  | little => exact hsplit hk
  | big =>
    rw [splitBytes, List.getElem?_reverse (by simpa using hk), splitLittle_length]
    exact hsplit (bytePlace_lt .big hk)

/-- The bytes a load joins, each in its place, the least significant first. -/
theorem extractLsb'_joinLittle {bs : List Byte} {k : Nat} {b : Byte} (hk : k < 4) (hb : bs[k]? = some b) :
    (joinLittle bs).extractLsb' (8 * k) 8 = b := by
  induction bs generalizing k with
  | nil => simp at hb
  | cons c bs ih =>
    cases k with
    | zero =>
      obtain rfl : c = b := by simpa using hb
      apply BitVec.eq_of_getLsbD_eq
      intro j hj
      have hj32 : j < 32 := by omega
      simp [joinLittle, hj, hj32]
    | succ k =>
      refine Eq.trans ?_ (ih (k := k) (by omega) (by simpa using hb))
      apply BitVec.eq_of_getLsbD_eq
      intro j hj
      have hword : 8 * (k + 1) + j < 32 := by omega
      have hnext : ¬ 8 * (k + 1) + j < 8 := by omega
      have hshift : 8 * (k + 1) + j - 8 = 8 * k + j := by omega
      have hc : c.getLsbD (8 * (k + 1) + j) = false := BitVec.getLsbD_of_ge _ _ (by omega)
      simp only [joinLittle, BitVec.getLsbD_extractLsb', BitVec.getLsbD_or, BitVec.getLsbD_setWidth, BitVec.getLsbD_shiftLeft,
        hword, hnext, hshift, hc, decide_true, decide_false, Bool.and_false, Bool.false_or, Bool.true_and, Bool.not_false]

theorem extractLsb'_joinBytes {e : Endian} {n : Width} {bs : List Byte} {k : Nat} {b : Byte} (hlen : bs.length = widthBytes n)
    (hk : k < widthBytes n) (hb : bs[k]? = some b) : (joinBytes e bs).extractLsb' (8 * bytePlace e n k) 8 = b := by
  have hplace : bytePlace e n k < 4 := (bytePlace_lt e hk).trans_le (widthBytes_le_four n)
  cases e with
  | little => exact extractLsb'_joinLittle hplace hb
  | big =>
    refine extractLsb'_joinLittle hplace ?_
    have hback : widthBytes n - 1 - (widthBytes n - 1 - k) = k := by omega
    rw [bytePlace, List.getElem?_reverse (by omega), hlen, hback, hb]

theorem accessAddrs_getElem? (ea : Word) {n : Width} {k : Nat} (hk : k < widthBytes n) :
    (accessAddrs ea n)[k]? = some (ea + BitVec.ofNat 32 k) := by
  cases n <;> simp only [widthBytes] at hk <;> interval_cases k <;> simp [accessAddrs]

/-- What a load reads, byte by byte (`20_memory.md` rule R46). -/
theorem extractLsb'_loadValue (s : State) (ea : Word) {n : Width} {k : Nat} (hk : k < widthBytes n) :
    (loadValue s ea n).extractLsb' (8 * bytePlace s.cfg.endian n k) 8 = byteAt s (ea + BitVec.ofNat 32 k) :=
  extractLsb'_joinBytes (by simp) hk (by simp [accessAddrs_getElem? ea hk, byteAt])

theorem loadValue_byte (s : State) (ea : Word) : loadValue s ea .byte = (byteAt s ea).setWidth 32 :=
  joinBytes_single s.cfg.endian (byteAt s ea)

/-- The two bytes of a half, the least significant first. -/
theorem joinLittle_pair (b0 b1 : Byte) : joinLittle [b0, b1] = (b1 ++ b0).setWidth 32 := by
  apply BitVec.eq_of_getLsbD_eq
  intro j hj
  simp only [joinLittle, BitVec.getLsbD_or, BitVec.getLsbD_shiftLeft, BitVec.getLsbD_setWidth, BitVec.getLsbD_append]
  interval_cases j <;> simp

theorem loadValue_half (s : State) (ea : Word) : loadValue s ea .half = (halfAt s ea).setWidth 32 := by
  rw [loadValue, halfAt]
  cases s.cfg.endian with
  | little => exact joinLittle_pair _ _
  | big => exact joinLittle_pair _ _

/-! ## A store that is made -/

/-- What a store writes, byte by byte (`20_memory.md` rule R46). -/
theorem byteAt_storeValue (s : State) (ea v : Word) {n : Width} {k : Nat} (hk : k < widthBytes n) :
    byteAt (storeValue s ea n v) (ea + BitVec.ofNat 32 k) = v.extractLsb' (8 * bytePlace s.cfg.endian n k) 8 := by
  have hlen : widthBytes n ≤ 4294967296 := (widthBytes_le_four n).trans (by decide)
  exact readByte_writeBytes_written _ _ (by simpa using hlen) (splitBytes_getElem? s.cfg.endian v hk)

theorem byteAt_storeValue_outside (s : State) {ea a : Word} {n : Width} (v : Word)
    (h : ∀ j : Nat, j < widthBytes n → a ≠ ea + BitVec.ofNat 32 j) : byteAt (storeValue s ea n v) a = byteAt s a :=
  readByte_writeBytes_outside _ _ _ _ (by simpa using h)

/-- A load of what a store of the same width and address wrote gives the stored bytes (`20_memory.md` rule R58). -/
theorem extractLsb'_loadValue_storeValue (s : State) (ea v : Word) {n : Width} {p : Nat} (hp : p < widthBytes n) :
    (loadValue (storeValue s ea n v) ea n).extractLsb' (8 * p) 8 = v.extractLsb' (8 * p) 8 := by
  have hk := bytePlace_lt s.cfg.endian hp
  have hload := (extractLsb'_loadValue (storeValue s ea n v) ea hk).trans (byteAt_storeValue s ea v hk)
  simpa only [storeValue_cfg, bytePlace_bytePlace _ hp] using hload

theorem storeWith_of_accessible {s : State} {rs1 : Reg} {imm : Word} {n : Width} (rs2 : Reg)
    (h : accessible s (effectiveAddr s rs1 imm) n .store = true) :
    storeWith s rs1 rs2 imm n = .next (advance (storeValue s (effectiveAddr s rs1 imm) n (readReg s rs2))) := by
  rw [storeWith, memWrite_of_accessible _ h, andThen]

theorem exec_storeOf (n : Width) (rs1 rs2 : Reg) (imm : Word) (s : State) :
    exec (storeOf n rs1 rs2 imm) s = storeWith s rs1 rs2 imm n := by
  cases n <;> rfl

/-- The state after a store that may be made. -/
theorem exec_storeOf_of_accessible {s : State} {rs1 : Reg} {imm : Word} {n : Width} (rs2 : Reg)
    (h : accessible s (effectiveAddr s rs1 imm) n .store = true) :
    exec (storeOf n rs1 rs2 imm) s = .next (advance (storeValue s (effectiveAddr s rs1 imm) n (readReg s rs2))) :=
  (exec_storeOf n rs1 rs2 imm s).trans (storeWith_of_accessible rs2 h)

/-- A store that may be made leaves each byte of the register at the address of its place. -/
theorem exec_storeOf_byteAt {s : State} {n : Width} {rs1 : Reg} {imm : Word} (rs2 : Reg)
    (h : accessible s (effectiveAddr s rs1 imm) n .store = true) :
    ∃ t, exec (storeOf n rs1 rs2 imm) s = .next t ∧ ∀ k, k < widthBytes n →
      byteAt t (effectiveAddr s rs1 imm + BitVec.ofNat 32 k) =
        (readReg s rs2).extractLsb' (8 * bytePlace s.cfg.endian n k) 8 :=
  ⟨_, exec_storeOf_of_accessible rs2 h, fun _ hk => byteAt_storeValue s _ _ hk⟩

/-! ## A load that is made -/

theorem loadWith_of_accessible {s : State} {rs1 : Reg} {imm : Word} {n : Width} (rd : Reg) (f : Word → Word)
    (h : accessible s (effectiveAddr s rs1 imm) n .load = true) :
    loadWith s rd rs1 imm n f = .next (advance (writeReg s rd (f (loadValue s (effectiveAddr s rs1 imm) n)))) := by
  rw [loadWith, memRead_of_accessible h, andThen, writeResult]

/-- What a load that may be made leaves in a register other than `x0`. -/
theorem loadWith_readReg {s : State} {rd rs1 : Reg} {imm : Word} {n : Width} (f : Word → Word) (hrd : rd ≠ 0#5)
    (h : accessible s (effectiveAddr s rs1 imm) n .load = true) :
    ∃ u, loadWith s rd rs1 imm n f = .next u ∧ readReg u rd = f (loadValue s (effectiveAddr s rs1 imm) n) :=
  ⟨_, loadWith_of_accessible rd f h, by simp [readReg_writeReg, hrd]⟩

/-- LBU of a byte. -/
theorem exec_lbu_readReg {s : State} {rd rs1 : Reg} {imm : Word} (hrd : rd ≠ 0#5)
    (h : accessible s (effectiveAddr s rs1 imm) .byte .load = true) :
    ∃ u, exec (.lbu rd rs1 imm) s = .next u ∧ readReg u rd = (byteAt s (effectiveAddr s rs1 imm)).setWidth 32 := by
  obtain ⟨u, hu, hread⟩ := loadWith_readReg zeroExtend8 hrd h
  exact ⟨u, hu, by simp [hread, loadValue_byte, zeroExtend8]⟩

/-- LHU of a half. -/
theorem exec_lhu_readReg {s : State} {rd rs1 : Reg} {imm : Word} (hrd : rd ≠ 0#5)
    (h : accessible s (effectiveAddr s rs1 imm) .half .load = true) :
    ∃ u, exec (.lhu rd rs1 imm) s = .next u ∧ readReg u rd = (halfAt s (effectiveAddr s rs1 imm)).setWidth 32 := by
  obtain ⟨u, hu, hread⟩ := loadWith_readReg zeroExtend16 hrd h
  exact ⟨u, hu, by simp [hread, loadValue_half, zeroExtend16]⟩

/-- LB of a byte. -/
theorem exec_lb_readReg {s : State} {rd rs1 : Reg} {imm : Word} (hrd : rd ≠ 0#5)
    (h : accessible s (effectiveAddr s rs1 imm) .byte .load = true) :
    ∃ u, exec (.lb rd rs1 imm) s = .next u ∧ readReg u rd = (byteAt s (effectiveAddr s rs1 imm)).signExtend 32 := by
  obtain ⟨u, hu, hread⟩ := loadWith_readReg signExtend8 hrd h
  exact ⟨u, hu, by simp [hread, loadValue_byte, signExtend8]⟩

/-- The extension of a load of a width leaves the bytes that were read as they are. -/
def KeepsLoadedBytes (n : Width) (f : Word → Word) : Prop :=
  ∀ (v : Word) (p : Nat), p < widthBytes n → (f v).extractLsb' (8 * p) 8 = v.extractLsb' (8 * p) 8

theorem keepsLoadedBytes_of_bits {n : Width} {f : Word → Word}
    (h : ∀ (v : Word) (i : Nat), i < 8 * widthBytes n → (f v).getLsbD i = v.getLsbD i) : KeepsLoadedBytes n f := by
  intro v p hp
  apply BitVec.eq_of_getLsbD_eq
  intro j hj
  simp only [BitVec.getLsbD_extractLsb', h v (8 * p + j) (by omega)]

theorem keepsLoadedBytes_signExtend {n : Width} {w : Nat} (hw : 8 * widthBytes n = w) :
    KeepsLoadedBytes n (fun v => (v.setWidth w).signExtend 32) := by
  refine keepsLoadedBytes_of_bits fun v i hi => ?_
  have hword : i < 32 := by have := widthBytes_le_four n; omega
  simp only [BitVec.getLsbD_signExtend, BitVec.getLsbD_setWidth, hw ▸ hi, hword, decide_true, Bool.true_and, if_true]

theorem keepsLoadedBytes_zeroExtend {n : Width} {w : Nat} (hw : 8 * widthBytes n = w) :
    KeepsLoadedBytes n (fun v => (v.setWidth w).setWidth 32) := by
  refine keepsLoadedBytes_of_bits fun v i hi => ?_
  have hword : i < 32 := by have := widthBytes_le_four n; omega
  simp only [BitVec.getLsbD_setWidth, hw ▸ hi, hword, decide_true, Bool.true_and]

/-- The loads of a width differ in the extension alone. -/
theorem exec_of_mem_loadsOf {n : Width} {rd rs1 : Reg} {imm : Word} {i : Instr} (hi : i ∈ loadsOf n rd rs1 imm) (s : State) :
    ∃ f, KeepsLoadedBytes n f ∧ exec i s = loadWith s rd rs1 imm n f := by
  cases n with
  | byte =>
    rcases List.mem_pair.1 hi with rfl | rfl
    · exact ⟨signExtend8, keepsLoadedBytes_signExtend rfl, rfl⟩
    · exact ⟨zeroExtend8, keepsLoadedBytes_zeroExtend rfl, rfl⟩
  | half =>
    rcases List.mem_pair.1 hi with rfl | rfl
    · exact ⟨signExtend16, keepsLoadedBytes_signExtend rfl, rfl⟩
    · exact ⟨zeroExtend16, keepsLoadedBytes_zeroExtend rfl, rfl⟩
  | word =>
    cases List.mem_singleton.1 hi
    exact ⟨id, fun _ _ _ => rfl, rfl⟩

/-- Every load of a width leaves the bytes of the value in a register other than `x0`. -/
theorem exec_load_bytes {s : State} {n : Width} {rd rs1 : Reg} {imm : Word} {i : Instr} (hi : i ∈ loadsOf n rd rs1 imm)
    (hrd : rd ≠ 0#5) (h : accessible s (effectiveAddr s rs1 imm) n .load = true) :
    ∃ u, exec i s = .next u ∧ ∀ p, p < widthBytes n →
      (readReg u rd).extractLsb' (8 * p) 8 = (loadValue s (effectiveAddr s rs1 imm) n).extractLsb' (8 * p) 8 := by
  obtain ⟨f, hkeeps, hexec⟩ := exec_of_mem_loadsOf hi s
  obtain ⟨u, hu, hread⟩ := loadWith_readReg f hrd h
  exact ⟨u, hexec.trans hu, fun p hp => hread ▸ hkeeps _ p hp⟩

/-- Every load of a width leaves each byte of memory in its place in a register other than `x0`. -/
theorem exec_load_byteAt {s : State} {n : Width} {rd rs1 : Reg} {imm : Word} {i : Instr} (hi : i ∈ loadsOf n rd rs1 imm)
    (hrd : rd ≠ 0#5) (h : accessible s (effectiveAddr s rs1 imm) n .load = true) :
    ∃ u, exec i s = .next u ∧ ∀ k, k < widthBytes n →
      (readReg u rd).extractLsb' (8 * bytePlace s.cfg.endian n k) 8 =
        byteAt s (effectiveAddr s rs1 imm + BitVec.ofNat 32 k) := by
  obtain ⟨u, hu, hbytes⟩ := exec_load_bytes hi hrd h
  exact ⟨u, hu, fun k hk => (hbytes _ (bytePlace_lt _ hk)).trans (extractLsb'_loadValue s _ hk)⟩

/-- Under either byte order, a byte of an access has the same place in the register whether it is stored or loaded. -/
theorem bytes_of_accesses (s : State) (n : Width) (rd rs1 rs2 : Reg) (imm : Word) :
    (accessible s (effectiveAddr s rs1 imm) n .store = true → ∃ t, exec (storeOf n rs1 rs2 imm) s = .next t ∧
      ∀ k, k < widthBytes n → byteAt t (effectiveAddr s rs1 imm + BitVec.ofNat 32 k) =
        (readReg s rs2).extractLsb' (8 * bytePlace s.cfg.endian n k) 8) ∧
    (accessible s (effectiveAddr s rs1 imm) n .load = true → rd ≠ 0#5 → ∀ j ∈ loadsOf n rd rs1 imm, ∃ t, exec j s = .next t ∧
      ∀ k, k < widthBytes n → (readReg t rd).extractLsb' (8 * bytePlace s.cfg.endian n k) 8 =
        byteAt s (effectiveAddr s rs1 imm + BitVec.ofNat 32 k)) :=
  ⟨exec_storeOf_byteAt rs2, fun h hrd _ hj => exec_load_byteAt hj hrd h⟩

/-! ## The form of a load or store -/

/-- What a load or store is to the machine, by the access it makes. -/
inductive AccessForm (s : State) (i : Instr) : AccessKind → Width → Word → Prop where
  | load (rd rs1 : Reg) (imm : Word) (n : Width) (f : Word → Word) (runs : exec i s = loadWith s rd rs1 imm n f) :
      AccessForm s i .load n (effectiveAddr s rs1 imm)
  | store (rs1 rs2 : Reg) (imm : Word) (n : Width) (runs : exec i s = storeWith s rs1 rs2 imm n) :
      AccessForm s i .store n (effectiveAddr s rs1 imm)

theorem accessForm_of_dataAccess {s : State} {i : Instr} {k : AccessKind} {n : Width} {ea : Word}
    (access : dataAccess s i = some (k, n, ea)) : AccessForm s i k n ea := by
  cases i with
  | lb | lh | lw | lbu | lhu => cases access; exact .load _ _ _ _ _ rfl
  | sb | sh | sw => cases access; exact .store _ _ _ _ rfl
  | _ => cases access

/-- A load or store that may be made goes on at the next instruction in the same environment. -/
theorem exec_of_accessible {s : State} {i : Instr} {k : AccessKind} {n : Width} {ea : Word}
    (access : dataAccess s i = some (k, n, ea)) (h : accessible s ea n k = true) :
    ∃ t, exec i s = .next t ∧ t.pc = s.pc + 4#32 ∧ SameEnvironment s t := by
  cases accessForm_of_dataAccess access with
  | load rd rs1 imm n f runs => exact ⟨_, runs.trans (loadWith_of_accessible rd f h), by simp, by simp [SameEnvironment]⟩
  | store rs1 rs2 imm n runs => exact ⟨_, runs.trans (storeWith_of_accessible rs2 h), by simp, by simp [SameEnvironment]⟩

/-- A load or store that raises nothing and touches a device is refused (log entry 14). -/
theorem exec_of_touchesIO {s : State} {i : Instr} {k : AccessKind} {n : Width} {ea : Word}
    (access : dataAccess s i = some (k, n, ea)) (hx : accessException s k n ea = none) (hio : touchesIO s.cfg ea n = true) :
    exec i s = .refused (.deviceAccess k ea) := by
  cases accessForm_of_dataAccess access with
  | load rd rs1 imm n f runs => rw [runs, loadWith_of_no_exception rd f hx, if_pos hio]
  | store rs1 rs2 imm n runs => rw [runs, storeWith_of_no_exception rs2 hx, if_pos hio]

/-! ## The exception of an aligned access (`20_memory.md` rule R48) -/

/-- An access that is aligned or supported raises the access fault of its kind where the address map refuses it. -/
theorem accessException_of_illegal {s : State} {k : AccessKind} {n : Width} {ea : Word} (hlegal : pmaLegal s.cfg ea n k = false)
    (hpolicy : ea.toNat % widthBytes n = 0 ∨ misalignedPolicy s.cfg ea n k = .support) :
    accessException s k n ea = some (if k = .load then .loadAccessFault else .storeAccessFault, some ea) := by
  rcases hpolicy with hmod | hsupport
  · simp [accessException, hmod, hlegal]
  · simp [accessException, hsupport, hlegal]

/-- The one exception of an aligned access is an access fault. -/
theorem accessException_of_aligned {s : State} {k : AccessKind} {n : Width} {ea : Word} {id : ExceptionId} {v : Option Word}
    (hmod : ea.toNat % widthBytes n = 0) (hx : accessException s k n ea = some (id, v)) :
    id ≠ .loadAddressMisaligned ∧ id ≠ .storeAddressMisaligned := by
  cases hlegal : pmaLegal s.cfg ea n k with
  | true => simp [accessException, hmod, hlegal] at hx
  | false =>
    rw [accessException_of_illegal hlegal (.inl hmod)] at hx
    cases hx
    split <;> decide

/-- The checks of an aligned access are those of the address map. -/
theorem checkAccess_of_aligned {c : Eei} {k : AccessKind} {n : Width} {ea : Word} (hmod : ea.toNat % widthBytes n = 0) :
    checkAccess c ea n k = checkLegal c ea n k := by
  rw [checkAccess, if_pos ((isAligned_iff ea n).2 hmod)]

theorem checkLegal_ne_misaligned (c : Eei) (ea : Word) (n : Width) (k : AccessKind) (v : Option Word) :
    checkLegal c ea n k ≠ .raised { id := misalignedId k, value := v } := by
  have hid : accessFaultId k ≠ misalignedId k := by cases k <;> decide
  unfold checkLegal
  split
  · split <;> simp
  · simp [hid]

/-! ## A trap comes from the instruction's exception -/

theorem exec_ne_fault_of_no_exception {s : State} {i : Instr} (hx : exceptionOf s i = none) (f : Fault) :
    exec i s ≠ .fault f := by
  cases exec_form s i with
  | load rd rs1 imm n g access stays runs =>
    rw [exceptionOf_of_dataAccess access] at hx
    rw [runs, loadWith_of_no_exception rd g hx]
    split <;> simp
  | store rs1 rs2 imm n access stays runs =>
    rw [exceptionOf_of_dataAccess access] at hx
    rw [runs, storeWith_of_no_exception rs2 hx]
    split <;> simp
  | transfer target rd v access goes runs =>
    simp [runs, transferTo_of_aligned (target_aligned_of_no_exception hx access goes)]
  | result rd v raises stays runs => simp [runs, writeResult]
  | request e raises => exact absurd (hx.symm.trans raises) nofun

/-- The triple an instruction stops with is that of its exception. -/
theorem exceptionOf_of_fault {s : State} {i : Instr} {x : Trap} (h : exec i s = .fault (.trap x)) :
    exceptionOf s i = some (x.id, x.value) := by
  cases hx : exceptionOf s i with
  | none => exact absurd h (exec_ne_fault_of_no_exception hx _)
  | some e =>
    obtain ⟨id, v⟩ := e
    rw [exec_of_exception hx] at h
    cases (takeTrap_fault h).1
    rfl

/-- The triple an environment that resumes was handed is that of the instruction's exception. -/
theorem exceptionOf_of_reported {s t : State} {i : Instr} {x : Trap} (h : exec i s = .next t) (hreported : t.reported = some x)
    (hnew : t.reported ≠ s.reported) : exceptionOf s i = some (x.id, x.value) := by
  cases hx : exceptionOf s i with
  | none => exact absurd (exec_reported hx h) hnew
  | some e =>
    obtain ⟨id, v⟩ := e
    rw [exec_of_exception hx] at h
    obtain ⟨r, -, rfl⟩ := takeTrap_next h
    cases hreported
    rfl

/-! ## Marks of stored bytes (`20_memory.md` rule R61) -/

theorem wasStored_iff (s : State) (a : Word) : wasStored s a = true ↔ a.toNat ∈ s.stored := by
  simp [wasStored]

theorem wasStored_storeValue (s : State) (ea v a : Word) (n : Width) :
    wasStored (storeValue s ea n v) a = true ↔ wasStored s a = true ∨ a ∈ accessAddrs ea n := by
  simp [wasStored_iff, mem_markStored, BitVec.toNat_inj]

/-- No next state has lost a mark: a store adds some, and the environment's writes touch none (log entry 13). -/
theorem NextShape.wasStored_mono {s t : State} (hshape : NextShape s t) {a : Word} (h : wasStored s a = true) :
    wasStored t a = true := by
  cases hshape with
  | write rd v => simpa [wasStored] using h
  | jump rd v target => simpa [wasStored] using h
  | store ea n v => exact (wasStored_storeValue s ea v a n).2 (.inl h)
  | resume e r => simpa [wasStored] using h

theorem fetch_of_stored {s : State} (hlegal : pmaLegal s.cfg s.pc .word .fetch = true) (hstored : ¬ FetchesUnstored s) :
    fetch s = .refused (.fetchOfStoredBytes s.pc) := by
  have hany : (accessAddrs s.pc .word).any (wasStored s) = true := by
    by_contra hnone
    exact hstored (by simpa [accessAddrs, FetchesUnstored] using hnone)
  rw [fetch, if_pos hlegal, if_pos hany]

/-! ## The spec's example of mixed widths (`20_memory.md` rule R46) -/

/-- The bytes of 0x11223344 in memory, lowest address first, under either byte order. -/
theorem exampleWord_bytes (e : Endian) {k : Nat} {little big : Word}
    (h : [(0x44#32, 0x11#32), (0x33#32, 0x22#32), (0x22#32, 0x33#32), (0x11#32, 0x44#32)][k]? = some (little, big)) :
    ((0x11223344#32).extractLsb' (8 * bytePlace e .word k) 8).setWidth 32 = if e = .little then little else big := by
  match k with
  | 0 | 1 | 2 | 3 => cases h; cases e <;> rfl
  | k + 4 => simp at h

/-- The spec's example of mixed widths: a stored word, read byte by byte and by its first half. -/
theorem exampleWord_loads {s : State} {base rd : Reg} (hrd : rd ≠ 0#5) (hhalf : accessible s (readReg s base) .half .load = true)
    (hbyte : ∀ k : Nat, k < 4 → accessible s (readReg s base + BitVec.ofNat 32 k) .byte .load = true)
    (hmem : ∀ k : Nat, k < 4 → byteAt s (readReg s base + BitVec.ofNat 32 k) =
      (0x11223344#32).extractLsb' (8 * bytePlace s.cfg.endian .word k) 8) :
    (∀ (k : Nat) (little big : Word),
      [(0x44#32, 0x11#32), (0x33#32, 0x22#32), (0x22#32, 0x33#32), (0x11#32, 0x44#32)][k]? = some (little, big) →
      ∃ u, exec (.lbu rd base (BitVec.ofNat 32 k)) s = .next u ∧
        readReg u rd = if s.cfg.endian = .little then little else big) ∧
    ∃ u, exec (.lhu rd base 0#32) s = .next u ∧ readReg u rd = if s.cfg.endian = .little then 0x3344#32 else 0x1122#32 := by
  constructor
  · intro k little big hk
    have hk4 : k < 4 := (List.getElem?_eq_some_iff.1 hk).1
    obtain ⟨u, hu, hread⟩ := exec_lbu_readReg hrd (hbyte k hk4)
    refine ⟨u, hu, hread.trans ?_⟩
    rw [effectiveAddr, hmem k hk4]
    exact exampleWord_bytes s.cfg.endian hk
  · have hea : effectiveAddr s base 0#32 = readReg s base := BitVec.add_zero _
    obtain ⟨u, hu, hread⟩ := exec_lhu_readReg (imm := 0#32) hrd (hea ▸ hhalf)
    have hfirst := hmem 0 (by decide)
    rw [BitVec.add_zero] at hfirst
    refine ⟨u, hu, hread.trans ?_⟩
    rw [hea, halfAt, hfirst, hmem 1 (by decide)]
    cases s.cfg.endian <;> rfl

/-! ## The obligations -/

/-- Settles O32: the places of a little-endian environment. -/
theorem littleEndianOrder : Obligations.LittleEndianOrder := by
  intro s n rd rs1 rs2 imm he
  simpa only [he, bytePlace] using bytes_of_accesses s n rd rs1 rs2 imm

/-- Settles O33: the places of a big-endian environment. -/
theorem bigEndianOrder : Obligations.BigEndianOrder := by
  intro s n rd rs1 rs2 imm he
  simpa only [he, bytePlace] using bytes_of_accesses s n rd rs1 rs2 imm

/-- Settles O34: a byte access has one place for its byte, whatever the byte order. -/
theorem byteAddressInvariance : Obligations.ByteAddressInvariance := by
  refine ⟨fun s rs1 rs2 rd imm hrd hstore hload => ?_, fun s t h => by rw [step_cfg h]⟩
  refine ⟨_, exec_storeOf_of_accessible (n := .byte) rs2 hstore, fun e => ?_⟩
  have hbyte := byteAt_storeValue s (effectiveAddr s rs1 imm) (readReg s rs2) (n := .byte) (k := 0) (by decide)
  have hplace : bytePlace s.cfg.endian .byte 0 = 0 := by cases s.cfg.endian <;> rfl
  simp only [hplace, BitVec.add_zero, Nat.mul_zero] at hbyte
  rw [← hbyte]
  exact ⟨exec_lbu_readReg hrd hload, exec_lb_readReg hrd hload⟩

/-- Settles O35: a load reads each byte of memory into its place, and each was written by the store or left alone by it. -/
theorem mixedWidthAccess : Obligations.MixedWidthAccess := by
  refine ⟨rfl, ?_, fun s base data rd hdata hrd hstore hhalf hbyte => ?_⟩
  · intro s m n rs1 rs2 rs3 rd imm imm' hrd e ea ea' hstore hload
    refine ⟨_, exec_storeOf_of_accessible rs2 hstore, fun i hi => ?_⟩
    obtain ⟨u, hu, hbytes⟩ := exec_load_byteAt (s := advance (storeValue s ea m (readReg s rs2))) hi hrd hload
    refine ⟨u, hu, fun k hk => ⟨fun j hj heq => (hbytes k hk).trans ?_, fun hne => (hbytes k hk).trans ?_⟩⟩
    · exact (congrArg (byteAt _) heq).trans (byteAt_storeValue s ea _ hj)
    · exact byteAt_storeValue_outside s _ hne
  · have hea : effectiveAddr s base 0#32 = readReg s base := BitVec.add_zero _
    have hexec := exec_storeOf_of_accessible (n := .word) (imm := 0#32) data (hea.symm ▸ hstore)
    rw [hea, hdata] at hexec
    exact ⟨_, hexec, exampleWord_loads hrd hhalf hbyte fun k hk => byteAt_storeValue s _ _ hk⟩

/-- Settles O36. -/
theorem loadAfterStore : Obligations.LoadAfterStore := by
  intro s n rs1 rs2 rd imm hrd hstore hload
  refine ⟨_, exec_storeOf_of_accessible rs2 hstore, fun i hi => ?_⟩
  obtain ⟨u, hu, hbytes⟩ := exec_load_bytes (s := advance (storeValue s (effectiveAddr s rs1 imm) n (readReg s rs2))) hi hrd hload
  refine ⟨u, hu, fun k hk => getLsbD_eq_of_bytes (fun p hp => ?_) hk⟩
  exact (hbytes p hp).trans (extractLsb'_loadValue_storeValue s _ _ hp)

/-- Settles O37. -/
theorem misalignedAccesses : Obligations.MisalignedAccesses := by
  intro s i k n ea access hmod
  refine ⟨fun hp => traps_of_exception ?_, fun hp => traps_of_exception ?_, fun hp hlegal hio => exec_of_accessible access ?_⟩
  · simp [exceptionOf_of_dataAccess access, accessException, hmod, hp]
  · simp [exceptionOf_of_dataAccess access, accessException, hmod, hp]
  · simp [accessible, hp, hlegal, hio]

/-- Settles O38: the checks skip the policy, and every trap carries the exception of the access. -/
theorem alignedNeverMisaligned : Obligations.AlignedNeverMisaligned := by
  intro s i k n ea access
  refine ⟨fun hn => by simp [hn, widthBytes, Nat.mod_one], fun hmod => ?_⟩
  have hnever {id : ExceptionId} {v : Option Word} (hx : exceptionOf s i = some (id, v)) :
      id ≠ .loadAddressMisaligned ∧ id ≠ .storeAddressMisaligned :=
    accessException_of_aligned hmod ((exceptionOf_of_dataAccess access).symm.trans hx)
  refine ⟨fun v => ?_, fun x h => hnever (exceptionOf_of_fault h), fun t x h hreported hnew => ?_, fun id v => hnever⟩
  · rw [checkAccess_of_aligned hmod]
    exact checkLegal_ne_misaligned s.cfg ea n k v
  · exact hnever (exceptionOf_of_reported h hreported hnew)

/-- Settles O39. -/
theorem illegalAccessFaults : Obligations.IllegalAccessFaults :=
  fun _ _ _ _ _ access hlegal hpolicy =>
    traps_of_exception ((exceptionOf_of_dataAccess access).trans (accessException_of_illegal hlegal hpolicy))

/-- Settles O41. -/
theorem deviceAccessRefused : Obligations.DeviceAccessRefused :=
  fun _ _ _ _ _ access hx hio => exec_of_touchesIO access ((exceptionOf_of_dataAccess access).symm.trans hx) hio

/-- Settles O59: the marks by the shapes of a next state. -/
theorem fetchOfStoredBytesRefused : Obligations.FetchOfStoredBytesRefused := by
  refine ⟨fun s hlegal hstored => ?_, fun s t n rs1 rs2 imm hx h a ha => ?_, fun s t a h => (step_next h).wasStored_mono⟩
  · rw [step, fetch_of_stored hlegal hstored, andThen]
  · have access : dataAccess s (storeOf n rs1 rs2 imm) = some (.store, n, effectiveAddr s rs1 imm) := by cases n <;> rfl
    rw [exceptionOf_of_dataAccess access] at hx
    rw [exec_storeOf, storeWith_of_no_exception rs2 hx] at h
    split at h
    · cases h
    · cases h
      exact (wasStored_storeValue s _ (readReg s rs2) a n).2 (.inr ha)

end Sys2Proof.Machine
end

section
/-! The encoding, bit by bit: a word in each format is rebuilt from its fields, a mask of the listing fixes fields, every bit and
the range of each immediate, and the encoder as a formula (`30_encoding.md` rules R73 to R89, R96). -/

namespace Sys2Proof

open Machine

/-! ## A word rebuilt from its fields -/

theorem encodeR_fields (w : Word) :
    encodeR (w.extractLsb' 25 7) (rs2Of w) (rs1Of w) (w.extractLsb' 12 3) (rdOf w) (w.extractLsb' 0 7) = w := by
  apply BitVec.eq_of_getLsbD_eq
  intro j hj
  simp only [encodeR, rs2Of, rs1Of, rdOf, BitVec.getLsbD_append, BitVec.getLsbD_extractLsb']
  interval_cases j <;> simp

theorem encodeI_fields (w : Word) :
    encodeI (immI w) (rs1Of w) (w.extractLsb' 12 3) (rdOf w) (w.extractLsb' 0 7) = w := by
  apply BitVec.eq_of_getLsbD_eq
  intro j hj
  simp only [encodeI, immI, rs1Of, rdOf, BitVec.getLsbD_append, BitVec.getLsbD_extractLsb', BitVec.getLsbD_signExtend]
  interval_cases j <;> simp

theorem encodeS_fields (w : Word) :
    encodeS (immS w) (rs2Of w) (rs1Of w) (w.extractLsb' 12 3) (w.extractLsb' 0 7) = w := by
  apply BitVec.eq_of_getLsbD_eq
  intro j hj
  simp only [encodeS, immS, rs1Of, rs2Of, BitVec.getLsbD_append, BitVec.getLsbD_extractLsb', BitVec.getLsbD_signExtend]
  interval_cases j <;> simp

theorem encodeB_fields (w : Word) :
    encodeB (immB w) (rs2Of w) (rs1Of w) (w.extractLsb' 12 3) (w.extractLsb' 0 7) = w := by
  apply BitVec.eq_of_getLsbD_eq
  intro j hj
  simp only [encodeB, immB, rs1Of, rs2Of, BitVec.getLsbD_append, BitVec.getLsbD_extractLsb', BitVec.getLsbD_signExtend]
  interval_cases j <;> simp

theorem encodeU_fields (w : Word) : encodeU (immU w) (rdOf w) (w.extractLsb' 0 7) = w := by
  apply BitVec.eq_of_getLsbD_eq
  intro j hj
  simp only [encodeU, immU, rdOf, BitVec.getLsbD_append, BitVec.getLsbD_extractLsb']
  interval_cases j <;> simp

theorem encodeJ_fields (w : Word) : encodeJ (immJ w) (rdOf w) (w.extractLsb' 0 7) = w := by
  apply BitVec.eq_of_getLsbD_eq
  intro j hj
  simp only [encodeJ, immJ, rdOf, BitVec.getLsbD_append, BitVec.getLsbD_extractLsb', BitVec.getLsbD_signExtend]
  interval_cases j <;> simp

/-- The fields of FENCE cover the word (`30_encoding.md` rule R86). -/
theorem fence_fields (w : Word) :
    (fmOf w ++ predOf w ++ succOf w ++ rs1Of w ++ w.extractLsb' 12 3 ++ rdOf w ++ w.extractLsb' 0 7 : BitVec 32) = w := by
  apply BitVec.eq_of_getLsbD_eq
  intro j hj
  simp only [fmOf, predOf, succOf, rdOf, rs1Of, BitVec.getLsbD_append, BitVec.getLsbD_extractLsb']
  interval_cases j <;> simp

/-- The fields of SYSTEM cover the word (`30_encoding.md` rule R87). -/
theorem funct12_fields (w : Word) :
    (w.extractLsb' 20 12 ++ rs1Of w ++ w.extractLsb' 12 3 ++ rdOf w ++ w.extractLsb' 0 7 : BitVec 32) = w := by
  apply BitVec.eq_of_getLsbD_eq
  intro j hj
  simp only [rdOf, rs1Of, BitVec.getLsbD_append, BitVec.getLsbD_extractLsb']
  interval_cases j <;> simp

/-! ## Fields fixed by a mask (`30_encoding.md` rule R89) -/

/-- A field that lies under the mask is that of the match. -/
theorem extractLsb'_of_mask {w mask bits : Word} (h : w &&& mask = bits) {lo n : Nat}
    (hm : mask.extractLsb' lo n = BitVec.allOnes n) : w.extractLsb' lo n = bits.extractLsb' lo n := by
  rw [← h, BitVec.extractLsb'_and, hm, BitVec.and_allOnes]

theorem mask_opcode_iff {w bits : Word} (hb : bits &&& 0x0000007F#32 = bits) :
    w &&& 0x0000007F#32 = bits ↔ w.extractLsb' 0 7 = bits.extractLsb' 0 7 := by
  refine ⟨fun h => extractLsb'_of_mask h rfl, fun h => ?_⟩
  rw [← hb, ← encodeU_fields w, ← encodeU_fields bits, encodeU_mask, encodeU_mask, h]

theorem mask_funct3_iff {w bits : Word} (hb : bits &&& 0x0000707F#32 = bits) :
    w &&& 0x0000707F#32 = bits ↔
      w.extractLsb' 12 3 = bits.extractLsb' 12 3 ∧ w.extractLsb' 0 7 = bits.extractLsb' 0 7 := by
  refine ⟨fun h => ⟨extractLsb'_of_mask h rfl, extractLsb'_of_mask h rfl⟩, fun ⟨hf, ho⟩ => ?_⟩
  rw [← hb, ← encodeI_fields w, ← encodeI_fields bits, encodeI_mask, encodeI_mask, hf, ho]

theorem mask_funct7_iff {w bits : Word} (hb : bits &&& 0xFE00707F#32 = bits) :
    w &&& 0xFE00707F#32 = bits ↔ w.extractLsb' 25 7 = bits.extractLsb' 25 7 ∧
      w.extractLsb' 12 3 = bits.extractLsb' 12 3 ∧ w.extractLsb' 0 7 = bits.extractLsb' 0 7 := by
  refine ⟨fun h => ⟨extractLsb'_of_mask h rfl, extractLsb'_of_mask h rfl, extractLsb'_of_mask h rfl⟩,
    fun ⟨hg, hf, ho⟩ => ?_⟩
  rw [← hb, ← encodeR_fields w, ← encodeR_fields bits, encodeR_mask, encodeR_mask, hg, hf, ho]

/-- A row that fixes the whole word fixes every field of SYSTEM. -/
theorem mask_full_iff {w bits : Word} :
    w &&& 0xFFFFFFFF#32 = bits ↔ w.extractLsb' 20 12 = bits.extractLsb' 20 12 ∧ rs1Of w = rs1Of bits ∧
      w.extractLsb' 12 3 = bits.extractLsb' 12 3 ∧ rdOf w = rdOf bits ∧ w.extractLsb' 0 7 = bits.extractLsb' 0 7 := by
  refine ⟨fun h => ⟨extractLsb'_of_mask h rfl, extractLsb'_of_mask h rfl, extractLsb'_of_mask h rfl,
    extractLsb'_of_mask h rfl, extractLsb'_of_mask h rfl⟩, fun ⟨hn, hrs1, hf, hrd, ho⟩ => ?_⟩
  have hw : w = bits := by rw [← funct12_fields w, hn, hrs1, hf, hrd, ho, funct12_fields bits]
  exact hw ▸ BitVec.and_allOnes (w := 32)

/-! ## The word of a matching row -/

section
variable {w bits : Word} {g : BitVec 7} {f : BitVec 3} {op : BitVec 7}

theorem encodeU_of_mask (h : w &&& 0x0000007F#32 = bits) (ho : bits.extractLsb' 0 7 = op) :
    encodeU (immU w) (rdOf w) op = w := by
  rw [← ho, ← extractLsb'_of_mask h rfl, encodeU_fields]

theorem encodeJ_of_mask (h : w &&& 0x0000007F#32 = bits) (ho : bits.extractLsb' 0 7 = op) :
    encodeJ (immJ w) (rdOf w) op = w := by
  rw [← ho, ← extractLsb'_of_mask h rfl, encodeJ_fields]

theorem encodeI_of_mask (h : w &&& 0x0000707F#32 = bits) (hf : bits.extractLsb' 12 3 = f) (ho : bits.extractLsb' 0 7 = op) :
    encodeI (immI w) (rs1Of w) f (rdOf w) op = w := by
  rw [← hf, ← ho, ← extractLsb'_of_mask h rfl, ← extractLsb'_of_mask h rfl, encodeI_fields]

theorem encodeS_of_mask (h : w &&& 0x0000707F#32 = bits) (hf : bits.extractLsb' 12 3 = f) (ho : bits.extractLsb' 0 7 = op) :
    encodeS (immS w) (rs2Of w) (rs1Of w) f op = w := by
  rw [← hf, ← ho, ← extractLsb'_of_mask h rfl, ← extractLsb'_of_mask h rfl, encodeS_fields]

theorem encodeB_of_mask (h : w &&& 0x0000707F#32 = bits) (hf : bits.extractLsb' 12 3 = f) (ho : bits.extractLsb' 0 7 = op) :
    encodeB (immB w) (rs2Of w) (rs1Of w) f op = w := by
  rw [← hf, ← ho, ← extractLsb'_of_mask h rfl, ← extractLsb'_of_mask h rfl, encodeB_fields]

/-- `shamt` is the field of `rs2` (`30_encoding.md` rule R85). -/
theorem encodeR_of_mask (h : w &&& 0xFE00707F#32 = bits) (hg : bits.extractLsb' 25 7 = g) (hf : bits.extractLsb' 12 3 = f)
    (ho : bits.extractLsb' 0 7 = op) : encodeR g (rs2Of w) (rs1Of w) f (rdOf w) op = w := by
  rw [← hg, ← hf, ← ho, ← extractLsb'_of_mask h rfl, ← extractLsb'_of_mask h rfl, ← extractLsb'_of_mask h rfl,
    encodeR_fields]

theorem encodeFence_of_mask (h : w &&& 0x0000707F#32 = 0x0000000F#32) :
    encodeFence (fmOf w) (predOf w) (succOf w) (rs1Of w) (rdOf w) = w := by
  have hf : w.extractLsb' 12 3 = 0b000#3 := extractLsb'_of_mask h rfl
  have ho : w.extractLsb' 0 7 = 0b0001111#7 := extractLsb'_of_mask h rfl
  rw [encodeFence, ← hf, ← ho, fence_fields]

/-- FENCE.TSO fixes the three sets as well (`30_encoding.md` rule R89). -/
theorem encodeFenceTso_of_mask (h : w &&& 0xFFF0707F#32 = 0x8330000F#32) :
    encodeFence 0b1000#4 0b0011#4 0b0011#4 (rs1Of w) (rdOf w) = w := by
  have hfm : fmOf w = 0b1000#4 := extractLsb'_of_mask h rfl
  have hp : predOf w = 0b0011#4 := extractLsb'_of_mask h rfl
  have hq : succOf w = 0b0011#4 := extractLsb'_of_mask h rfl
  have hf : w.extractLsb' 12 3 = 0b000#3 := extractLsb'_of_mask h rfl
  have ho : w.extractLsb' 0 7 = 0b0001111#7 := extractLsb'_of_mask h rfl
  have hw := fence_fields w
  rw [hfm, hp, hq, hf, ho] at hw
  exact hw

end

/-! ## Immediates, bit by bit (`30_encoding.md` rules R79 to R83) -/

theorem getLsbD_immI (w : Word) {j : Nat} (hj : j < 32) :
    (immI w).getLsbD j = w.getLsbD (if j < 11 then j + 20 else 31) := by
  simp only [immI, BitVec.getLsbD_signExtend, BitVec.getLsbD_extractLsb', BitVec.msb_eq_getLsbD_last]
  interval_cases j <;> simp

theorem getLsbD_immS (w : Word) {j : Nat} (hj : j < 32) :
    (immS w).getLsbD j = w.getLsbD (if j < 5 then j + 7 else if j < 11 then j + 20 else 31) := by
  simp only [immS, BitVec.getLsbD_signExtend, BitVec.getLsbD_append, BitVec.getLsbD_extractLsb', BitVec.msb_eq_getLsbD_last]
  interval_cases j <;> simp

theorem getLsbD_immB (w : Word) {j : Nat} (h1 : 1 ≤ j) (hj : j < 32) :
    (immB w).getLsbD j = w.getLsbD (if j < 5 then j + 7 else if j < 11 then j + 20 else if j = 11 then 7 else 31) := by
  simp only [immB, BitVec.getLsbD_signExtend, BitVec.getLsbD_append, BitVec.getLsbD_extractLsb', BitVec.msb_eq_getLsbD_last]
  interval_cases j <;> simp

theorem getLsbD_immB_zero (w : Word) : (immB w).getLsbD 0 = false := by
  simp only [immB, BitVec.getLsbD_signExtend, BitVec.getLsbD_append]
  simp

theorem getLsbD_immU (w : Word) {j : Nat} (h12 : 12 ≤ j) (hj : j < 32) : (immU w).getLsbD j = w.getLsbD j := by
  have hsub : j - 12 < 20 := by omega
  have hadd : 12 + (j - 12) = j := by omega
  simp only [immU, BitVec.getLsbD_append, BitVec.getLsbD_extractLsb', Nat.not_lt.2 h12, hsub, hadd, decide_true, Bool.true_and,
    if_false]

theorem getLsbD_immU_low (w : Word) {j : Nat} (h12 : j < 12) : (immU w).getLsbD j = false := by
  simp only [immU, BitVec.getLsbD_append, h12, if_true, BitVec.getLsbD_zero]

theorem getLsbD_immJ (w : Word) {j : Nat} (h1 : 1 ≤ j) (hj : j < 32) :
    (immJ w).getLsbD j = w.getLsbD (if j < 11 then j + 20 else if j = 11 then 20 else if j < 20 then j else 31) := by
  simp only [immJ, BitVec.getLsbD_signExtend, BitVec.getLsbD_append, BitVec.getLsbD_extractLsb', BitVec.msb_eq_getLsbD_last]
  interval_cases j <;> simp

theorem getLsbD_immJ_zero (w : Word) : (immJ w).getLsbD 0 = false := by
  simp only [immJ, BitVec.getLsbD_signExtend, BitVec.getLsbD_append]
  simp

/-! ## The values of immediates -/

theorem setWidth_signExtend_self {n : Nat} (x : BitVec n) (hn : n ≤ 32) : (x.signExtend 32).setWidth n = x := by
  apply BitVec.eq_of_getLsbD_eq
  intro j hj
  have hj32 : j < 32 := by omega
  simp only [BitVec.getLsbD_setWidth, BitVec.getLsbD_signExtend, hj, hj32, decide_true, Bool.true_and, if_true]

theorem isImm12_immI (w : Word) : isImm12 (immI w) = true := by
  rw [isImm12, immI, setWidth_signExtend_self _ (by decide), beq_self_eq_true]

theorem isImm12_immS (w : Word) : isImm12 (immS w) = true := by
  rw [isImm12, immS, setWidth_signExtend_self _ (by decide), beq_self_eq_true]

theorem isImmB_immB (w : Word) : isImmB (immB w) = true := by
  rw [isImmB, getLsbD_immB_zero, immB, setWidth_signExtend_self _ (by decide), beq_self_eq_true]
  rfl

theorem isImmU_immU (w : Word) : isImmU (immU w) = true := by
  rw [isImmU, immU, BitVec.setWidth_append_eq_right, beq_self_eq_true]

theorem isImmJ_immJ (w : Word) : isImmJ (immJ w) = true := by
  rw [isImmJ, getLsbD_immJ_zero, immJ, setWidth_signExtend_self _ (by decide), beq_self_eq_true]
  rfl

/-- A value sign-extended from 12 bits lies in the range of 12 bits. -/
theorem toInt_signExtend12_range (x : BitVec 12) :
    -2048 ≤ (x.signExtend 32).toInt ∧ (x.signExtend 32).toInt ≤ 2047 := by
  rw [BitVec.toInt_signExtend_of_le (by decide)]
  exact ⟨x.le_toInt, x.toInt_le⟩

/-- Zero bits below a value multiply it. -/
theorem toInt_append_zero {n m : Nat} (x : BitVec n) (hn : 0 < n) : (x ++ 0#m : BitVec (n + m)).toInt = 2 ^ m * x.toInt := by
  have hn0 : ¬ n = 0 := by omega
  simp [BitVec.toInt_append, hn0]

theorem toInt_immB_range (w : Word) : -4096 ≤ (immB w).toInt ∧ (immB w).toInt ≤ 4094 := by
  have hrange (x : BitVec 12) : -4096 ≤ ((x ++ 0#1).signExtend 32).toInt ∧ ((x ++ 0#1).signExtend 32).toInt ≤ 4094 := by
    have hlow := x.le_toInt
    have hhigh := x.toInt_le
    rw [BitVec.toInt_signExtend_of_le (by decide), toInt_append_zero x (by decide)]
    omega
  exact hrange _

theorem toInt_immJ_range (w : Word) : -1048576 ≤ (immJ w).toInt ∧ (immJ w).toInt ≤ 1048574 := by
  have hrange (x : BitVec 20) :
      -1048576 ≤ ((x ++ 0#1).signExtend 32).toInt ∧ ((x ++ 0#1).signExtend 32).toInt ≤ 1048574 := by
    have hlow := x.le_toInt
    have hhigh := x.toInt_le
    rw [BitVec.toInt_signExtend_of_le (by decide), toInt_append_zero x (by decide)]
    omega
  exact hrange _

theorem toInt_immU (w : Word) : (immU w).toInt = 4096 * (w.extractLsb' 12 20).toInt :=
  toInt_append_zero (m := 12) _ (by decide)

theorem toInt_immU_range (w : Word) : -2147483648 ≤ (immU w).toInt ∧ (immU w).toInt ≤ 2147479552 := by
  have hlow := (w.extractLsb' 12 20).le_toInt
  have hhigh := (w.extractLsb' 12 20).toInt_le
  rw [toInt_immU]
  omega

/-! ## The encoder as a formula (`30_encoding.md` rule R96) -/

theorem encodeI_eq_formula (v : Word) (rs1 rd : Reg) (f : BitVec 3) (op : BitVec 7) :
    encodeI v rs1 f rd op = formulaWord (f.setWidth 32 <<< 12 ||| op.setWidth 32) rd rs1 0#5 (encI v) := by
  apply BitVec.eq_of_getLsbD_eq
  intro j hj
  simp only [encodeI, formulaWord, encI, fieldAt, BitVec.getLsbD_append, BitVec.getLsbD_or, BitVec.getLsbD_shiftLeft,
    BitVec.getLsbD_setWidth, BitVec.getLsbD_extractLsb']
  interval_cases j <;> simp

theorem encodeS_eq_formula (v : Word) (rs1 rs2 : Reg) (f : BitVec 3) (op : BitVec 7) :
    encodeS v rs2 rs1 f op = formulaWord (f.setWidth 32 <<< 12 ||| op.setWidth 32) 0#5 rs1 rs2 (encS v) := by
  apply BitVec.eq_of_getLsbD_eq
  intro j hj
  simp only [encodeS, formulaWord, encS, fieldAt, BitVec.getLsbD_append, BitVec.getLsbD_or, BitVec.getLsbD_shiftLeft,
    BitVec.getLsbD_setWidth, BitVec.getLsbD_extractLsb']
  interval_cases j <;> simp

theorem encodeB_eq_formula (v : Word) (rs1 rs2 : Reg) (f : BitVec 3) (op : BitVec 7) :
    encodeB v rs2 rs1 f op = formulaWord (f.setWidth 32 <<< 12 ||| op.setWidth 32) 0#5 rs1 rs2 (encB v) := by
  apply BitVec.eq_of_getLsbD_eq
  intro j hj
  simp only [encodeB, formulaWord, encB, fieldAt, BitVec.getLsbD_append, BitVec.getLsbD_or, BitVec.getLsbD_shiftLeft,
    BitVec.getLsbD_setWidth, BitVec.getLsbD_extractLsb']
  interval_cases j <;> simp

theorem encodeU_eq_formula (v : Word) (rd : Reg) (op : BitVec 7) :
    encodeU v rd op = formulaWord (op.setWidth 32) rd 0#5 0#5 (encU v) := by
  apply BitVec.eq_of_getLsbD_eq
  intro j hj
  simp only [encodeU, formulaWord, encU, fieldAt, BitVec.getLsbD_append, BitVec.getLsbD_or, BitVec.getLsbD_shiftLeft,
    BitVec.getLsbD_setWidth, BitVec.getLsbD_extractLsb']
  interval_cases j <;> simp

theorem encodeJ_eq_formula (v : Word) (rd : Reg) (op : BitVec 7) :
    encodeJ v rd op = formulaWord (op.setWidth 32) rd 0#5 0#5 (encJ v) := by
  apply BitVec.eq_of_getLsbD_eq
  intro j hj
  simp only [encodeJ, formulaWord, encJ, fieldAt, BitVec.getLsbD_append, BitVec.getLsbD_or, BitVec.getLsbD_shiftLeft,
    BitVec.getLsbD_setWidth, BitVec.getLsbD_extractLsb']
  interval_cases j <;> simp

theorem encodeR_eq_formula (g : BitVec 7) (rs2 rs1 rd : Reg) (f : BitVec 3) (op : BitVec 7) :
    encodeR g rs2 rs1 f rd op =
      formulaWord (g.setWidth 32 <<< 25 ||| f.setWidth 32 <<< 12 ||| op.setWidth 32) rd rs1 rs2 0#32 := by
  apply BitVec.eq_of_getLsbD_eq
  intro j hj
  simp only [encodeR, formulaWord, BitVec.getLsbD_append, BitVec.getLsbD_or, BitVec.getLsbD_shiftLeft, BitVec.getLsbD_setWidth]
  interval_cases j <;> simp

/-- The shift amount stands where `rs2` does (`30_encoding.md` rule R85). -/
theorem encodeR_eq_formula_shamt (g : BitVec 7) (n : BitVec 5) (rs1 rd : Reg) (f : BitVec 3) (op : BitVec 7) :
    encodeR g n rs1 f rd op =
      formulaWord (g.setWidth 32 <<< 25 ||| f.setWidth 32 <<< 12 ||| op.setWidth 32) rd rs1 0#5 (encShamt n) := by
  rw [encodeR_eq_formula]
  simp [formulaWord, encShamt]

/-- FENCE is an I format whose immediate holds the mode and the two sets (`30_encoding.md` rule R86). -/
theorem encodeFence_eq_encodeI (fm p q : BitVec 4) (rs1 rd : Reg) :
    encodeFence fm p q rs1 rd = encodeI ((fm ++ p ++ q : BitVec 12).setWidth 32) rs1 0b000#3 rd 0b0001111#7 := by
  apply BitVec.eq_of_getLsbD_eq
  intro j hj
  simp only [encodeFence, encodeI, BitVec.getLsbD_append, BitVec.getLsbD_extractLsb', BitVec.getLsbD_setWidth]
  interval_cases j <;> simp

theorem encodeFence_eq_formula (fm p q : BitVec 4) (rs1 rd : Reg) :
    encodeFence fm p q rs1 rd = formulaWord 0x0000000F#32 rd rs1 0#5 (encI ((fm ++ p ++ q : BitVec 12).setWidth 32)) :=
  (encodeFence_eq_encodeI fm p q rs1 rd).trans (encodeI_eq_formula _ rs1 rd _ _)

/-- The sets of FENCE.TSO are part of its match (`30_encoding.md` rule R89). -/
theorem encodeFenceTso_eq_formula (rs1 rd : Reg) :
    encodeFence 0b1000#4 0b0011#4 0b0011#4 rs1 rd = formulaWord 0x8330000F#32 rd rs1 0#5 0#32 := by
  apply BitVec.eq_of_getLsbD_eq
  intro j hj
  simp only [encodeFence, formulaWord, BitVec.getLsbD_append, BitVec.getLsbD_or, BitVec.getLsbD_shiftLeft,
    BitVec.getLsbD_setWidth]
  interval_cases j <;> simp

/-! ## The obligations -/

/-- Settles O5: each bit by the layout of its immediate, each range by the width that is sign-extended. -/
theorem immediatesBitByBit : Obligations.ImmediatesBitByBit := by
  intro w
  refine ⟨⟨fun j h11 hj => ?_, fun j h11 => ?_, toInt_signExtend12_range _⟩,
    ⟨fun j h11 hj => ?_, fun j h5 h11 => ?_, fun j h5 => ?_, toInt_signExtend12_range _⟩,
    ⟨fun j h12 hj => ?_, getLsbD_immB w (by decide) (by decide), fun j h5 h11 => ?_, fun j h1 h5 => ?_, getLsbD_immB_zero w,
      toInt_immB_range w⟩,
    ⟨fun j => getLsbD_immU w, fun j => getLsbD_immU_low w, by rw [toInt_immU]; omega, toInt_immU_range w⟩,
    ⟨fun j h20 hj => ?_, fun j h12 h20 => ?_, getLsbD_immJ w (by decide) (by decide), fun j h1 h11 => ?_, getLsbD_immJ_zero w,
      toInt_immJ_range w⟩⟩
  · rw [getLsbD_immI w hj, if_neg (by omega)]
  · rw [getLsbD_immI w (by omega), if_pos h11]
  · rw [getLsbD_immS w hj, if_neg (by omega), if_neg (by omega)]
  · rw [getLsbD_immS w (by omega), if_neg (by omega), if_pos h11]
  · rw [getLsbD_immS w (by omega), if_pos h5]
  · rw [getLsbD_immB w (by omega) hj, if_neg (by omega), if_neg (by omega), if_neg (by omega)]
  · rw [getLsbD_immB w (by omega) (by omega), if_neg (by omega), if_pos h11]
  · rw [getLsbD_immB w h1 (by omega), if_pos h5]
  · rw [getLsbD_immJ w (by omega) hj, if_neg (by omega), if_neg (by omega), if_neg (by omega)]
  · rw [getLsbD_immJ w (by omega) (by omega), if_neg (by omega), if_neg (by omega), if_pos h20]
  · rw [getLsbD_immJ w h1 (by omega), if_pos h11]

/-- Settles O6: the formula of each format, at the match of each row. -/
theorem encodingFormula : Obligations.EncodingFormula := by
  intro rd rs1 rs2 v n fm pred succ
  exact ⟨encodeU_eq_formula v rd _, encodeU_eq_formula v rd _, encodeJ_eq_formula v rd _, encodeI_eq_formula v rs1 rd _ _,
    encodeB_eq_formula v rs1 rs2 _ _, encodeB_eq_formula v rs1 rs2 _ _, encodeB_eq_formula v rs1 rs2 _ _,
    encodeB_eq_formula v rs1 rs2 _ _, encodeB_eq_formula v rs1 rs2 _ _, encodeB_eq_formula v rs1 rs2 _ _,
    encodeI_eq_formula v rs1 rd _ _, encodeI_eq_formula v rs1 rd _ _, encodeI_eq_formula v rs1 rd _ _,
    encodeI_eq_formula v rs1 rd _ _, encodeI_eq_formula v rs1 rd _ _,
    encodeS_eq_formula v rs1 rs2 _ _, encodeS_eq_formula v rs1 rs2 _ _, encodeS_eq_formula v rs1 rs2 _ _,
    encodeI_eq_formula v rs1 rd _ _, encodeI_eq_formula v rs1 rd _ _, encodeI_eq_formula v rs1 rd _ _,
    encodeI_eq_formula v rs1 rd _ _, encodeI_eq_formula v rs1 rd _ _, encodeI_eq_formula v rs1 rd _ _,
    encodeR_eq_formula_shamt _ n rs1 rd _ _, encodeR_eq_formula_shamt _ n rs1 rd _ _, encodeR_eq_formula_shamt _ n rs1 rd _ _,
    encodeR_eq_formula _ rs2 rs1 rd _ _, encodeR_eq_formula _ rs2 rs1 rd _ _, encodeR_eq_formula _ rs2 rs1 rd _ _,
    encodeR_eq_formula _ rs2 rs1 rd _ _, encodeR_eq_formula _ rs2 rs1 rd _ _, encodeR_eq_formula _ rs2 rs1 rd _ _,
    encodeR_eq_formula _ rs2 rs1 rd _ _, encodeR_eq_formula _ rs2 rs1 rd _ _, encodeR_eq_formula _ rs2 rs1 rd _ _,
    encodeR_eq_formula _ rs2 rs1 rd _ _, encodeFence_eq_formula fm pred succ rs1 rd, rfl, rfl,
    encodeFenceTso_eq_formula rs1 rd, rfl⟩

end Sys2Proof
end

section
/-! The decoder over the rows of the listing: the rows are disjoint, what the decoder can answer, the round trips between words
and instructions, and where the reserved encodings lie (`30_encoding.md` rules R89 to R96). -/

namespace Sys2Proof

open Machine

/-! ## The rows are disjoint (`30_encoding.md` rule R89) -/

theorem Row.matches_iff (r : Row) (w : Word) : r.matches w = true ↔ w &&& r.mask = r.bits := by
  rw [Row.matches, beq_iff_eq]

/-- No word matches both rows. -/
def Row.Disjoint (a b : Row) : Prop := ∀ w : Word, ¬ (a.matches w = true ∧ b.matches w = true)

/-- The matches of two rows differ in a bit that both masks fix. -/
def Row.conflicts (a b : Row) : Bool := a.bits &&& b.mask != b.bits &&& a.mask

theorem Row.disjoint_of_conflicts {a b : Row} (h : a.conflicts b = true) : a.Disjoint b := by
  rintro w ⟨ha, hb⟩
  rw [Row.matches_iff] at ha hb
  rw [Row.conflicts, bne_iff_ne, ← ha, ← hb] at h
  exact h (by ac_rfl)

theorem fortyRows_disjoint : fortyRows.Pairwise Row.Disjoint := by
  have hconflicts : fortyRows.Pairwise (fun a b => a.conflicts b = true) := by decide
  exact hconflicts.imp Row.disjoint_of_conflicts

theorem fenceSpecialRows_disjoint : fenceSpecialRows.Pairwise Row.Disjoint := by
  have hconflicts : fenceSpecialRows.Pairwise (fun a b => a.conflicts b = true) := by decide
  exact hconflicts.imp Row.disjoint_of_conflicts

/-- A word matches one row at most of a list of disjoint rows, so the order of trying them does not matter. -/
theorem row_eq_of_matches {rows : List Row} (hrows : rows.Pairwise Row.Disjoint) {a b : Row} {w : Word}
    (ha : a ∈ rows) (hb : b ∈ rows) (hma : a.matches w = true) (hmb : b.matches w = true) : a = b := by
  have hsymm : Std.Symm Row.Disjoint := ⟨fun _ _ h w hw => h w hw.symm⟩
  by_contra hne
  exact hrows.forall ha hb hne w ⟨hma, hmb⟩

/-- The FENCE row of the listing. -/
def fenceRow : Row :=
  ⟨"FENCE", 0x0000707F#32, 0x0000000F#32, fun w => .fence (fmOf w) (predOf w) (succOf w) (rs1Of w) (rdOf w)⟩

theorem fenceRow_mem : fenceRow ∈ fortyRows :=
  List.mem_of_getElem? (i := 37) rfl

theorem fenceRow_matches_iff (w : Word) : fenceRow.matches w = true ↔ w &&& 0x0000707F#32 = 0x0000000F#32 :=
  fenceRow.matches_iff w

/-- The special cases of FENCE are words of its row. -/
theorem fenceRow_matches_of_special {r : Row} {w : Word} (hr : r ∈ fenceSpecialRows) (h : r.matches w = true) :
    fenceRow.matches w = true := by
  have hrow : ∀ r ∈ fenceSpecialRows,
      r.mask &&& 0x0000707F#32 = 0x0000707F#32 ∧ r.bits &&& 0x0000707F#32 = 0x0000000F#32 := by decide
  obtain ⟨hmask, hbits⟩ := hrow r hr
  rw [fenceRow_matches_iff, ← hbits, ← (r.matches_iff w).1 h, BitVec.and_assoc, hmask]

/-! ## What the decoder answers (`30_encoding.md` rule R95) -/

/-- The three answers of the decoder: the instruction of a special case of FENCE, that of a row of the listing where no special
case matches, or that the word is reserved. -/
inductive DecodesTo (w : Word) : Except DecodeError Instr → Prop where
  | special (r : Row) (mem : r ∈ fenceSpecialRows) (hit : r.matches w = true) : DecodesTo w (.ok (r.build w))
  | ordinary (r : Row) (mem : r ∈ fortyRows) (hit : r.matches w = true)
      (plain : ∀ q ∈ fenceSpecialRows, ¬ q.matches w = true) : DecodesTo w (.ok (r.build w))
  | reserved (missed : ∀ r ∈ fortyRows, ¬ r.matches w = true) : DecodesTo w (.error (.reserved w))

theorem decode_decodesTo (w : Word) : DecodesTo w (decode w) := by
  have hhit {rows : List Row} {r : Row} (h : rows.find? (fun r => r.matches w) = some r) : r.matches w = true :=
    List.find?_some (p := fun r : Row => r.matches w) h
  rw [decode, opcodeRows, List.find?_append]
  cases hs : fenceSpecialRows.find? (fun r => r.matches w) with
  | some r => exact .special r (List.mem_of_find?_eq_some hs) (hhit hs)
  | none =>
    have hplain := List.find?_eq_none.1 hs
    cases ho : fortyRows.find? (fun r => r.matches w) with
    | some r => exact .ordinary r (List.mem_of_find?_eq_some ho) (hhit ho) hplain
    | none => exact .reserved (List.find?_eq_none.1 ho)

/-- The answer is fixed by the rows that match. -/
theorem DecodesTo.unique {w : Word} {d e : Except DecodeError Instr} (hd : DecodesTo w d) (he : DecodesTo w e) : d = e := by
  have hspecial {r : Row} (hr : r ∈ fenceSpecialRows) (h : r.matches w = true) : ¬ ∀ r ∈ fortyRows, ¬ r.matches w = true :=
    fun hmissed => hmissed _ fenceRow_mem (fenceRow_matches_of_special hr h)
  cases hd with
  | special r mem hit => cases he with
    | special q mem' hit' => rw [row_eq_of_matches fenceSpecialRows_disjoint mem mem' hit hit']
    | ordinary q mem' hit' plain => exact absurd hit (plain r mem)
    | reserved missed => exact absurd missed (hspecial mem hit)
  | ordinary r mem hit plain => cases he with
    | special q mem' hit' => exact absurd hit' (plain q mem')
    | ordinary q mem' hit' plain' => rw [row_eq_of_matches fortyRows_disjoint mem mem' hit hit']
    | reserved missed => exact absurd hit (missed r mem)
  | reserved missed => cases he with
    | special q mem' hit' => exact absurd missed (hspecial mem' hit')
    | ordinary q mem' hit' plain => exact absurd hit' (missed q mem')
    | reserved missed' => rfl

theorem decode_eq_of_decodesTo {w : Word} {d : Except DecodeError Instr} (h : DecodesTo w d) : decode w = d :=
  (decode_decodesTo w).unique h

/-- A row other than FENCE has none of the words of its special cases. -/
theorem decode_of_row {r : Row} {w : Word} (hr : r ∈ fortyRows) (hfence : r.bits ≠ 0x0000000F#32) (h : r.matches w = true) :
    decode w = .ok (r.build w) := by
  refine decode_eq_of_decodesTo (.ordinary r hr h fun q hq hm => hfence ?_)
  exact congrArg Row.bits (row_eq_of_matches fortyRows_disjoint hr fenceRow_mem h (fenceRow_matches_of_special hq hm))

theorem decode_reserved_iff (w : Word) :
    decode w = .error (.reserved w) ↔ ∀ r ∈ fortyRows, ¬ r.matches w = true := by
  refine ⟨fun h => ?_, fun h => decode_eq_of_decodesTo (.reserved h)⟩
  have hd := decode_decodesTo w
  rw [h] at hd
  cases hd with
  | reserved missed => exact missed

/-! ## FENCE and its special cases (log entry 19) -/

theorem fenceTso_mask_iff (fm p q : BitVec 4) (rs1 rd : Reg) :
    encodeFence fm p q rs1 rd &&& 0xFFF0707F#32 = 0x8330000F#32 ↔ isTsoFence fm p q = true := by
  simp only [isTsoFence, Bool.and_eq_true, beq_iff_eq]
  constructor
  · intro h
    have hfm := extractLsb'_of_mask h (lo := 28) (n := 4) rfl
    have hp := extractLsb'_of_mask h (lo := 24) (n := 4) rfl
    have hq := extractLsb'_of_mask h (lo := 20) (n := 4) rfl
    exact ⟨⟨(fmOf_encodeFence fm p q rs1 rd).symm.trans hfm, (predOf_encodeFence fm p q rs1 rd).symm.trans hp⟩,
      (succOf_encodeFence fm p q rs1 rd).symm.trans hq⟩
  · rintro ⟨⟨rfl, rfl⟩, rfl⟩
    exact (encodeFence_maskTso _ _ _ rs1 rd).trans rfl

theorem pause_mask_iff (fm p q : BitVec 4) (rs1 rd : Reg) :
    encodeFence fm p q rs1 rd &&& 0xFFFFFFFF#32 = 0x0100000F#32 ↔ isPauseFence fm p q rs1 rd = true := by
  simp only [isPauseFence, Bool.and_eq_true, beq_iff_eq]
  constructor
  · intro h
    have hw : encodeFence fm p q rs1 rd = encodeFence 0#4 0b0001#4 0#4 0#5 0#5 := (BitVec.and_allOnes (w := 32)).symm.trans h
    have hfm : fm = 0#4 := by simpa using congrArg fmOf hw
    have hp : p = 0b0001#4 := by simpa using congrArg predOf hw
    have hq : q = 0#4 := by simpa using congrArg succOf hw
    have hrs1 : rs1 = 0#5 := by simpa using congrArg rs1Of hw
    have hrd : rd = 0#5 := by simpa using congrArg rdOf hw
    exact ⟨⟨⟨⟨hfm, hp⟩, hq⟩, hrs1⟩, hrd⟩
  · rintro ⟨⟨⟨⟨rfl, rfl⟩, rfl⟩, rfl⟩, rfl⟩
    rfl

/-- A fence is well-formed where its word is that of no special case. -/
theorem fence_wf_iff (fm p q : BitVec 4) (rs1 rd : Reg) :
    (Instr.fence fm p q rs1 rd).wf = true ↔ ∀ r ∈ fenceSpecialRows, ¬ r.matches (encodeFence fm p q rs1 rd) = true := by
  simp only [fenceSpecialRows, List.forall_mem_cons, List.not_mem_nil, false_imp_iff, implies_true, and_true, Row.matches_iff,
    fenceTso_mask_iff, pause_mask_iff, Instr.wf, Bool.and_eq_true, Bool.not_eq_true, Bool.not_eq_true']

/-! ## Decoding the word of an instruction -/

theorem encode_mask_own_row (i : Instr) : encode i &&& (Laws.rowOf i).1 = (Laws.rowOf i).2 := by
  cases i with
  | lui | auipc => exact encodeU_mask _ _ _
  | jal => exact encodeJ_mask _ _ _
  | beq | bne | blt | bge | bltu | bgeu => exact (encodeB_mask _ _ _ _ _).trans rfl
  | sb | sh | sw => exact (encodeS_mask _ _ _ _ _).trans rfl
  | fence => exact encodeFence_mask _ _ _ _ _
  | fenceTso => exact Laws.EncodesToOwnRow.fenceTso _ _
  | ecall | ebreak | pause => rfl
  | slli | srli | srai | add | sub | sll | slt | sltu | xor | srl | sra | or | and => exact (encodeR_mask _ _ _ _ _ _).trans rfl
  | _ => exact (encodeI_mask _ _ _ _ _).trans rfl

/-- An instruction other than FENCE comes back when its row builds it from its word. -/
theorem decode_encode_of_row {i : Instr} {r : Row}
    (hr : fortyRows.find? (fun r => (r.mask, r.bits) == Laws.rowOf i) = some r)
    (hfence : ((Laws.rowOf i).2 == 0x0000000F#32) = false) (hbuild : r.build (encode i) = i) : decode (encode i) = .ok i := by
  have hrow : (r.mask, r.bits) = Laws.rowOf i :=
    beq_iff_eq.1 (List.find?_some (p := fun r : Row => (r.mask, r.bits) == Laws.rowOf i) hr)
  have hown := encode_mask_own_row i
  rw [← hrow] at hown hfence
  have hdecode := decode_of_row (List.mem_of_find?_eq_some hr) (beq_eq_false_iff_ne.1 hfence) ((r.matches_iff _).2 hown)
  rw [hdecode, hbuild]

/-! ## The word of a decoded instruction -/

/-- The instruction that the row builds from the word is well-formed, and the word is its own. -/
def Row.Inverts (r : Row) (w : Word) : Prop := (r.build w).wf = true ∧ encode (r.build w) = w

section
variable {r : Row} {w : Word} (h : w &&& r.mask = r.bits)
include h

theorem upperAndJumpRows_invert (hr : r ∈ upperAndJumpRows) : r.Inverts w := by
  simp only [upperAndJumpRows, List.mem_cons, List.not_mem_nil, or_false] at hr
  rcases hr with rfl | rfl | rfl | rfl
  · exact ⟨isImmU_immU w, encodeU_of_mask h rfl⟩
  · exact ⟨isImmU_immU w, encodeU_of_mask h rfl⟩
  · exact ⟨isImmJ_immJ w, encodeJ_of_mask h rfl⟩
  · exact ⟨isImm12_immI w, encodeI_of_mask h rfl rfl⟩

theorem branchRows_invert (hr : r ∈ branchRows) : r.Inverts w := by
  simp only [branchRows, List.mem_cons, List.not_mem_nil, or_false] at hr
  rcases hr with rfl | rfl | rfl | rfl | rfl | rfl <;> exact ⟨isImmB_immB w, encodeB_of_mask h rfl rfl⟩

theorem loadStoreRows_invert (hr : r ∈ loadStoreRows) : r.Inverts w := by
  simp only [loadStoreRows, List.mem_cons, List.not_mem_nil, or_false] at hr
  rcases hr with rfl | rfl | rfl | rfl | rfl | rfl | rfl | rfl
  iterate 5 exact ⟨isImm12_immI w, encodeI_of_mask h rfl rfl⟩
  iterate 3 exact ⟨isImm12_immS w, encodeS_of_mask h rfl rfl⟩

theorem opImmRows_invert (hr : r ∈ opImmRows) : r.Inverts w := by
  simp only [opImmRows, List.mem_cons, List.not_mem_nil, or_false] at hr
  rcases hr with rfl | rfl | rfl | rfl | rfl | rfl | rfl | rfl | rfl
  iterate 6 exact ⟨isImm12_immI w, encodeI_of_mask h rfl rfl⟩
  iterate 3 exact ⟨rfl, encodeR_of_mask h rfl rfl rfl⟩

theorem opRows_invert (hr : r ∈ opRows) : r.Inverts w := by
  simp only [opRows, List.mem_cons, List.not_mem_nil, or_false] at hr
  rcases hr with rfl | rfl | rfl | rfl | rfl | rfl | rfl | rfl | rfl | rfl <;> exact ⟨rfl, encodeR_of_mask h rfl rfl rfl⟩

/-- A word that a row fixes whole is its match. -/
theorem eq_bits_of_full_mask (hmask : r.mask = BitVec.allOnes 32) : w = r.bits := by
  rw [← h, hmask, BitVec.and_allOnes]

theorem fenceAndSystemRows_invert (hr : r ∈ fenceAndSystemRows) (hplain : ∀ q ∈ fenceSpecialRows, ¬ q.matches w = true) :
    r.Inverts w := by
  simp only [fenceAndSystemRows, List.mem_cons, List.not_mem_nil, or_false] at hr
  rcases hr with rfl | rfl | rfl
  · have hw := encodeFence_of_mask h
    exact ⟨(fence_wf_iff _ _ _ _ _).2 (hw.symm ▸ hplain), hw⟩
  · exact ⟨rfl, (eq_bits_of_full_mask h rfl).symm⟩
  · exact ⟨rfl, (eq_bits_of_full_mask h rfl).symm⟩

theorem fenceSpecialRows_invert (hr : r ∈ fenceSpecialRows) : r.Inverts w := by
  simp only [fenceSpecialRows, List.mem_cons, List.not_mem_nil, or_false] at hr
  rcases hr with rfl | rfl
  · exact ⟨rfl, encodeFenceTso_of_mask h⟩
  · exact ⟨rfl, (eq_bits_of_full_mask h rfl).symm⟩

theorem fortyRows_invert (hr : r ∈ fortyRows) (hplain : ∀ q ∈ fenceSpecialRows, ¬ q.matches w = true) :
    r.Inverts w := by
  simp only [fortyRows, List.mem_append] at hr
  rcases hr with ((((hr | hr) | hr) | hr) | hr) | hr
  · exact upperAndJumpRows_invert h hr
  · exact branchRows_invert h hr
  · exact loadStoreRows_invert h hr
  · exact opImmRows_invert h hr
  · exact opRows_invert h hr
  · exact fenceAndSystemRows_invert h hr hplain

end

/-! ## The words that no row matches (`30_encoding.md` rules R90, R91) -/

theorem funct3_cases (f : BitVec 3) : f = 0#3 ∨ f = 1#3 ∨ f = 2#3 ∨ f = 3#3 ∨ f = 4#3 ∨ f = 5#3 ∨ f = 6#3 ∨ f = 7#3 := by
  revert f
  decide

/-- The rows of the listing miss a word where rule R91 lists it: outside the major opcodes all of them do, and inside one the
rows leave the complement that the rule names. -/
theorem no_row_matches_iff (w : Word) : (∀ r ∈ fortyRows, ¬ r.matches w = true) ↔ ReservedByPlace w := by
  simp only [fortyRows, upperAndJumpRows, branchRows, loadStoreRows, opImmRows, opRows, fenceAndSystemRows,
    List.forall_mem_append, List.forall_mem_cons, List.not_mem_nil, false_imp_iff, implies_true, and_true, Row.matches_iff,
    mask_opcode_iff, mask_funct3_iff, mask_funct7_iff, mask_full_iff, ReservedByPlace, rdOf, rs1Of, BitVec.reduceAnd,
    BitVec.reduceExtractLsb']
  generalize w.extractLsb' 0 7 = op, w.extractLsb' 12 3 = f, w.extractLsb' 25 7 = g
  by_cases hop : op ∈ majorOpcodes
  · simp only [majorOpcodes, List.mem_cons, List.not_mem_nil, or_false] at hop
    -- The opcode alone settles the rows with one `funct3` or none; BRANCH, LOAD, STORE, OP-IMM, OP and SYSTEM remain.
    rcases hop with rfl | rfl | rfl | rfl | rfl | rfl | rfl | rfl | rfl | rfl | rfl <;> simp [majorOpcodes]
    · revert f
      decide
    · revert f
      decide
    · revert f
      decide
    · rcases funct3_cases f with rfl | rfl | rfl | rfl | rfl | rfl | rfl | rfl <;> simp
    · rcases funct3_cases f with rfl | rfl | rfl | rfl | rfl | rfl | rfl | rfl <;> simp
    · tauto
  · simp only [majorOpcodes, List.mem_cons, List.not_mem_nil, or_false, not_or] at hop
    simp [majorOpcodes, hop]

/-- Every major opcode ends in 11 (`30_encoding.md` rule R88). -/
theorem reservedByPlace_of_low_bits {w : Word} (h : w.extractLsb' 0 2 ≠ 0b11#2) : ReservedByPlace w := by
  refine .inl fun hop => h ?_
  have hlow : ∀ op ∈ majorOpcodes, op.extractLsb' 0 2 = 0b11#2 := by decide
  exact (BitVec.extractLsb'_extractLsb'_of_le (by decide)).symm.trans (hlow _ hop)

/-! ## The obligations -/

/-- Settles O1: the row of the instruction is the one its word matches, and builds it from the word's fields. -/
theorem decodeOfEncode : Obligations.DecodeOfEncode := by
  intro i h
  cases i with
  | lui | auipc => exact decode_encode_of_row rfl rfl (by simp [encode, immU_encodeU _ _ _ h])
  | jal => exact decode_encode_of_row rfl rfl (by simp [encode, immJ_encodeJ _ _ _ h])
  | beq | bne | blt | bge | bltu | bgeu => exact decode_encode_of_row rfl rfl (by simp [encode, immB_encodeB _ _ _ _ _ h])
  | sb | sh | sw => exact decode_encode_of_row rfl rfl (by simp [encode, immS_encodeS _ _ _ _ _ h])
  | slli | srli | srai | add | sub | sll | slt | sltu | xor | srl | sra | or | and =>
    exact decode_encode_of_row rfl rfl (by simp [encode])
  | ecall | ebreak => exact decode_encode_of_row rfl rfl rfl
  | fence fm p q rs1 rd =>
    have hd := decode_eq_of_decodesTo (.ordinary _ fenceRow_mem ((fenceRow_matches_iff _).2 (encodeFence_mask fm p q rs1 rd))
      ((fence_wf_iff fm p q rs1 rd).1 h))
    simpa [encode, fenceRow] using hd
  | fenceTso rs1 rd =>
    have hd := decode_eq_of_decodesTo (.special _ List.mem_cons_self
      ((Row.matches_iff _ _).2 (Laws.EncodesToOwnRow.fenceTso rs1 rd)))
    simpa [encode] using hd
  | pause => exact decode_eq_of_decodesTo (.special _ (List.mem_of_getElem? (i := 1) rfl) rfl)
  | _ => exact decode_encode_of_row rfl rfl (by simp [encode, immI_encodeI _ _ _ _ _ h])

/-- Settles O2: each answer of the decoder that is an instruction is built by a row that the word matches. -/
theorem encodeOfDecode : Obligations.EncodeOfDecode := by
  intro w i h
  have hd := decode_decodesTo w
  rw [h] at hd
  cases hd with
  | special r mem hit => exact fenceSpecialRows_invert ((r.matches_iff w).1 hit) mem
  | ordinary r mem hit plain => exact fortyRows_invert ((r.matches_iff w).1 hit) mem plain

/-- Settles O3. -/
theorem reservedWordsByPlace : Obligations.ReservedWordsByPlace :=
  fun w => ⟨(decode_reserved_iff w).trans (no_row_matches_iff w), reservedByPlace_of_low_bits⟩

/-- Settles O4. -/
theorem fortyRowsDisjoint : Obligations.FortyRowsDisjoint :=
  ⟨rfl, fortyRows_disjoint⟩

theorem decode_word {w : Word} {i : Instr} (hw : encode i = w) (hi : i.wf = true) : decode w = .ok i :=
  hw ▸ decodeOfEncode i hi

/-- Settles O7: each word is the word of its instruction, which is well-formed. -/
theorem sampleWordsDecode : Obligations.SampleWordsDecode := by
  refine ⟨?_, ?_, ?_, ?_, ?_, ?_, ?_, ?_, ?_, ?_, ?_, ?_, ?_⟩ <;> exact decode_word rfl rfl

end Sys2Proof
end

section
/-! What the words of FENCE and the pseudoinstructions do: an instruction that writes a result, a branch on a condition, and the
obligations about both (`30_encoding.md` rules R92, R98, R99). -/

namespace Sys2Proof.Machine

open Sys2Proof

/-! ## Instructions that complete -/

/-- An instruction that writes a result writes that register alone and goes on at the next instruction
(`40_integer_computational.md` rule R105). -/
theorem completesWriting_writeResult (s : State) (rd : Reg) {v v' : Word} (hv : v = v') :
    CompletesWriting s (writeResult s rd v) rd v' (s.pc + 4#32) := by
  subst hv
  refine ⟨advance (writeReg s rd v), rfl, by simp, ⟨?_, fun r hr => ?_⟩, ⟨fun a => by simp [byteAt], by simp⟩,
    by simp, by simp⟩
  · simp [readReg_writeReg]
  · by_cases h0 : r = 0#5
    · simp [h0]
    · simp [readReg_writeReg, h0, hr]

theorem completesMovingPc_advance (s : State) : CompletesMovingPc s (.next (advance s)) (s.pc + 4#32) :=
  completesMovingPc_setPc s _

/-- A branch whose test decides the condition branches on it (`41_control_transfer.md` rules R152, R157). -/
theorem branchesOn_branchIf (s : State) {taken : Bool} {c : Prop} (h : taken = true ↔ c) (imm : Word) :
    BranchesOn s (branchIf s taken imm) c imm := by
  rcases branchIf_cases s taken imm with ⟨ht, e⟩ | ⟨ht, ha, e⟩ | ⟨ht, ha, e⟩ <;> rw [e]
  · have hc : ¬ c := fun hc => by simp [h.2 hc] at ht
    exact ⟨fun _ => completesMovingPc_advance s, fun hc' => absurd hc' hc, fun hc' => absurd hc' hc⟩
  · exact ⟨fun hc => absurd (h.1 ht) hc, fun _ _ => completesMovingPc_setPc s _, fun _ ha' => absurd ha ha'⟩
  · exact ⟨fun hc => absurd (h.1 ht) hc, fun _ ha' => absurd ha' ha, fun _ _ => takeTrap_traps s _ _⟩

/-! ## Comparisons as conditions (`41_control_transfer.md` rules R160 to R163) -/

theorem ltSigned_iff (a b : Word) : ltSigned a b = true ↔ a.toInt < b.toInt := by
  rw [ltSigned, decide_eq_true_iff]

theorem ltUnsigned_iff (a b : Word) : ltUnsigned a b = true ↔ a.toNat < b.toNat := by
  rw [ltUnsigned, decide_eq_true_iff]

theorem geSigned_iff (a b : Word) : geSigned a b = true ↔ b.toInt ≤ a.toInt := by
  rw [geSigned, Bool.not_eq_true', ← Bool.not_eq_true, ltSigned_iff, Int.not_lt]

theorem geUnsigned_iff (a b : Word) : geUnsigned a b = true ↔ b.toNat ≤ a.toNat := by
  rw [geUnsigned, Bool.not_eq_true', ← Bool.not_eq_true, ltUnsigned_iff, Nat.not_lt]

/-! ## The results of the pseudoinstructions (`30_encoding.md` rules R98, R99) -/

/-- The one value below 1 is 0. -/
theorem boolWord_ltUnsigned_one (v : Word) : boolWord (ltUnsigned v 1#32) = if v = 0#32 then 1#32 else 0#32 := by
  simp [boolWord, ltUnsigned_iff, ← BitVec.toNat_inj]

/-- The one value that 0 is not below is 0. -/
theorem boolWord_ltUnsigned_zero (v : Word) : boolWord (ltUnsigned 0#32 v) = if v = 0#32 then 0#32 else 1#32 := by
  by_cases hv : v = 0#32
  · simp [boolWord, hv, ltUnsigned]
  · have hpos : 0 < v.toNat := Nat.pos_of_ne_zero fun h => hv (BitVec.eq_of_toNat_eq h)
    simp [boolWord, hv, ltUnsigned, hpos]

theorem xor_allOnes_eq_ofNat (v : Word) : v ^^^ 0xFFFFFFFF#32 = BitVec.ofNat 32 (4294967295 - v.toNat) := by
  have hnot : v ^^^ 0xFFFFFFFF#32 = ~~~v := BitVec.xor_allOnes
  rw [hnot]
  bv_omega

theorem zero_sub_eq_ofInt (v : Word) : 0#32 - v = BitVec.ofInt 32 (-v.toInt) := by
  rw [BitVec.zero_sub, BitVec.ofInt_neg, BitVec.ofInt_toInt]

/-! ## The words of FENCE -/

/-- Every word of the FENCE row, its special cases among them, decodes to an instruction that moves on and does nothing else
(`43_memory_ordering.md` rules R203, R205; `45_hints.md` rule R231). -/
theorem decode_fence_word {w : Word} (h : w &&& 0x0000707F#32 = 0x0000000F#32) :
    ∃ i, decode w = .ok i ∧ ∀ s, exec i s = .next (advance s) := by
  have hfence := (fenceRow_matches_iff w).2 h
  have hd := decode_decodesTo w
  generalize decode w = d at hd
  cases hd with
  | special r mem hit =>
    rcases List.mem_pair.1 mem with rfl | rfl
    · exact ⟨_, rfl, fun _ => rfl⟩
    · exact ⟨_, rfl, fun _ => rfl⟩
  | ordinary r mem hit plain =>
    rw [row_eq_of_matches fortyRows_disjoint mem fenceRow_mem hit hfence]
    exact ⟨_, rfl, fun _ => rfl⟩
  | reserved missed => exact absurd hfence (missed _ fenceRow_mem)

/-! ## The obligations -/

/-- Settles O43. -/
theorem everyFenceWordExecutes : Obligations.EveryFenceWordExecutes := by
  intro s w hf h
  obtain ⟨i, hdecode, hexec⟩ := decode_fence_word h
  rw [step_of_fetches hf, runWord_of_decode s hdecode, hexec]
  exact completesMovingPc_advance s

/-- Settles O50: each is the instruction it names, with the result that its operands give. -/
theorem pseudoinstructions : Obligations.Pseudoinstructions := by
  intro s rd rs imm
  refine ⟨?mv, ?seqz, ?snez, ?not, ?neg, fun ha => ?j, ?nop⟩
  case mv => exact completesWriting_writeResult s rd (BitVec.add_zero _)
  case seqz => exact completesWriting_writeResult s rd (boolWord_ltUnsigned_one _)
  case snez => exact completesWriting_writeResult s rd (boolWord_ltUnsigned_zero _)
  case not => exact completesWriting_writeResult s rd (xor_allOnes_eq_ofNat _)
  case neg => exact completesWriting_writeResult s rd (zero_sub_eq_ofInt _)
  case j => exact transferTo_link_zero (nextPc s) ha
  case nop => exact completesMovingPc_advance s

/-- Settles O51: each is the branch with its operands exchanged. -/
theorem swappedBranches : Obligations.SwappedBranches :=
  fun s _ _ imm => ⟨branchesOn_branchIf s (ltSigned_iff _ _) imm, branchesOn_branchIf s (geSigned_iff _ _) imm,
    branchesOn_branchIf s (ltUnsigned_iff _ _) imm, branchesOn_branchIf s (geUnsigned_iff _ _) imm⟩

end Sys2Proof.Machine
end

section
/-! The integer computational instructions: each writes one result and raises nothing, the results as arithmetic, and the words
with `rd = x0` among the HINT code points (`40_integer_computational.md`; `45_hints.md` rule R228). -/

namespace Sys2Proof.Machine

open Sys2Proof

/-! ## Every integer computational instruction writes one result (`40_integer_computational.md` rules R105, R106) -/

/-- Each of the 21 meanings is a `writeResult` of the instruction's own `rd`. -/
theorem exec_of_integerDest {i : Instr} {rd : Reg} (h : integerDest i = some rd) (s : State) :
    ∃ v, exec i s = writeResult s rd v := by
  cases i with
  | lui | auipc | addi | slti | sltiu | xori | ori | andi | slli | srli | srai
  | add | sub | sll | slt | sltu | xor | srl | sra | or | and =>
    cases h
    exact ⟨_, rfl⟩
  | _ => cases h

/-- A result for `x0` is dropped, and only `pc` moves (`10_state.md` rule R21). -/
theorem writeResult_zero (s : State) (v : Word) : writeResult s 0#5 v = .next (advance s) := by
  rw [writeResult, writeReg_zero]

/-! ## Sums and differences modulo 2^32 (`40_integer_computational.md` rule R107) -/

theorem add_eq_ofNat (a b : Word) : a + b = BitVec.ofNat 32 (a.toNat + b.toNat) := by
  rw [BitVec.ofNat_add, BitVec.ofNat_toNat, BitVec.ofNat_toNat, BitVec.setWidth_eq, BitVec.setWidth_eq]

theorem add_eq_ofInt (a b : Word) : a + b = BitVec.ofInt 32 (a.toInt + b.toInt) := by
  rw [BitVec.ofInt_add, BitVec.ofInt_toInt, BitVec.ofInt_toInt]

theorem ofInt_sub_eq (x y : Int) : BitVec.ofInt 32 (x - y) = BitVec.ofInt 32 x - BitVec.ofInt 32 y := by
  rw [Int.sub_eq_add_neg, BitVec.ofInt_add, BitVec.ofInt_neg, BitVec.sub_eq_add_neg]

theorem sub_eq_ofInt (a b : Word) : a - b = BitVec.ofInt 32 (a.toInt - b.toInt) := by
  rw [ofInt_sub_eq, BitVec.ofInt_toInt, BitVec.ofInt_toInt]

theorem sub_eq_ofInt_toNat (a b : Word) : a - b = BitVec.ofInt 32 (a.toNat - b.toNat) := by
  rw [ofInt_sub_eq, BitVec.ofInt_natCast, BitVec.ofInt_natCast, BitVec.ofNat_toNat, BitVec.ofNat_toNat,
    BitVec.setWidth_eq, BitVec.setWidth_eq]

/-! ## Comparisons as 1 or 0 (`40_integer_computational.md` rule R108) -/

theorem boolWord_ltSigned (a b : Word) : boolWord (ltSigned a b) = if a.toInt < b.toInt then 1#32 else 0#32 := by
  simp only [boolWord, ltSigned_iff]

theorem boolWord_ltUnsigned (a b : Word) : boolWord (ltUnsigned a b) = if a.toNat < b.toNat then 1#32 else 0#32 := by
  simp only [boolWord, ltUnsigned_iff]

/-! ## Shifts as products and quotients (`40_integer_computational.md` rule R109) -/

theorem toNat_shiftAmount (v : Word) : (shiftAmount v).toNat = v.toNat % 32 := by
  simp [shiftAmount]

theorem shiftLeft_eq_ofNat (a : Word) (n : BitVec 5) : shiftLeft a n = BitVec.ofNat 32 (a.toNat * 2 ^ n.toNat) := by
  apply BitVec.eq_of_toNat_eq
  rw [shiftLeft, BitVec.toNat_shiftLeft, Nat.shiftLeft_eq, BitVec.toNat_ofNat]

theorem shiftRightLogical_eq_ofNat (a : Word) (n : BitVec 5) :
    shiftRightLogical a n = BitVec.ofNat 32 (a.toNat / 2 ^ n.toNat) := by
  rw [← Nat.shiftRight_eq_div_pow, ← BitVec.toNat_ushiftRight, BitVec.ofNat_toNat, BitVec.setWidth_eq, shiftRightLogical]

/-- Filling with the sign rounds the quotient of the signed value down. -/
theorem shiftRightArith_eq_ofInt (a : Word) (n : BitVec 5) :
    shiftRightArith a n = BitVec.ofInt 32 (Int.fdiv a.toInt (2 ^ n.toNat)) := by
  have hfloor : Int.fdiv a.toInt (2 ^ n.toNat) = a.toInt >>> n.toNat := by
    rw [Int.shiftRight_eq_div_pow, Int.fdiv_eq_ediv_of_nonneg _ (by positivity)]
    norm_cast
  rw [hfloor, ← BitVec.toInt_sshiftRight, BitVec.ofInt_toInt, shiftRightArith]

/-! ## The upper immediate (`40_integer_computational.md` rules R110, R111) -/

theorem toNat_upperImmediate (field : BitVec 20) : (field ++ 0#12 : BitVec 32).toNat = field.toNat * 4096 := by
  rw [BitVec.toNat_append, BitVec.toNat_ofNat, Nat.zero_mod, Nat.or_zero, Nat.shiftLeft_eq]

theorem upperImmediate_eq_ofNat (field : BitVec 20) : (field ++ 0#12 : BitVec 32) = BitVec.ofNat 32 (field.toNat * 4096) := by
  rw [← toNat_upperImmediate, BitVec.ofNat_toNat, BitVec.setWidth_eq]

/-! ## The words with `rd = x0` (`45_hints.md` rule R228) -/

/-- A field that is clear may be added to the mask. -/
theorem hasBits_or {w mask bits field : Word} (h : HasBits w mask bits) (hfield : w &&& field = 0#32) :
    HasBits w (mask ||| field) bits := by
  rw [HasBits, BitVec.and_or_distrib_left, h, hfield, BitVec.or_zero]

theorem and_rdField_of_zero {w : Word} (h : rdOf w = 0#5) : w &&& 0x00000F80#32 = 0#32 := by
  rw [← encodeU_fields w, h]
  apply BitVec.eq_of_getLsbD_eq
  intro j hj
  simp only [encodeU, BitVec.getLsbD_and, BitVec.getLsbD_append]
  interval_cases j <;> simp

theorem and_rs1Field_of_zero {w : Word} (h : rs1Of w = 0#5) : w &&& 0x000F8000#32 = 0#32 := by
  rw [← encodeI_fields w, h]
  apply BitVec.eq_of_getLsbD_eq
  intro j hj
  simp only [encodeI, BitVec.getLsbD_and, BitVec.getLsbD_append]
  interval_cases j <;> simp

theorem rdOf_encode_of_integerDest {i : Instr} {rd : Reg} (h : integerDest i = some rd) : rdOf (encode i) = rd := by
  cases i with
  | lui | auipc =>
    cases h
    exact rdOf_encodeU _ _ _
  | addi | slti | sltiu | xori | ori | andi =>
    cases h
    exact rdOf_encodeI _ _ _ _ _
  | slli | srli | srai | add | sub | sll | slt | sltu | xor | srl | sra | or | and =>
    cases h
    exact rdOf_encodeR _ _ _ _ _ _
  | _ => cases h

/-- The word of an integer computational instruction with `rd = x0` fixes its row's bits and a clear `rd`. -/
theorem hasBits_encode_of_dest_zero {i : Instr} {rowMask mask bits : Word} (h : integerDest i = some 0#5)
    (hrow : Laws.rowOf i = (rowMask, bits)) (hmask : rowMask ||| 0x00000F80#32 = mask) : HasBits (encode i) mask bits := by
  have hown := encode_mask_own_row i
  rw [hrow] at hown
  exact hmask ▸ hasBits_or hown (and_rdField_of_zero (rdOf_encode_of_integerDest h))

theorem reg_two_to_five {r : Reg} (h : 2#5 ≤ r ∧ r ≤ 5#5) : r = 2#5 ∨ r = 3#5 ∨ r = 4#5 ∨ r = 5#5 := by
  bv_omega

/-- The words of ADD with `rd = x0`: the four NTL words, and standard HINTs (`45_hints.md` rule R230). -/
theorem hintWord_add_zero (rs1 rs2 : Reg) : ∃ k, HintWord (encode (.add 0#5 rs1 rs2)) k := by
  have hbits : HasBits (encode (.add 0#5 rs1 rs2)) 0xFE007FFF#32 0x00000033#32 :=
    hasBits_encode_of_dest_zero rfl rfl rfl
  have hrs1 : rs1Of (encode (.add 0#5 rs1 rs2)) = rs1 := rs1Of_encodeR _ _ _ _ _ _
  have hrs2 : rs2Of (encode (.add 0#5 rs1 rs2)) = rs2 := rs2Of_encodeR _ _ _ _ _ _
  by_cases h0 : rs1 = 0#5
  · by_cases hntl : 2#5 ≤ rs2 ∧ rs2 ≤ 5#5
    · subst h0
      rcases reg_two_to_five hntl with rfl | rfl | rfl | rfl
      · exact ⟨.ntlP1, rfl⟩
      · exact ⟨.ntlPall, rfl⟩
      · exact ⟨.ntlS1, rfl⟩
      · exact ⟨.ntlAll, rfl⟩
    · have hwide : HasBits (encode (.add 0#5 rs1 rs2)) 0xFE0FFFFF#32 0x00000033#32 :=
        hasBits_or hbits (and_rs1Field_of_zero (hrs1.trans h0))
      exact ⟨.standard, .inl (by simp [StandardIntegerHint, hwide, hrs2, hntl])⟩
  · exact ⟨.standard, .inl (by simp [StandardIntegerHint, hbits, hrs1, h0])⟩

/-- Each of the 21 rows with `rd = x0` is a pattern of Table 5, but for the word of NOP. -/
theorem hintWord_of_dest_zero {i : Instr} (h : integerDest i = some 0#5) (hnop : encode i ≠ 0x00000013#32) :
    ∃ k, HintWord (encode i) k := by
  cases i with
  | add rd rs1 rs2 =>
    cases h
    exact hintWord_add_zero rs1 rs2
  | addi => exact ⟨.standard, .inl (.inr (.inr (.inl ⟨hasBits_encode_of_dest_zero h rfl rfl, hnop⟩)))⟩
  | lui | auipc | xori | ori | andi | sub | sll | xor | srl | sra | or | and =>
    have hbits := hasBits_encode_of_dest_zero h rfl rfl
    simp only [BitVec.reduceOr] at hbits
    exact ⟨.standard, .inl (by simp only [StandardIntegerHint, hbits, true_or, or_true])⟩
  | slti | sltiu | slli | srli | srai | slt | sltu =>
    have hbits := hasBits_encode_of_dest_zero h rfl rfl
    simp only [BitVec.reduceOr] at hbits
    exact ⟨.custom, by simp only [HintWord, CustomHint, hbits, true_or, or_true]⟩
  | _ => cases h

/-! ## The obligations -/

/-- Settles O19: the sum and the difference modulo 2^32, read as unsigned or as signed. -/
theorem addAndSubtract : Obligations.AddAndSubtract := by
  intro s rd rs1 rs2 imm
  refine ⟨⟨Laws.EncodesToOwnRow.addi rd rs1 imm, ?_, ?_⟩, ⟨Laws.EncodesToOwnRow.add rd rs1 rs2, ?_, ?_⟩,
    ⟨Laws.EncodesToOwnRow.sub rd rs1 rs2, ?_, ?_⟩⟩
  · exact completesWriting_writeResult s rd (add_eq_ofNat _ _)
  · exact completesWriting_writeResult s rd (add_eq_ofInt _ _)
  · exact completesWriting_writeResult s rd (add_eq_ofNat _ _)
  · exact completesWriting_writeResult s rd (add_eq_ofInt _ _)
  · exact completesWriting_writeResult s rd (sub_eq_ofInt_toNat _ _)
  · exact completesWriting_writeResult s rd (sub_eq_ofInt _ _)

/-- Settles O20. -/
theorem setLessThan : Obligations.SetLessThan := by
  intro s rd rs1 rs2 imm
  refine ⟨⟨Laws.EncodesToOwnRow.slti rd rs1 imm, ?_⟩, ⟨Laws.EncodesToOwnRow.sltiu rd rs1 imm, ?_⟩,
    ⟨Laws.EncodesToOwnRow.slt rd rs1 rs2, ?_⟩, ⟨Laws.EncodesToOwnRow.sltu rd rs1 rs2, ?_⟩⟩
  · exact completesWriting_writeResult s rd (boolWord_ltSigned _ _)
  · exact completesWriting_writeResult s rd (boolWord_ltUnsigned _ _)
  · exact completesWriting_writeResult s rd (boolWord_ltSigned _ _)
  · exact completesWriting_writeResult s rd (boolWord_ltUnsigned _ _)

/-- Settles O21: each result is the operation on words, which works bit by bit. -/
theorem bitwiseLogic : Obligations.BitwiseLogic := by
  intro s rd rs1 rs2 imm
  exact ⟨⟨Laws.EncodesToOwnRow.xori rd rs1 imm, _, completesWriting_writeResult s rd rfl, fun j _ => BitVec.getLsbD_xor⟩,
    ⟨Laws.EncodesToOwnRow.ori rd rs1 imm, _, completesWriting_writeResult s rd rfl, fun j _ => BitVec.getLsbD_or⟩,
    ⟨Laws.EncodesToOwnRow.andi rd rs1 imm, _, completesWriting_writeResult s rd rfl, fun j _ => BitVec.getLsbD_and⟩,
    ⟨Laws.EncodesToOwnRow.xor rd rs1 rs2, _, completesWriting_writeResult s rd rfl, fun j _ => BitVec.getLsbD_xor⟩,
    ⟨Laws.EncodesToOwnRow.or rd rs1 rs2, _, completesWriting_writeResult s rd rfl, fun j _ => BitVec.getLsbD_or⟩,
    ⟨Laws.EncodesToOwnRow.and rd rs1 rs2, _, completesWriting_writeResult s rd rfl, fun j _ => BitVec.getLsbD_and⟩⟩

/-- Settles O22: a shift by register is the shift by the amount in the register. -/
theorem shifts : Obligations.Shifts := by
  intro s rd rs1 rs2 n
  simp only [← toNat_shiftAmount]
  refine ⟨⟨Laws.EncodesToOwnRow.slli rd rs1 n, ?_⟩, ⟨Laws.EncodesToOwnRow.srli rd rs1 n, ?_⟩,
    ⟨Laws.EncodesToOwnRow.srai rd rs1 n, ?_⟩, ⟨Laws.EncodesToOwnRow.sll rd rs1 rs2, ?_⟩,
    ⟨Laws.EncodesToOwnRow.srl rd rs1 rs2, ?_⟩, ⟨Laws.EncodesToOwnRow.sra rd rs1 rs2, ?_⟩⟩
  · exact completesWriting_writeResult s rd (shiftLeft_eq_ofNat _ _)
  · exact completesWriting_writeResult s rd (shiftRightLogical_eq_ofNat _ _)
  · exact completesWriting_writeResult s rd (shiftRightArith_eq_ofInt _ _)
  · exact completesWriting_writeResult s rd (shiftLeft_eq_ofNat _ _)
  · exact completesWriting_writeResult s rd (shiftRightLogical_eq_ofNat _ _)
  · exact completesWriting_writeResult s rd (shiftRightArith_eq_ofInt _ _)

/-- Settles O23. -/
theorem upperImmediates : Obligations.UpperImmediates := by
  intro s rd field
  refine ⟨⟨Laws.EncodesToOwnRow.lui rd _, ?_⟩, ⟨Laws.EncodesToOwnRow.auipc rd _, ?_⟩⟩
  · exact completesWriting_writeResult s rd (upperImmediate_eq_ofNat field)
  · rw [← toNat_upperImmediate]
    exact completesWriting_writeResult s rd (add_eq_ofNat _ _)

/-- Settles O24: the step runs the instruction, which writes its result. -/
theorem integerNeverTraps : Obligations.IntegerNeverTraps := by
  intro s w i rd hf hdecode hdest
  obtain ⟨v, hexec⟩ := exec_of_integerDest hdest s
  rw [stepRunsDecoded s w i hf hdecode, hexec]
  exact ⟨v, completesWriting_writeResult s rd rfl⟩

/-- Settles O49: the result of each is dropped, as that of NOP is. -/
theorem otherNops : Obligations.OtherNops := by
  refine fun i hdest => ⟨fun s => ?_, fun _ hnop => hintWord_of_dest_zero hdest hnop⟩
  obtain ⟨v, hexec⟩ := exec_of_integerDest hdest s
  rw [hexec, writeResult_zero]
  rfl

/-- Settles O48. -/
theorem nopChangesOnlyPc : Obligations.NopChangesOnlyPc := by
  have hdecode : decode 0x00000013#32 = .ok (.addi 0#5 0#5 0#32) := decode_word rfl rfl
  refine ⟨hdecode, rfl, rfl, fun s hf => ?_⟩
  rw [stepRunsDecoded s _ _ hf hdecode]
  exact completesMovingPc_advance s

end Sys2Proof.Machine
end

section
/-! The jumps and branches: a transfer to an aligned target completes with its link, one to a misaligned target traps, and a fetch
that the address map refuses at the target traps there (`41_control_transfer.md`). -/

namespace Sys2Proof.Machine

open Sys2Proof

/-! ## A transfer and its link (`41_control_transfer.md` rules R152, R153) -/

theorem writesReg_writeReg (s : State) (rd : Reg) (v : Word) : WritesReg s rd v (writeReg s rd v) := by
  refine ⟨by simp [readReg_writeReg], fun r hr => ?_⟩
  by_cases h0 : r = 0#5
  · simp [h0]
  · rw [readReg_writeReg, if_neg h0, if_neg hr]

/-- A jump to an aligned target writes its link, moves `pc` to the target and changes nothing else. -/
theorem completesWriting_transferTo (s : State) (rd : Reg) (v : Word) {target : Word} (ha : target.toNat % 4 = 0) :
    CompletesWriting s (transferTo s target (writeReg s rd v)) rd v target :=
  ⟨setPc (writeReg s rd v) target, transferTo_of_aligned ha _, rfl, writesReg_writeReg s rd v,
    ⟨fun a => by simp [byteAt], by simp⟩, by simp, by simp⟩

theorem traps_transferTo {s : State} {target : Word} (ha : target.toNat % 4 ≠ 0) (linked : State) :
    Traps s (transferTo s target linked) .instructionAddressMisaligned (some target) :=
  transferTo_of_misaligned ha linked ▸ takeTrap_traps s _ _

/-- An instruction that completes writing a register has written it in the one next state that it answers. -/
theorem CompletesWriting.writesReg {s t : State} {o : Host.Outcome State Fault Refusal} {rd : Reg} {v next : Word}
    (h : CompletesWriting s o rd v next) (ho : o = .next t) : WritesReg s rd v t := by
  obtain ⟨t', ht', -, hwrites, -⟩ := h
  cases ht'.symm.trans ho
  exact hwrites

/-- A jump or taken branch to an aligned target goes there, having written a register or none. -/
theorem exec_of_aligned_target {s : State} {i : Instr} {target : Word} (goes : transferTarget s i = some target)
    (ha : target.toNat % 4 = 0) : ∃ rd v, exec i s = .next (setPc (writeReg s rd v) target) := by
  have hx : exceptionOf s i = none := by
    rw [exceptionOf_of_transferTarget (dataAccess_of_transferTarget goes) goes, if_neg (not_not.2 ha)]
  cases exec_form s i with
  | transfer target' rd v access goes' runs =>
    cases goes.symm.trans goes'
    exact ⟨rd, v, runs.trans (transferTo_of_aligned ha _)⟩
  | load rd rs1 imm n f access stays => exact absurd (stays.symm.trans goes) nofun
  | store rs1 rs2 imm n access stays => exact absurd (stays.symm.trans goes) nofun
  | result rd v raises stays => exact absurd (stays.symm.trans goes) nofun
  | request e raises => exact absurd (hx.symm.trans raises) nofun

/-! ## The target of JALR (`41_control_transfer.md` rule R154) -/

/-- A sum rounded down to even is a multiple of 4 exactly if its bit 1 is clear. -/
theorem even_part_aligned_iff (a : Word) : (BitVec.ofNat 32 (a.toNat / 2 * 2)).toNat % 4 = 0 ↔ a.getLsbD 1 = false := by
  have hlt := a.isLt
  have hround : (BitVec.ofNat 32 (a.toNat / 2 * 2)).toNat = a.toNat / 2 * 2 :=
    Nat.mod_eq_of_lt (by omega)
  have hbit : a.getLsbD 1 = decide (a.toNat / 2 % 2 = 1) := by
    rw [BitVec.getLsbD, Nat.testBit_eq_decide_div_mod_eq, Nat.pow_one]
  rw [hround, hbit, decide_eq_false_iff_not]
  omega

theorem even_part_misaligned_iff (a : Word) : (BitVec.ofNat 32 (a.toNat / 2 * 2)).toNat % 4 ≠ 0 ↔ a.getLsbD 1 = true := by
  rw [Ne, even_part_aligned_iff, Bool.not_eq_false]

theorem exec_jalr (rd rs1 : Reg) (imm : Word) (s : State) :
    exec (.jalr rd rs1 imm) s =
      transferTo s (BitVec.ofNat 32 ((readReg s rs1 + imm).toNat / 2 * 2)) (writeReg s rd (s.pc + 4#32)) := by
  rw [← jalrTarget_eq]
  rfl

/-! ## A fetch that the address map refuses (`60_exceptions.md` rule R242) -/

theorem fetch_of_illegal {s : State} (h : pmaLegal s.cfg s.pc .word .fetch = false) :
    fetch s = .raised { id := .instructionAccessFault, value := some s.pc } := by
  simp [fetch, h, accessFaultId]

theorem step_traps_of_illegal_fetch {s : State} (h : pmaLegal s.cfg s.pc .word .fetch = false) :
    Traps s (step s) .instructionAccessFault (some s.pc) := by
  rw [step, fetch_of_illegal h]
  exact takeTrap_traps s _ _

/-! ## Conditions of branches (`41_control_transfer.md` rules R157 to R159) -/

theorem condEq_iff (a b : Word) : condEq a b = true ↔ a = b := by
  rw [condEq, decide_eq_true_iff]

theorem condNe_iff (a b : Word) : condNe a b = true ↔ a ≠ b := by
  rw [condNe, Bool.not_eq_true', ← Bool.not_eq_true, condEq_iff]

/-- A branch that goes nowhere has a condition that fails, and so moves on (`41_control_transfer.md` rule R157). -/
theorem BranchesOn.not_taken {s : State} {o : Host.Outcome State Fault Refusal} {c : Prop} [Decidable c] {imm : Word}
    (h : BranchesOn s o c imm) (stays : (if c then some (s.pc + imm) else none) = none) :
    CompletesMovingPc s o (s.pc + 4#32) :=
  h.1 fun hc => by simp [hc] at stays

/-! ## The obligations -/

/-- Settles O25. -/
theorem jumpAndLink : Obligations.JumpAndLink :=
  fun s rd imm => ⟨Laws.EncodesToOwnRow.jal rd imm, completesWriting_transferTo s rd (nextPc s),
    fun ha => traps_transferTo ha _⟩

/-- Settles O26: bit 1 of the sum decides whether the target is aligned. -/
theorem jumpAndLinkRegister : Obligations.JumpAndLinkRegister := by
  intro s rd rs1 imm
  refine ⟨Laws.EncodesToOwnRow.jalr rd rs1 imm, fun hbit => ?_, fun hbit => ?_⟩
  · rw [exec_jalr]
    exact completesWriting_transferTo s rd _ ((even_part_aligned_iff _).2 hbit)
  · rw [exec_jalr]
    exact traps_transferTo ((even_part_misaligned_iff _).2 hbit) _

/-- Settles O27: the test of each branch decides its condition. -/
theorem conditionalBranches : Obligations.ConditionalBranches :=
  fun s rs1 rs2 imm =>
    ⟨⟨Laws.EncodesToOwnRow.beq rs1 rs2 imm, branchesOn_branchIf s (condEq_iff _ _) imm⟩,
      ⟨Laws.EncodesToOwnRow.bne rs1 rs2 imm, branchesOn_branchIf s (condNe_iff _ _) imm⟩,
      ⟨Laws.EncodesToOwnRow.blt rs1 rs2 imm, branchesOn_branchIf s (ltSigned_iff _ _) imm⟩,
      ⟨Laws.EncodesToOwnRow.bge rs1 rs2 imm, branchesOn_branchIf s (geSigned_iff _ _) imm⟩,
      ⟨Laws.EncodesToOwnRow.bltu rs1 rs2 imm, branchesOn_branchIf s (ltUnsigned_iff _ _) imm⟩,
      ⟨Laws.EncodesToOwnRow.bgeu rs1 rs2 imm, branchesOn_branchIf s (geUnsigned_iff _ _) imm⟩⟩

/-- Settles O28: a misaligned target is an exception of the instruction, and a branch not taken branches on a condition that fails. -/
theorem misalignedTargetBelongsToJump : Obligations.MisalignedTargetBelongsToJump := by
  refine fun s => ⟨pcStaysAligned.2 s, fun rd rs1 imm target goes => ?_, fun a b imm i hi stays => ?_⟩
  · cases goes
    exact even_part_misaligned_iff _
  · obtain ⟨⟨-, hbeq⟩, ⟨-, hbne⟩, ⟨-, hblt⟩, ⟨-, hbge⟩, ⟨-, hbltu⟩, ⟨-, hbgeu⟩⟩ := conditionalBranches s a b imm
    simp only [List.mem_cons, List.not_mem_nil, or_false] at hi
    rcases hi with rfl | rfl | rfl | rfl | rfl | rfl
    · exact hbeq.not_taken stays
    · exact hbne.not_taken stays
    · exact hblt.not_taken stays
    · exact hbge.not_taken stays
    · exact hbltu.not_taken stays
    · exact hbgeu.not_taken stays

/-- Settles O29: the transfer leaves the address map as it was, so the step from the target fetches what may not be fetched. -/
theorem faultAtTargetBelongsToTarget : Obligations.FaultAtTargetBelongsToTarget := by
  intro s i target goes ha hillegal
  obtain ⟨rd, v, hexec⟩ := exec_of_aligned_target goes ha
  refine ⟨_, hexec, rfl, fun rd' imm hi => ?jal, fun rd' rs1 imm hi => ?jalr, ?fault⟩
  case jal =>
    subst hi
    cases goes
    obtain ⟨-, hcompletes, -⟩ := jumpAndLink s rd' imm
    exact (hcompletes ha).writesReg hexec
  case jalr =>
    subst hi
    cases goes
    obtain ⟨-, hcompletes, -⟩ := jumpAndLinkRegister s rd' rs1 imm
    exact (hcompletes ((even_part_aligned_iff _).1 ha)).writesReg hexec
  case fault => exact step_traps_of_illegal_fetch (by simpa using hillegal)

end Sys2Proof.Machine
end

section
/-! The loads and stores: what each load makes of the bytes it reads and each store of the register it writes, the rule that a
load and a store follow whatever their width, and a load to `x0` (`42_load_store.md`). -/

namespace Sys2Proof.Machine

open Sys2Proof

/-! ## The values of the loads (`42_load_store.md` rules R181 to R185) -/

theorem signExtend8_loadValue (s : State) (ea : Word) : signExtend8 (loadValue s ea .byte) = (byteAt s ea).signExtend 32 := by
  simp [signExtend8, loadValue_byte]

theorem zeroExtend8_loadValue (s : State) (ea : Word) : zeroExtend8 (loadValue s ea .byte) = (byteAt s ea).setWidth 32 := by
  simp [zeroExtend8, loadValue_byte]

theorem signExtend16_loadValue (s : State) (ea : Word) : signExtend16 (loadValue s ea .half) = (halfAt s ea).signExtend 32 := by
  simp [signExtend16, loadValue_half]

theorem zeroExtend16_loadValue (s : State) (ea : Word) : zeroExtend16 (loadValue s ea .half) = (halfAt s ea).setWidth 32 := by
  simp [zeroExtend16, loadValue_half]

/-- The four bytes of a word, the least significant first. -/
theorem joinLittle_four (b0 b1 b2 b3 : Byte) : joinLittle [b0, b1, b2, b3] = b3 ++ b2 ++ b1 ++ b0 := by
  apply BitVec.eq_of_getLsbD_eq
  intro j hj
  simp only [joinLittle, BitVec.getLsbD_or, BitVec.getLsbD_shiftLeft, BitVec.getLsbD_setWidth, BitVec.getLsbD_append]
  interval_cases j <;> simp

theorem loadValue_word (s : State) (ea : Word) : loadValue s ea .word = wordAt s ea := by
  rw [loadValue, wordAt]
  cases s.cfg.endian with
  | little => exact joinLittle_four _ _ _ _
  | big => exact joinLittle_four _ _ _ _

/-! ## The bytes of the stores (`42_load_store.md` rules R186 to R188) -/

/-- A list with a byte for each address of a store, each from its place in the value, is what the store writes. -/
theorem splitBytes_eq_of_places {e : Endian} {n : Width} {v : Word} {bs : List Byte} (hlen : bs.length = widthBytes n)
    (hplace : ∀ k, k < widthBytes n → bs[k]? = some (v.extractLsb' (8 * bytePlace e n k) 8)) : splitBytes e n v = bs := by
  apply List.ext_getElem?
  intro k
  by_cases hk : k < widthBytes n
  · rw [splitBytes_getElem? e v hk, hplace k hk]
  · rw [List.getElem?_eq_none (by simpa using hk), List.getElem?_eq_none (by omega)]

theorem splitBytes_byte (e : Endian) (v : Word) : splitBytes e .byte v = [v.extractLsb' 0 8] := by
  refine splitBytes_eq_of_places rfl fun k hk => ?_
  simp only [widthBytes] at hk
  interval_cases k
  cases e <;> rfl

theorem splitBytes_half (e : Endian) (v : Word) : splitBytes e .half v = halfBytes e v := by
  refine splitBytes_eq_of_places (by cases e <;> rfl) fun k hk => ?_
  simp only [widthBytes] at hk
  interval_cases k <;> cases e <;> rfl

theorem splitBytes_word (e : Endian) (v : Word) : splitBytes e .word v = wordBytes e v := by
  refine splitBytes_eq_of_places (by cases e <;> rfl) fun k hk => ?_
  simp only [widthBytes] at hk
  interval_cases k <;> cases e <;> rfl

/-! ## The rule of a load and of a store (`42_load_store.md` rule R180) -/

/-- A load follows the load rule with what its extension makes of the value that is read. -/
theorem loadRule_of_loadWith {s : State} {i : Instr} {rd rs1 : Reg} {imm v : Word} {n : Width} {f : Word → Word}
    (runs : exec i s = loadWith s rd rs1 imm n f) (hv : f (loadValue s (effectiveAddr s rs1 imm) n) = v) :
    LoadRule s i rd n (effectiveAddr s rs1 imm) v := by
  rw [LoadRule, runs]
  refine ⟨fun h => ?_, fun id x hx => ?_⟩
  · rw [loadWith_of_accessible rd f h]
    exact completesWriting_writeResult s rd hv
  · rw [loadWith_of_exception rd f hx]
    exact takeTrap_traps s id x

/-- A store that is made writes the bytes of its value, marks their addresses and changes nothing else
(`20_memory.md` rules R53, R61). -/
theorem completesStoring_storeValue (s : State) (ea v : Word) (n : Width) :
    CompletesStoring s (.next (advance (storeValue s ea n v))) ea (splitBytes s.cfg.endian n v) := by
  refine ⟨_, rfl, by simp, fun r => by simp, by simp [SameEnvironment], fun k b hb => ?written, fun a ha => ?outside,
    fun a => ?marks⟩
  case written =>
    have hlen : (splitBytes s.cfg.endian n v).length ≤ 4294967296 := by
      rw [splitBytes_length]
      exact (widthBytes_le_four n).trans (by decide)
    exact readByte_writeBytes_written _ _ hlen hb
  case outside => exact byteAt_storeValue_outside s v (by simpa using ha)
  case marks =>
    rw [splitBytes_length, ← mem_accessAddrs]
    exact wasStored_storeValue s ea v a n

/-- A store follows the store rule with the bytes of `rs2` in the environment's byte order. -/
theorem storeRule_of_storeWith {s : State} {i : Instr} {rs1 rs2 : Reg} {imm : Word} {n : Width} {bytes : List Byte}
    (runs : exec i s = storeWith s rs1 rs2 imm n) (hbytes : splitBytes s.cfg.endian n (readReg s rs2) = bytes) :
    StoreRule s i n (effectiveAddr s rs1 imm) bytes := by
  subst hbytes
  rw [StoreRule, runs]
  refine ⟨fun h => ?_, fun id x hx => ?_⟩
  · rw [storeWith_of_accessible rs2 h]
    exact completesStoring_storeValue s _ _ n
  · rw [storeWith_of_exception rs2 hx]
    exact takeTrap_traps s id x

/-! ## Loads that differ in `rd` alone (`42_load_store.md` rule R189) -/

/-- What the loads of a width, in the order of `loadsOf`, make of the value that is read. -/
def extensionsOf : Width → List (Word → Word)
  | .byte => [signExtend8, zeroExtend8]
  | .half => [signExtend16, zeroExtend16]
  | .word => [id]

/-- The extension of a load depends on its width and its place in `loadsOf`, not on its registers. -/
theorem exec_of_loadsOf_getElem? {n : Width} {rd rs1 : Reg} {imm : Word} {k : Nat} {i : Instr}
    (hi : (loadsOf n rd rs1 imm)[k]? = some i) (s : State) :
    ∃ f, (extensionsOf n)[k]? = some f ∧ exec i s = loadWith s rd rs1 imm n f := by
  cases n with
  | byte | half =>
    match k with
    | 0 | 1 => cases hi; exact ⟨_, rfl, rfl⟩
    | k + 2 => cases hi
  | word =>
    match k with
    | 0 => cases hi; exact ⟨_, rfl, rfl⟩
    | k + 1 => cases hi

/-- A load to `x0` that may be made drops the value. -/
theorem completesMovingPc_loadWith_zero {s : State} {rs1 : Reg} {imm : Word} {n : Width} (f : Word → Word)
    (h : accessible s (effectiveAddr s rs1 imm) n .load = true) :
    CompletesMovingPc s (loadWith s 0#5 rs1 imm n f) (s.pc + 4#32) := by
  rw [loadWith_of_accessible 0#5 f h, writeReg_zero]
  exact completesMovingPc_advance s

/-- A load that may not be made never gets as far as its `rd`. -/
theorem loadWith_of_not_accessible {s : State} {rs1 : Reg} {imm : Word} {n : Width} (rd rd' : Reg) (f : Word → Word)
    (h : accessible s (effectiveAddr s rs1 imm) n .load = false) :
    loadWith s rd rs1 imm n f = loadWith s rd' rs1 imm n f := by
  rcases memRead_cases s (effectiveAddr s rs1 imm) n with ⟨hmade, -⟩ | hread | hread | hread
  · exact absurd (h.symm.trans hmade) nofun
  all_goals rw [loadWith, loadWith, hread, andThen, andThen]

/-! ## The obligations -/

/-- Settles O18: the load to `x0` and the load to `rd` have one extension, and `rd` counts only where the access is made. -/
theorem loadToZeroStillLoads : Obligations.LoadToZeroStillLoads := by
  intro s n rd rs1 imm k i j hi hj
  obtain ⟨f, hf, hexec⟩ := exec_of_loadsOf_getElem? hi s
  obtain ⟨g, hg, hexec'⟩ := exec_of_loadsOf_getElem? hj s
  obtain rfl : f = g := Option.some.inj (hf.symm.trans hg)
  rw [hexec, hexec']
  exact ⟨completesMovingPc_loadWith_zero f, loadWith_of_not_accessible 0#5 rd f⟩

/-- Settles O30. -/
theorem loadsRead : Obligations.LoadsRead :=
  fun s rd rs1 imm =>
    ⟨add_eq_ofNat _ _,
      ⟨Laws.EncodesToOwnRow.lb rd rs1 imm, loadRule_of_loadWith rfl (signExtend8_loadValue s _)⟩,
      ⟨Laws.EncodesToOwnRow.lh rd rs1 imm, loadRule_of_loadWith rfl (signExtend16_loadValue s _)⟩,
      ⟨Laws.EncodesToOwnRow.lw rd rs1 imm, loadRule_of_loadWith rfl (loadValue_word s _)⟩,
      ⟨Laws.EncodesToOwnRow.lbu rd rs1 imm, loadRule_of_loadWith rfl (zeroExtend8_loadValue s _)⟩,
      ⟨Laws.EncodesToOwnRow.lhu rd rs1 imm, loadRule_of_loadWith rfl (zeroExtend16_loadValue s _)⟩⟩

/-- Settles O31. -/
theorem storesWrite : Obligations.StoresWrite :=
  fun _ rs1 rs2 imm =>
    ⟨add_eq_ofNat _ _,
      ⟨Laws.EncodesToOwnRow.sb rs1 rs2 imm, storeRule_of_storeWith rfl (splitBytes_byte _ _)⟩,
      ⟨Laws.EncodesToOwnRow.sh rs1 rs2 imm, storeRule_of_storeWith rfl (splitBytes_half _ _)⟩,
      ⟨Laws.EncodesToOwnRow.sw rs1 rs2 imm, storeRule_of_storeWith rfl (splitBytes_word _ _)⟩⟩

end Sys2Proof.Machine
end

section
/-! What the three fence instructions do to the hart, and what the relation `fenceOrders` says of them
(`43_memory_ordering.md` rules R202 to R205; log entry 16). -/

namespace Sys2Proof.Machine

open Sys2Proof

/-! ## The fences move on (`43_memory_ordering.md` rule R203) -/

/-- No field of a FENCE counts for the hart itself. -/
theorem exec_fence (fm pred succ : BitVec 4) (rs1 rd : Reg) (s : State) :
    exec (.fence fm pred succ rs1 rd) s = .next (advance s) := rfl

theorem exec_fenceTso (rs1 rd : Reg) (s : State) : exec (.fenceTso rs1 rd) s = .next (advance s) := rfl

theorem exec_pause (s : State) : exec .pause s = .next (advance s) := rfl

/-! ## The mode of a setting (`43_memory_ordering.md` rule R205) -/

theorem isTsoFence_iff (fm pred succ : BitVec 4) :
    isTsoFence fm pred succ = true ↔ fm = 0b1000#4 ∧ pred = 0b0011#4 ∧ succ = 0b0011#4 := by
  simp only [isTsoFence, Bool.and_eq_true, beq_iff_eq, and_assoc]

theorem fenceMode_tso : fenceMode 0b1000#4 0b0011#4 0b0011#4 = .tso := rfl

theorem fenceMode_of_not_tso {fm pred succ : BitVec 4} (h : ¬ (fm = 0b1000#4 ∧ pred = 0b0011#4 ∧ succ = 0b0011#4)) :
    fenceMode fm pred succ = .normal :=
  if_neg fun htso => h ((isTsoFence_iff fm pred succ).1 htso)

/-- The mode field alone makes a fence with `fm = 0000` normal. -/
theorem fenceMode_zero (pred succ : BitVec 4) : fenceMode 0b0000#4 pred succ = .normal :=
  fenceMode_of_not_tso fun ⟨hfm, _⟩ => absurd hfm (by decide)

/-! ## The pairs a fence orders (`43_memory_ordering.md` rules R202, R204) -/

theorem fenceOrders_of_normal {fm pred succ : BitVec 4} (h : fenceMode fm pred succ = .normal) (a b : AccessClass) :
    fenceOrders fm pred succ a b = (setHas pred a && setHas succ b) := by
  rw [fenceOrders, h]

theorem fenceOrders_of_tso {fm pred succ : BitVec 4} (h : fenceMode fm pred succ = .tso) (a b : AccessClass) :
    fenceOrders fm pred succ a b = (setHas pred a && setHas succ b && !(a == .write && b == .read)) := by
  rw [fenceOrders, h]

theorem fenceOrders_zero (pred succ : BitVec 4) (a b : AccessClass) :
    fenceOrders 0b0000#4 pred succ a b = (setHas pred a && setHas succ b) :=
  fenceOrders_of_normal (fenceMode_zero pred succ) a b

theorem setHas_empty (a : AccessClass) : setHas 0b0000#4 a = false := by
  cases a <;> rfl

theorem setHas_readWrite_iff (a : AccessClass) : setHas 0b0011#4 a = true ↔ a = .read ∨ a = .write := by
  cases a <;> decide

/-- FENCE.TSO orders the pairs of RW, RW other than a store before and a load after. -/
theorem fenceOrders_tso_iff (a b : AccessClass) : fenceOrders 0b1000#4 0b0011#4 0b0011#4 a b = true ↔
    (setHas 0b0011#4 a && setHas 0b0011#4 b) = true ∧ ¬ (a = .write ∧ b = .read) := by
  rw [fenceOrders_of_tso fenceMode_tso, Bool.and_eq_true, Bool.not_eq_true', ← Bool.not_eq_true, Bool.and_eq_true (a == _),
    beq_iff_eq, beq_iff_eq]

/-- The pairs of RW, RW without a store before a load, listed. -/
theorem readWrite_pairs_iff (a b : AccessClass) :
    (setHas 0b0011#4 a && setHas 0b0011#4 b) = true ∧ ¬ (a = .write ∧ b = .read) ↔
      (a = .read ∧ (b = .read ∨ b = .write)) ∨ (a = .write ∧ b = .write) := by
  rw [Bool.and_eq_true, setHas_readWrite_iff, setHas_readWrite_iff]
  constructor
  · rintro ⟨⟨rfl | rfl, rfl | rfl⟩, hpair⟩
    · exact .inl ⟨rfl, .inl rfl⟩
    · exact .inl ⟨rfl, .inr rfl⟩
    · exact absurd ⟨rfl, rfl⟩ hpair
    · exact .inr ⟨rfl, rfl⟩
  · rintro (⟨rfl, hb⟩ | ⟨rfl, rfl⟩)
    · exact ⟨⟨.inl rfl, hb⟩, nofun⟩
    · exact ⟨⟨.inr rfl, .inr rfl⟩, nofun⟩

/-! ## The obligations -/

/-- Settles O42. -/
theorem fencesMoveOn : Obligations.FencesMoveOn := by
  intro s fm pred succ rs1 rd
  rw [exec_fence, exec_fenceTso, exec_pause]
  have hnext := completesMovingPc_advance s
  exact ⟨⟨Laws.EncodesToOwnRow.fence fm pred succ rs1 rd, hnext⟩, ⟨Laws.EncodesToOwnRow.fenceTso rs1 rd, hnext⟩, rfl, hnext⟩

/-- Settles O44: a setting other than the TSO one has the mode of `fm = 0000`, and so its pairs. -/
theorem fenceModes : Obligations.FenceModes := by
  intro fm pred succ
  refine ⟨fenceMode_tso, fun hother => ?_, fun rs1 rd s => by rw [exec_fence, exec_fence]⟩
  have hnormal := fenceMode_of_not_tso hother
  exact ⟨hnormal, fun a b => by rw [fenceOrders_of_normal hnormal, fenceOrders_zero]⟩

/-- Settles O45. -/
theorem fenceGuarantees : Obligations.FenceGuarantees := by
  refine ⟨fenceOrders_zero, fun succ a b => ?emptyPred, fun pred a b => ?emptySucc, fun a b => ?tso, fun a b h => ?full⟩
  case emptyPred => rw [fenceOrders_zero, setHas_empty, Bool.false_and]
  case emptySucc => rw [fenceOrders_zero, setHas_empty, Bool.and_false]
  case tso => exact (fenceOrders_tso_iff a b).trans (readWrite_pairs_iff a b)
  case full =>
    obtain ⟨hsets, _⟩ := (fenceOrders_tso_iff a b).1 h
    rw [fenceOrders_zero, hsets]

end Sys2Proof.Machine
end

section
/-! ECALL and EBREAK: requested traps, raised in every state (`44_system.md` rules R216, R217; `60_exceptions.md` rules R248, R249). -/

namespace Sys2Proof.Machine

open Sys2Proof

/-! ## The words and the exceptions of ECALL and EBREAK (`60_exceptions.md` rules R248, R249) -/

theorem encode_ecall : encode .ecall = 0x00000073#32 := rfl

theorem encode_ebreak : encode .ebreak = 0x00100073#32 := rfl

theorem exceptionOf_ecall (s : State) : exceptionOf s .ecall = some (.environmentCall, none) := rfl

theorem exceptionOf_ebreak (s : State) : exceptionOf s .ebreak = some (.breakpoint, some s.pc) := rfl

/-- ECALL raises EnvironmentCall whatever the state (`44_system.md` rule R216). -/
theorem traps_ecall (s : State) : Traps s (exec .ecall s) .environmentCall none :=
  traps_of_exception (exceptionOf_ecall s)

/-- EBREAK raises Breakpoint with its own address whatever the state (`44_system.md` rule R217). -/
theorem traps_ebreak (s : State) : Traps s (exec .ebreak s) .breakpoint (some s.pc) :=
  traps_of_exception (exceptionOf_ebreak s)

/-! ## The obligations -/

/-- Settles O53: the resumed half of the trap that each of the two raises. -/
theorem systemCallsResume : Obligations.SystemCallsResume := by
  refine ⟨encode_ecall, encode_ebreak, fun s r => ⟨fun hcall => ?ecall, fun hbreak => ?ebreak⟩⟩
  case ecall =>
    obtain ⟨_, resumes⟩ := traps_ecall s
    exact resumes r hcall
  case ebreak =>
    obtain ⟨_, resumes⟩ := traps_ebreak s
    exact resumes r hbreak

end Sys2Proof.Machine
end

section
/-! The HINTs: the code points of Table 5 by the pattern column and by decoded operands, and what a HINT does
(`45_hints.md` rules R226 to R233). -/

namespace Sys2Proof.Machine

open Sys2Proof

/-! ## The operands that make a HINT (`45_hints.md` rules R228 to R232) -/

theorem hintWhenX0_zero (k : HintKind) : hintWhenX0 0#5 k = some k := rfl

theorem dest_zero_of_hintWhenX0 {rd : Reg} {k k' : HintKind} (h : hintWhenX0 rd k' = some k) : rd = 0#5 := by
  by_contra hrd
  rw [hintWhenX0, if_neg hrd] at h
  cases h

/-- An ADD to `x0` outside the four NTL points is a standard HINT (`45_hints.md` rule R230). -/
theorem addHint_of_not_ntl {rs1 rs2 : Reg} (h : ¬ (rs1 = 0#5 ∧ 2#5 ≤ rs2 ∧ rs2 ≤ 5#5)) : addHint rs1 rs2 = .standard := by
  by_cases hrs1 : rs1 = 0#5
  · have hother : ¬ (2#5 ≤ rs2 ∧ rs2 ≤ 5#5) := fun hntl => h ⟨hrs1, hntl⟩
    have hne (r : Reg) (hr : 2#5 ≤ r ∧ r ≤ 5#5) : rs2 ≠ r := fun e => hother (e ▸ hr)
    rw [addHint, if_pos hrs1, if_neg (hne 2#5 (by decide)), if_neg (hne 3#5 (by decide)), if_neg (hne 4#5 (by decide)),
      if_neg (hne 5#5 (by decide))]
  · rw [addHint, if_neg hrs1]

theorem isPauseFence_iff (fm pred succ : BitVec 4) (rs1 rd : Reg) : isPauseFence fm pred succ rs1 rd = true ↔
    fm = 0#4 ∧ pred = 0b0001#4 ∧ succ = 0#4 ∧ rs1 = 0#5 ∧ rd = 0#5 := by
  simp only [isPauseFence, Bool.and_eq_true, beq_iff_eq, and_assoc]

/-- A FENCE that is not PAUSE can only be a standard HINT. -/
theorem fenceHint_eq_some_iff {fm pred succ : BitVec 4} {rs1 rd : Reg} (hpause : isPauseFence fm pred succ rs1 rd = false)
    (k : HintKind) : fenceHint fm pred succ rs1 rd = some k ↔
      (fm = 0#4 ∧ (pred = 0#4 ∨ succ = 0#4) ∧ (rd = 0#5 ∨ rs1 = 0#5)) ∧ .standard = k := by
  rw [fenceHint, if_neg (Bool.eq_false_iff.1 hpause), Option.ite_none_right_eq_some, Option.some_inj]

theorem isPauseFence_of_standard {fm pred succ : BitVec 4} {rs1 rd : Reg}
    (h : fenceHint fm pred succ rs1 rd = some .standard) : isPauseFence fm pred succ rs1 rd = false := by
  rw [← Bool.not_eq_true]
  intro hpause
  rw [fenceHint, if_pos hpause] at h
  cases h

/-- The last column of Table 5 splits the settings of a FENCE HINT by which register fields are clear. -/
theorem fence_settings_iff (pred succ : BitVec 4) (rs1 rd : Reg) :
    ((rd = 0#5 ∧ rs1 ≠ 0#5 ∧ (pred = 0#4 ∨ succ = 0#4)) ∨ (rd ≠ 0#5 ∧ rs1 = 0#5 ∧ (pred = 0#4 ∨ succ = 0#4)) ∨
      (rd = 0#5 ∧ rs1 = 0#5 ∧ pred = 0#4 ∧ succ ≠ 0#4) ∨ (rd = 0#5 ∧ rs1 = 0#5 ∧ pred ≠ 1#4 ∧ succ = 0#4)) ↔
    ((pred = 0#4 ∨ succ = 0#4) ∧ (rd = 0#5 ∨ rs1 = 0#5)) ∧ ¬ (pred = 1#4 ∧ succ = 0#4 ∧ rs1 = 0#5 ∧ rd = 0#5) := by
  by_cases hrd : rd = 0#5
  · by_cases hrs1 : rs1 = 0#5
    · by_cases hsucc : succ = 0#4 <;> simp [hrd, hrs1, hsucc]
    · simp [hrd, hrs1]
  · simp [hrd, and_comm]

/-- The three ways to be a HINT: an integer computational instruction to `x0`, a FENCE of Table 5, or PAUSE. -/
inductive HintForm (k : HintKind) : Instr → Prop where
  | integer {i : Instr} (dest : integerDest i = some 0#5) : HintForm k i
  | fence (fm pred succ : BitVec 4) (rs1 rd : Reg) (sets : fenceHint fm pred succ rs1 rd = some k) :
      HintForm k (.fence fm pred succ rs1 rd)
  | pause (purpose : k = .pause) : HintForm k .pause

theorem hintForm_of_hintKind {i : Instr} {k : HintKind} (h : hintKind i = some k) : HintForm k i := by
  cases i with
  | lui | auipc | slti | sltiu | xori | ori | andi | slli | srli | srai
  | add | sub | sll | slt | sltu | xor | srl | sra | or | and =>
    exact .integer (congrArg some (dest_zero_of_hintWhenX0 h))
  | addi rd rs1 imm =>
    rw [hintKind] at h
    split_ifs at h
    exact .integer (congrArg some (dest_zero_of_hintWhenX0 h))
  | fence fm pred succ rs1 rd => exact .fence fm pred succ rs1 rd h
  | pause => exact .pause (Option.some.inj h).symm
  | _ => cases h

/-- No HINT is the word of NOP (`45_hints.md` rule R232). -/
theorem encode_ne_nop_of_hintKind {i : Instr} {k : HintKind} (hwf : i.wf = true) (h : hintKind i = some k) :
    encode i ≠ 0x00000013#32 := by
  intro hnop
  have hdecode : decode 0x00000013#32 = .ok i := decode_word hnop hwf
  obtain ⟨hnopDecode, _, hnopKind, _⟩ := nopChangesOnlyPc
  obtain rfl : i = .addi 0#5 0#5 0#32 := Except.ok.inj (hdecode.symm.trans hnopDecode)
  exact absurd (hnopKind.symm.trans h) nofun

/-! ## Execution of a HINT (`45_hints.md` rule R226) -/

/-- A HINT needs no case of its own: the rule of its instruction leaves only `pc` to move. -/
theorem exec_of_hintKind {i : Instr} {k : HintKind} (h : hintKind i = some k) (s : State) : exec i s = .next (advance s) := by
  cases hintForm_of_hintKind h with
  | integer dest =>
    obtain ⟨v, hexec⟩ := exec_of_integerDest dest s
    rw [hexec, writeResult_zero]
  | fence fm pred succ rs1 rd => exact exec_fence fm pred succ rs1 rd s
  | pause => exact exec_pause s

/-! ## From the pattern column to the operands (`45_hints.md` rule R228) -/

/-- The word decodes to an instruction whose operands make it the HINT. -/
def DecodesToHint (w : Word) (k : HintKind) : Prop := ∃ i, decode w = .ok i ∧ hintKind i = some k

/-- A pattern fixes the bits of each part of its mask. -/
theorem hasBits_of_submask {w mask bits part : Word} (h : HasBits w mask bits) (hpart : mask &&& part = part) :
    HasBits w part (bits &&& part) := by
  rw [HasBits, ← h, BitVec.and_assoc, hpart]

/-- The bits of a row lie under its mask, and none is in the field of `rd`. -/
theorem fortyRows_bits : ∀ r ∈ fortyRows, r.bits &&& r.mask = r.bits ∧ rdOf r.bits = 0#5 := by
  decide

/-- A pattern that is a row's with the field of `rd` added has the row's words with `rd = x0`. -/
theorem matches_of_hasBits_rd {r : Row} {w : Word} (hr : r ∈ fortyRows) (h : HasBits w (r.mask ||| 0x00000F80#32) r.bits) :
    r.matches w = true ∧ rdOf w = 0#5 := by
  obtain ⟨hunder, hclear⟩ := fortyRows_bits r hr
  constructor
  · have hrow : HasBits w r.mask (r.bits &&& r.mask) := hasBits_of_submask h (by ext; simp +contextual)
    exact (r.matches_iff w).2 (hunder ▸ hrow)
  · have hfield : (r.mask ||| 0x00000F80#32).extractLsb' 7 5 = BitVec.allOnes 5 := by
      rw [BitVec.extractLsb'_or]
      exact BitVec.or_allOnes
    exact (extractLsb'_of_mask h hfield).trans hclear

/-- A word with the pattern of a row with `rd = x0` is the HINT that the row's operands make there. -/
theorem decodesToHint_of_pattern {r : Row} {w mask bits : Word} {k : HintKind}
    (hr : fortyRows.find? (fun r => (r.mask ||| 0x00000F80#32, r.bits) == (mask, bits)) = some r) (h : HasBits w mask bits)
    (hfence : (bits == 0x0000000F#32) = false) (hkind : hintKind (r.build w) = hintWhenX0 (rdOf w) k) : DecodesToHint w k := by
  have hrow : (r.mask ||| 0x00000F80#32, r.bits) = (mask, bits) :=
    beq_iff_eq.1 (List.find?_some (p := fun r : Row => (r.mask ||| 0x00000F80#32, r.bits) == (mask, bits)) hr)
  obtain ⟨rfl, rfl⟩ := Prod.mk.inj hrow
  have hmem := List.mem_of_find?_eq_some hr
  obtain ⟨hmatch, hrd⟩ := matches_of_hasBits_rd hmem h
  exact ⟨r.build w, decode_of_row hmem (beq_eq_false_iff_ne.1 hfence) hmatch, by rw [hkind, hrd, hintWhenX0_zero]⟩

/-- The one ADDI with `rd = x0` and no other operand is NOP. -/
theorem decodesToHint_addi {w : Word} (h : HasBits w 0x00007FFF#32 0x00000013#32) (hnop : w ≠ 0x00000013#32) :
    DecodesToHint w .standard := by
  refine decodesToHint_of_pattern rfl h rfl ?_
  refine if_neg fun ⟨hrs1, himm⟩ => hnop ?_
  have hrd : rdOf w = 0#5 := extractLsb'_of_mask h rfl
  have hrow : w &&& 0x0000707F#32 = 0x00000013#32 := hasBits_of_submask h rfl
  rw [← encodeI_of_mask hrow rfl rfl, hrs1, himm, hrd]
  rfl

theorem decodesToHint_add {w : Word} (h : HasBits w 0xFE007FFF#32 0x00000033#32)
    (hntl : ¬ (rs1Of w = 0#5 ∧ 2#5 ≤ rs2Of w ∧ rs2Of w ≤ 5#5)) : DecodesToHint w .standard := by
  refine decodesToHint_of_pattern rfl h rfl ?_
  exact congrArg (hintWhenX0 (rdOf w)) (addHint_of_not_ntl hntl)

theorem decodesToHint_of_standardInteger {w : Word} (h : StandardIntegerHint w) : DecodesToHint w .standard := by
  rcases h with h | h | ⟨h, hnop⟩ | h | h | h | ⟨h, hrs1⟩ | ⟨h, hntl⟩ | h | h | h | h | h | h | h
  case inr.inr.inl => exact decodesToHint_addi h hnop
  case inr.inr.inr.inr.inr.inr.inl => exact decodesToHint_add h fun ⟨hzero, _⟩ => hrs1 hzero
  case inr.inr.inr.inr.inr.inr.inr.inl => exact decodesToHint_add (hasBits_of_submask h rfl) fun ⟨_, hpoint⟩ => hntl hpoint
  all_goals exact decodesToHint_of_pattern rfl h rfl rfl

theorem decodesToHint_of_custom {w : Word} (h : CustomHint w) : DecodesToHint w .custom := by
  rcases h with h | h | h | h | h | h | h <;> exact decodesToHint_of_pattern rfl h rfl rfl

/-! ## The FENCE rows (`45_hints.md` rules R228, R231) -/

theorem hasBits_fence_iff (w : Word) :
    HasBits w 0xF000707F#32 0x0000000F#32 ↔ w &&& 0x0000707F#32 = 0x0000000F#32 ∧ fmOf w = 0#4 := by
  refine ⟨fun h => ⟨hasBits_of_submask h rfl, extractLsb'_of_mask h rfl⟩, fun ⟨hrow, hfm⟩ => ?_⟩
  have hfield : w &&& 0xF0000000#32 = 0#32 := by
    rw [← encodeFence_of_mask hrow, hfm]
    apply BitVec.eq_of_getLsbD_eq
    intro j hj
    simp only [encodeFence, BitVec.getLsbD_and, BitVec.getLsbD_append]
    interval_cases j <;> simp
  exact hasBits_or hrow hfield

/-- The four FENCE patterns of Table 5 are the settings that the operands name, PAUSE taken out. -/
theorem standardFenceHint_iff (w : Word) : StandardFenceHint w ↔ w &&& 0x0000707F#32 = 0x0000000F#32 ∧
    fenceHint (fmOf w) (predOf w) (succOf w) (rs1Of w) (rdOf w) = some .standard := by
  rw [StandardFenceHint, hasBits_fence_iff, fence_settings_iff, and_assoc]
  refine and_congr_right fun _ => ⟨fun ⟨hfm, hsets, hother⟩ => ?_, fun hkind => ?_⟩
  · have hpause : isPauseFence (fmOf w) (predOf w) (succOf w) (rs1Of w) (rdOf w) = false := by
      rw [← Bool.not_eq_true, isPauseFence_iff]
      exact fun ⟨_, hsetting⟩ => hother hsetting
    exact (fenceHint_eq_some_iff hpause _).2 ⟨⟨hfm, hsets⟩, rfl⟩
  · have hpause := isPauseFence_of_standard hkind
    obtain ⟨⟨hfm, hsets⟩, _⟩ := (fenceHint_eq_some_iff hpause _).1 hkind
    rw [← Bool.not_eq_true, isPauseFence_iff] at hpause
    exact ⟨hfm, hsets, fun hsetting => hpause ⟨hfm, hsetting⟩⟩

theorem decodesToHint_of_standardFence {w : Word} (h : StandardFenceHint w) : DecodesToHint w .standard := by
  obtain ⟨hrow, hkind⟩ := (standardFenceHint_iff w).1 h
  have hpause := isPauseFence_of_standard hkind
  obtain ⟨⟨hfm, _⟩, _⟩ := (fenceHint_eq_some_iff hpause _).1 hkind
  have hwf : (Instr.fence (fmOf w) (predOf w) (succOf w) (rs1Of w) (rdOf w)).wf = true := by
    rw [Instr.wf, hpause, hfm]
    rfl
  refine ⟨_, decode_word ?_ hwf, hkind⟩
  exact encodeFence_of_mask hrow

theorem standardFenceHint_encode {fm pred succ : BitVec 4} {rs1 rd : Reg}
    (h : fenceHint fm pred succ rs1 rd = some .standard) : StandardFenceHint (encode (.fence fm pred succ rs1 rd)) := by
  refine (standardFenceHint_iff _).2 ⟨encodeFence_mask fm pred succ rs1 rd, ?_⟩
  simpa [encode] using h

/-! ## The two columns agree -/

theorem decodesToHint_of_hintWord {w : Word} {k : HintKind} (h : HintWord w k) : DecodesToHint w k := by
  cases k with
  | standard => exact h.elim decodesToHint_of_standardInteger decodesToHint_of_standardFence
  | custom => exact decodesToHint_of_custom h
  | ntlP1 => exact ⟨.add 0#5 0#5 2#5, decode_word h.symm rfl, rfl⟩
  | ntlPall => exact ⟨.add 0#5 0#5 3#5, decode_word h.symm rfl, rfl⟩
  | ntlS1 => exact ⟨.add 0#5 0#5 4#5, decode_word h.symm rfl, rfl⟩
  | ntlAll => exact ⟨.add 0#5 0#5 5#5, decode_word h.symm rfl, rfl⟩
  | pause => exact ⟨.pause, decode_word h.symm rfl, rfl⟩

theorem DecodesToHint.unique {w : Word} {k k' : HintKind} (h : DecodesToHint w k) (h' : DecodesToHint w k') : k = k' := by
  obtain ⟨i, hdecode, hkind⟩ := h
  obtain ⟨j, hdecode', hkind'⟩ := h'
  obtain rfl : i = j := Except.ok.inj (hdecode.symm.trans hdecode')
  exact Option.some.inj (hkind.symm.trans hkind')

/-- The operands decide the purpose, so some pattern of the word is enough: it is that of the operands' own purpose. -/
theorem hintWord_of_decodesToHint {w : Word} {k : HintKind} (h : DecodesToHint w k) : HintWord w k := by
  obtain ⟨i, hdecode, hkind⟩ := h
  obtain ⟨hwf, rfl⟩ := encodeOfDecode w i hdecode
  cases hintForm_of_hintKind hkind with
  | integer dest =>
    obtain ⟨k', hword⟩ := hintWord_of_dest_zero dest (encode_ne_nop_of_hintKind hwf hkind)
    obtain rfl : k = k' := DecodesToHint.unique ⟨i, hdecode, hkind⟩ (decodesToHint_of_hintWord hword)
    exact hword
  | fence fm pred succ rs1 rd sets =>
    simp only [Instr.wf, Bool.and_eq_true, Bool.not_eq_true'] at hwf
    obtain ⟨_, hpause⟩ := hwf
    obtain ⟨_, rfl⟩ := (fenceHint_eq_some_iff hpause k).1 sets
    exact .inr (standardFenceHint_encode sets)
  | pause purpose =>
    subst purpose
    rfl

/-! ## The obligations -/

/-- Settles O47: a pattern fixes the decoded row and `rd = x0`, and the operands of a HINT have exactly one purpose. -/
theorem hintCodePoints : Obligations.HintCodePoints :=
  fun _ _ => ⟨decodesToHint_of_hintWord, hintWord_of_decodesToHint⟩

/-- Settles O46: the word decodes to a HINT, whose instruction only moves `pc`. -/
theorem hintsChangeOnlyPc : Obligations.HintsChangeOnlyPc := by
  intro s w k hf hword
  obtain ⟨i, hdecode, hkind⟩ := (hintCodePoints w k).1 hword
  rw [stepRunsDecoded s w i hf hdecode, exec_of_hintKind hkind]
  exact completesMovingPc_advance s

end Sys2Proof.Machine
end

section
/-! The exceptions of a step: its three ways to begin, what a fetched word raises and what it can be refused for, and the
environment's answer as a function of registers, bytes and triple (`60_exceptions.md`). -/

namespace Sys2Proof.Machine

open Sys2Proof

/-! ## What the environment can tell apart (`60_exceptions.md` rule R252) -/

section
variable {s t : State} (hregs : SameRegs s t) (hbytes : ∀ a : Word, byteAt t a = byteAt s a) (x : Trap)
include hregs hbytes

theorem envValue_congr (e : EnvExpr) : envValue t x e = envValue s x e := by
  induction e with
  | const | trapPc | trapValue => rfl
  | reg r => exact hregs r
  | byteAt a ih => rw [envValue, envValue, ih, ← byteAt, ← byteAt, hbytes]
  | add a b iha ihb => rw [envValue, envValue, iha, ihb]

theorem envTestHolds_congr (q : EnvTest) : envTestHolds t x q = envTestHolds s x q := by
  cases q with
  | raised | reported => rfl
  | equal a b => rw [envTestHolds, envTestHolds, envValue_congr hregs hbytes, envValue_congr hregs hbytes]

theorem chosenPlan_congr (e : EnvTrap) : chosenPlan t x e = chosenPlan s x e := by
  induction e with
  | stop | resume => rfl
  | choose q yes no ihyes ihno => rw [chosenPlan, chosenPlan, envTestHolds_congr hregs hbytes, ihyes, ihno]

theorem planResumption_congr (p : ResumePlan) : planResumption t x p = planResumption s x p := by
  simp only [planResumption, envValue_congr hregs hbytes]

/-- The `pc`, the marks of stores and the last record are nothing to the environment. -/
theorem environmentAnswer_congr (henv : t.cfg.envTrap = s.cfg.envTrap) : environmentAnswer t x = environmentAnswer s x := by
  rw [environmentAnswer, environmentAnswer, henv, chosenPlan_congr hregs hbytes,
    funext (planResumption_congr hregs hbytes x)]

end

/-! ## Reserved words (`60_exceptions.md` rule R243) -/

/-- The one error of the decoder names the word. -/
theorem decode_reserved_of_error {w : Word} {e : DecodeError} (h : decode w = .error e) : decode w = .error (.reserved w) := by
  have hd := decode_decodesTo w
  rw [h] at hd ⊢
  cases hd with
  | reserved => rfl

theorem runWord_of_reserved {w : Word} {e : DecodeError} (s : State) (h : decode w = .error e) :
    runWord s w = reservedInstruction s w := by
  rw [runWord, h]

theorem reservedInstruction_of_illegal {s : State} (h : s.cfg.reservedInsn = .illegalInstruction) (w : Word) :
    reservedInstruction s w = takeTrap s { id := .illegalInstruction, value := some w } := by
  rw [reservedInstruction, h]

theorem reservedInstruction_of_unspecified {s : State} (h : s.cfg.reservedInsn = .unspecified) (w : Word) :
    reservedInstruction s w = .refused (.reservedEncoding w) := by
  rw [reservedInstruction, h]

/-! ## A fetched word that raises, and one that does not -/

theorem wordException_of_decode {w : Word} {i : Instr} (s : State) (h : decode w = .ok i) :
    wordException s w = exceptionOf s i := by
  rw [wordException, h]

theorem wordException_of_reserved {w : Word} {e : DecodeError} (s : State) (h : decode w = .error e) :
    wordException s w = if s.cfg.reservedInsn = .illegalInstruction then some (.illegalInstruction, some w) else none := by
  rw [wordException, h]

/-- A word that raises takes the trap of its exception, a reserved word under IllegalInstruction among them. -/
theorem runWord_of_exception {s : State} {w : Word} {id : ExceptionId} {v : Option Word} (hx : wordException s w = some (id, v)) :
    runWord s w = takeTrap s { id := id, value := v } := by
  cases hw : decode w with
  | ok i =>
    rw [wordException_of_decode s hw] at hx
    rw [runWord_of_decode s hw, exec_of_exception hx]
  | error e =>
    rw [wordException_of_reserved s hw] at hx
    split at hx
    · cases hx
      rw [runWord_of_reserved s hw, reservedInstruction_of_illegal ‹_›]
    · cases hx

/-- A word that raises nothing does not stop the run. -/
theorem runWord_ne_fault_of_no_exception {s : State} {w : Word} (hx : wordException s w = none) (f : Fault) :
    runWord s w ≠ .fault f := by
  cases hw : decode w with
  | ok i =>
    rw [wordException_of_decode s hw] at hx
    rw [runWord_of_decode s hw]
    exact exec_ne_fault_of_no_exception hx f
  | error e =>
    cases hr : s.cfg.reservedInsn with
    | illegalInstruction => simp [wordException_of_reserved s hw, hr] at hx
    | unspecified => simp [runWord_of_reserved s hw, reservedInstruction_of_unspecified hr]

theorem step_traps_of_wordException {s : State} {w : Word} {id : ExceptionId} {v : Option Word} (hf : Fetches s w)
    (hx : wordException s w = some (id, v)) : Traps s (step s) id v := by
  rw [step_of_fetches hf, runWord_of_exception hx]
  exact takeTrap_traps s id v

/-! ## The ways a step begins (`60_exceptions.md` rule R251) -/

/-- The bytes of a word put together of four bytes are those bytes (`20_memory.md` rule R47). -/
theorem instBytes_instWord (b0 b1 b2 b3 : Byte) : instBytes (instWord b0 b1 b2 b3) = [b0, b1, b2, b3] := by
  simp only [instBytes, instWord, List.cons.injEq, and_true]
  refine ⟨?_, ?_, ?_, ?_⟩ <;>
  · apply BitVec.eq_of_getLsbD_eq
    intro j hj
    simp only [BitVec.getLsbD_append, BitVec.getLsbD_extractLsb']
    interval_cases j <;> simp

/-- A legal fetch of bytes that no store of the run wrote fetches the word at `pc`. -/
theorem fetches_instAt {s : State} (hlegal : pmaLegal s.cfg s.pc .word .fetch = true) (hunstored : FetchesUnstored s) :
    Fetches s (instAt s.mem s.pc) := by
  have hbytes := instBytes_instWord (byteAt s s.pc) (byteAt s (s.pc + 1#32)) (byteAt s (s.pc + 2#32)) (byteAt s (s.pc + 3#32))
  simp only [instBytes, List.cons.injEq, and_true] at hbytes
  obtain ⟨h0, h1, h2, h3⟩ := hbytes
  exact ⟨hlegal, hunstored, h0.symm, h1.symm, h2.symm, h3.symm⟩

/-- How a step begins: the address map refuses the fetch, a fetched byte was stored by the run, or a word is fetched. -/
inductive FetchForm (s : State) : Prop where
  | illegal (refuses : pmaLegal s.cfg s.pc .word .fetch = false)
  | stored (admits : pmaLegal s.cfg s.pc .word .fetch = true) (marked : ¬ FetchesUnstored s)
  | word (w : Word) (fetched : Fetches s w)

theorem fetch_form (s : State) : FetchForm s := by
  cases hlegal : pmaLegal s.cfg s.pc .word .fetch with
  | false => exact .illegal hlegal
  | true =>
    by_cases hunstored : FetchesUnstored s
    · exact .word _ (fetches_instAt hlegal hunstored)
    · exact .stored hlegal hunstored

/-! ## What is refused (log entries 13, 14, 15) -/

/-- An instruction is refused for its own legal access to a device alone (log entry 14). -/
theorem exec_refused {s : State} {i : Instr} {x : Refusal} (h : exec i s = .refused x) :
    exceptionOf s i = none ∧
      ∃ k n ea, dataAccess s i = some (k, n, ea) ∧ touchesIO s.cfg ea n = true ∧ x = .deviceAccess k ea := by
  cases hx : exceptionOf s i with
  | some e => exact absurd ((exec_of_exception hx).symm.trans h) takeTrap_not_refused
  | none =>
    refine ⟨rfl, ?_⟩
    cases exec_form s i with
    | load rd rs1 imm n f access stays runs =>
      rw [exceptionOf_of_dataAccess access] at hx
      rw [runs, loadWith_of_no_exception rd f hx] at h
      split at h
      · cases h
        exact ⟨_, _, _, access, ‹_›, rfl⟩
      · cases h
    | store rs1 rs2 imm n access stays runs =>
      rw [exceptionOf_of_dataAccess access] at hx
      rw [runs, storeWith_of_no_exception rs2 hx] at h
      split at h
      · cases h
        exact ⟨_, _, _, access, ‹_›, rfl⟩
      · cases h
    | transfer target rd v access goes runs =>
      rw [runs, transferTo_of_aligned (target_aligned_of_no_exception hx access goes)] at h
      cases h
    | result rd v raises stays runs => cases runs.symm.trans h
    | request e raises => exact absurd (hx.symm.trans raises) nofun

/-- A reserved word is refused under `unspecified` alone (log entry 15). -/
theorem reservedInstruction_refused {s : State} {w : Word} {x : Refusal} (h : reservedInstruction s w = .refused x) :
    s.cfg.reservedInsn = .unspecified ∧ x = .reservedEncoding w := by
  cases hr : s.cfg.reservedInsn with
  | illegalInstruction => exact absurd ((reservedInstruction_of_illegal hr w).symm.trans h) takeTrap_not_refused
  | unspecified =>
    cases (reservedInstruction_of_unspecified hr w).symm.trans h
    exact ⟨rfl, rfl⟩

/-- The refusals of a step: a byte of a legal fetch was stored (log entry 13), a reserved word is fetched under `unspecified`
(log entry 15), or the fetched instruction raises nothing and its own access touches a device (log entry 14). -/
inductive RefusalForm (s : State) : Refusal → Prop where
  | storedBytes (admits : pmaLegal s.cfg s.pc .word .fetch = true) (marked : ¬ FetchesUnstored s) :
      RefusalForm s (.fetchOfStoredBytes s.pc)
  | reservedWord (w : Word) (fetched : Fetches s w) (reserved : decode w = .error (.reserved w))
      (unspecified : s.cfg.reservedInsn = .unspecified) : RefusalForm s (.reservedEncoding w)
  | device (w : Word) (i : Instr) (k : AccessKind) (n : Width) (ea : Word) (fetched : Fetches s w) (decodes : decode w = .ok i)
      (access : dataAccess s i = some (k, n, ea)) (raises : exceptionOf s i = none) (touches : touchesIO s.cfg ea n = true) :
      RefusalForm s (.deviceAccess k ea)

/-- Every refusal of a step has one of the three forms, by how the step begins and what it decodes. -/
theorem step_refused {s : State} {x : Refusal} (h : step s = .refused x) : RefusalForm s x := by
  cases fetch_form s with
  | illegal refuses =>
    rw [step, fetch_of_illegal refuses] at h
    exact absurd h takeTrap_not_refused
  | stored admits marked =>
    rw [step, fetch_of_stored admits marked] at h
    cases h
    exact .storedBytes admits marked
  | word w fetched =>
    rw [step_of_fetches fetched] at h
    cases hw : decode w with
    | error e =>
      rw [runWord_of_reserved s hw] at h
      obtain ⟨hunspecified, rfl⟩ := reservedInstruction_refused h
      exact .reservedWord w fetched (decode_reserved_of_error hw) hunspecified
    | ok i =>
      rw [runWord_of_decode s hw] at h
      obtain ⟨hx, k, n, ea, access, htouches, rfl⟩ := exec_refused h
      exact .device w i k n ea fetched hw access hx htouches

theorem touchesIO_of_no_devices {c : Eei} (h : c.io = []) (ea : Word) (n : Width) : touchesIO c ea n = false := by
  simp [touchesIO, isIO, h]

/-! ## The obligations -/

/-- Settles O54: the resumed half of the trap that a step takes, and the answer by what the environment can tell apart. -/
theorem trapsResume : Obligations.TrapsResume := by
  refine ⟨fun s r hillegal => ?fetch, fun s r w id v hf hx => ?word,
    fun s t x hregs hbytes => environmentAnswer_congr hregs hbytes x⟩
  case fetch =>
    obtain ⟨-, resumes⟩ := step_traps_of_illegal_fetch hillegal
    exact resumes r
  case word =>
    obtain ⟨-, resumes⟩ := step_traps_of_wordException hf hx
    exact resumes r

/-- Settles O56: the exception of a reserved word, and where the reserved words lie. -/
theorem reservedWordTraps : Obligations.ReservedWordTraps := by
  have reserved {w : Word} (hplace : ReservedByPlace w) : decode w = .error (.reserved w) := by
    obtain ⟨hiff, -⟩ := reservedWordsByPlace w
    exact hiff.2 hplace
  refine ⟨fun s w hf hw => ⟨fun hr => ?illegal, fun hr => ?unspecified⟩,
    fun w hlow => reserved (reservedByPlace_of_low_bits hlow), reserved (.inl (by decide)), reserved (.inl (by decide))⟩
  case illegal =>
    refine step_traps_of_wordException hf ?_
    rw [wordException_of_reserved s hw, if_pos hr]
  case unspecified =>
    rw [step_of_fetches hf, runWord_of_reserved s hw, reservedInstruction_of_unspecified hr]

/-- Settles O57. -/
theorem exceptionsExactly : Obligations.ExceptionsExactly := by
  refine fun s => ⟨step_traps_of_illegal_fetch, fun w hf => ⟨fun id v => step_traps_of_wordException hf, fun hx f => ?_⟩⟩
  rw [step_of_fetches hf]
  exact runWord_ne_fault_of_no_exception hx f

/-- Settles O58. -/
theorem faultsReportOwnPc : Obligations.FaultsReportOwnPc := by
  intro s f h
  obtain ⟨e, htrap, hstops⟩ := step_fault h
  exact ⟨e.id, e.value, htrap, hstops⟩

/-- Settles O60: each condition of the second part excludes one of the three forms of a refusal. -/
theorem nothingElseRefused : Obligations.NothingElseRefused := by
  refine ⟨fun s x h => ?forms, fun s hio hillegal hunstored => ?goesOn⟩
  case forms =>
    cases step_refused h with
    | storedBytes admits marked => exact .inl ⟨rfl, admits, marked⟩
    | reservedWord w fetched reserved unspecified => exact .inr (.inl ⟨w, fetched, reserved, unspecified, rfl⟩)
    | device w i k n ea fetched decodes access raises touches =>
      exact .inr (.inr ⟨w, i, k, n, ea, fetched, decodes, access, raises, touches, rfl⟩)
  case goesOn =>
    cases h : step s with
    | next t => exact .inl ⟨t, rfl⟩
    | fault f =>
      obtain ⟨x⟩ := f
      exact .inr ⟨x, rfl⟩
    | refused x =>
      cases step_refused h with
      | storedBytes admits marked => exact absurd hunstored marked
      | reservedWord w fetched reserved unspecified => exact absurd (hillegal.symm.trans unspecified) nofun
      | device w i k n ea fetched decodes access raises touches =>
        exact absurd ((touchesIO_of_no_devices hio ea n).symm.trans touches) nofun

/-- Settles O52. -/
theorem systemTraps : Obligations.SystemTraps :=
  fun s => ⟨traps_ecall s, traps_ebreak s⟩

/-- Settles O55. -/
theorem fetchAccessFault : Obligations.FetchAccessFault :=
  fun _ => step_traps_of_illegal_fetch

end Sys2Proof.Machine
end

section
/-! Launch and loading: the decoder on a word that is loaded, the marks and the address map that a load from outside the run leaves,
and the obligations of `70_reset_and_hazards.md`. -/

namespace Sys2Proof.Machine

open Sys2Proof

/-! ## The loaded word -/

/-- The bytes of a word, in memory order, decode as the word does (`20_memory.md` rule R47). -/
theorem decodeBytes_instBytes (w : Word) : decodeBytes (instBytes w) = (decode w).map (·, []) := by
  simp only [instBytes, decodeBytes, instWord_instBytes]
  cases decode w <;> rfl

theorem decode_of_decodeTableWord {nbits w : Nat} {i : Instr} (h : decodeTableWord nbits w = some i) :
    decode (BitVec.ofNat 32 (w % 2 ^ nbits)) = .ok i := by
  rw [decodeTableWord, decodeBytes_instBytes] at h
  cases hw : decode (BitVec.ofNat 32 (w % 2 ^ nbits)) with
  | ok j =>
    rw [hw] at h
    exact congrArg Except.ok (Option.some.inj h)
  | error e =>
    rw [hw] at h
    cases h

/-- A step from where a word was loaded runs that word (`70_reset_and_hazards.md` rule R281). -/
theorem step_placeInstruction (s : State) (w : Word) : step (placeInstruction s w) = runWord (placeInstruction s w) w := by
  rw [step, fetch_placeInstruction, andThen]

/-! ## What the load leaves (log entry 17) -/

theorem readByte_placeInstruction_outside {s : State} {a : Word} (w : Word) (ha : a ∉ accessAddrs s.pc .word) :
    readByte (placeInstruction s w).mem a = readByte s.mem a :=
  readByte_writeBytes_outside _ _ _ _ fun k hk hak => ha ((mem_accessAddrs s.pc a .word).2 ⟨k, hk, hak⟩)

/-- Taking an address out leaves every other in the set. -/
theorem mem_removeAddr_of_ne {a x : Nat} {cs : List Nat} (hne : x ≠ a) (hx : x ∈ cs) : x ∈ removeAddr a cs := by
  induction cs with
  | nil => exact hx
  | cons c cs ih =>
    rw [removeAddr]
    split
    case isTrue hac => exact ih ((List.mem_cons.1 hx).resolve_left fun hxc => hne (hxc.trans hac.symm))
    case isFalse => exact List.mem_cons.2 ((List.mem_cons.1 hx).imp_right ih)

theorem mem_unmark {a : Word} {stored : List Nat} {as : List Word} :
    a.toNat ∈ unmark stored as ↔ a ∉ as ∧ a.toNat ∈ stored := by
  refine ⟨fun h => ⟨fun ha => not_mem_unmark (.inl ha) h, ?kept⟩, ?remains⟩
  case kept =>
    by_contra hnot
    exact not_mem_unmark (.inr hnot) h
  case remains =>
    rintro ⟨ha, h⟩
    induction as generalizing stored with
    | nil => exact h
    | cons b as ih =>
      obtain ⟨hab, ha⟩ := not_or.1 (mt List.mem_cons.2 ha)
      exact ih ha (mem_removeAddr_of_ne (fun e => hab (BitVec.eq_of_toNat_eq e)) h)

theorem wasStored_placeInstruction_outside {s : State} {a : Word} (w : Word) (ha : a ∉ accessAddrs s.pc .word) :
    wasStored (placeInstruction s w) a = wasStored s a := by
  rw [Bool.eq_iff_iff, wasStored_iff, wasStored_iff, placeInstruction_stored, mem_unmark, and_iff_right ha]

/-- Admitting a fetch changes the address map alone, and that only where it did not admit the fetch. -/
theorem admitFetchAt_eq (c : Eei) (a : Word) :
    admitFetchAt c a = { c with pma := if pmaLegal c a .word .fetch then c.pma
      else { region := { base := a, size := 4 }, fetch := true, load := false, store := false,
             byte := false, half := false, word := true } :: c.pma } := by
  cases hlegal : pmaLegal c a .word .fetch <;> simp [admitFetchAt, hlegal]

/-! ## The obligations -/

/-- Settles O9. -/
theorem invariantAtLaunch : Obligations.InvariantAtLaunch :=
  fun cfg resetPc regs image hpc himage henv =>
    ⟨runInvariant_launch regs hpc himage henv, rfl, readReg_launch cfg resetPc regs image⟩

/-- Settles O14: the fetch gives the loaded word back, and the load reaches no byte and no mark beyond the four addresses. -/
theorem loadedWordRunsNext : Obligations.LoadedWordRunsNext := by
  intro s nbits w i hi
  simp only [State.withFetchWord]
  have hruns (t : State) : runWord t (BitVec.ofNat 32 (w % 2 ^ nbits)) = exec i t :=
    runWord_of_decode t (decode_of_decodeTableWord hi)
  refine ⟨(step_placeInstruction s _).trans (hruns _), rfl, fun _ => rfl, rfl,
    fun a => readByte_placeInstruction_outside _, fun a => wasStored_placeInstruction_outside _, ?environment⟩
  case environment =>
    rw [placeInstruction_cfg, admitFetchAt_eq]
    exact ⟨rfl, rfl, rfl, rfl, rfl, rfl, rfl⟩

end Sys2Proof.Machine
end
